-- ==== Sys2Proof/Word.lean ====
section
/-! DEFINITION. The engine's word types: stream bytes, 32-bit registers and the 64-bit stream
position (rules R6, R8, R25 and R35). -/

namespace Sys2Proof

/-- One byte of the input stream or of the text port (R8). -/
abbrev Byte := BitVec 8

/-- A host-visible register, a command word or a 32-bit stream field (R8, R25). -/
abbrev Word := BitVec 32

/-- A stream position, the width of `s.cursor` (R35); arithmetic is modulo 2^64 (R70). -/
abbrev Position := BitVec 64

end Sys2Proof
end

