-- ==== Sys2Proof/Syntax.lean ====
section
/-! DEFINITION. The engine's instruction set: the two commands of spec/opcode_table.json. -/

namespace Sys2Proof

/-- A command of the engine (R84). The command word has no operand, immediate or register
specifier (R82, R83), so no constructor has an argument. -/
inductive Instr where
  /-- `SIGCHK`, command word 0x00000001: validate the stream signature (R100). -/
  | sigchk
  /-- `NEXT`, command word 0x00000002: decode the next chunk record (R120). -/
  | next
deriving DecidableEq, Repr

end Sys2Proof
end

