-- ==== Sys2Proof/Decode.lean ====
section
/-! DEFINITION. The command word (R82 to R85): the decoder, total on all 2^32 words and rejecting by
name, then the encoder. -/

namespace Sys2Proof

/-- Why a command word is illegal (R85). -/
inductive Reject where
  /-- `RSV != 0`. -/
  | reservedBits
  /-- `RSV = 0` and `OP` is 0x0 or 0x3 to 0xF. -/
  | reservedOpcode
deriving DecidableEq, Repr

/-- The command word's field `OP = w[3:0]` (R82). -/
def opField (w : Word) : BitVec 4 := w.extractLsb 3 0

/-- The command word's field `RSV = w[31:4]` (R82). -/
def rsvField (w : Word) : BitVec 28 := w.extractLsb 31 4

/-- The decoder: all 32 bits are compared (R84, R85). -/
def decode (w : Word) : Except Reject Instr :=
  if rsvField w ≠ 0 then .error .reservedBits
  else if opField w = 0x1 then .ok .sigchk
  else if opField w = 0x2 then .ok .next
  else .error .reservedOpcode

/-- The opcode of a command (R84). -/
def opcode : Instr → BitVec 4
  | .sigchk => 0x1
  | .next => 0x2

/-- The encoder: `RSV = 0` above the opcode (R82, R84). -/
def encode (i : Instr) : Word := (0 : BitVec 28) ++ opcode i

/-- The instruction the decoder reads from an instruction of `nbits` bits that are `w`; every bit
above `nbits` is zero. A command word is one 32-bit bus word, so there is no order of bytes to
choose (R82, R93); a number that needs more than 32 bits is no command word. -/
def decodeTableWord (nbits w : Nat) : Option Instr :=
  if w % 2 ^ nbits < 2 ^ 32 then (decode (BitVec.ofNat 32 (w % 2 ^ nbits))).toOption else none

end Sys2Proof
end

