-- ==== Sys2Proof/Config.lean ====
section
/-! DEFINITION. What an implementation fixes (the two parameters of rule R6 and the constants of
R7) and the one value the spec leaves free. -/

namespace Sys2Proof

/-- The 4 type bytes of a record, in stream order: `t0` is met first (R86, R91). -/
structure TypeBytes where
  t0 : Byte
  t1 : Byte
  t2 : Byte
  t3 : Byte
deriving DecidableEq, Repr

namespace Config

/-- The configuration parameters of R6. They are fixed for the engine's lifetime (R193), so no step
changes them; the state carries them, and a statement about every state holds for every value
of both. -/
structure Params where
  /-- `TEXT_MARKER`: the textual-metadata marker. -/
  textMarker : TypeBytes
  /-- `STRICT_LEN_EOF`: an end of stream after 1 to 3 length bytes is a fault (R123). -/
  strictLenEof : Bool
deriving DecidableEq, Repr

/-- The values R6 gives for this hardware: `74 45 58 74` and false.
PRESUMED: the marker's bytes are the spec's general knowledge (D4), see assumption 2. -/
def defaults : Params :=
  { textMarker := ⟨0x74, 0x45, 0x58, 0x74⟩, strictLenEof := false }

/-- The terminal marker `IEND` (R7): a constant, not a parameter. -/
def iend : TypeBytes := ⟨0x49, 0x45, 0x4E, 0x44⟩

/-- FREE VALUE (assumption 8): what a host variable holds before the first `RD` into it. The spec
gives the host's variables no initial value (R94). -/
opaque hostVarInit : Nat → Word

end Config

end Sys2Proof
end

