-- ==== Sys2Proof/Machine/Operands.lean ====
section
/-! DEFINITION. The operand-like values of the engine (R83): big-endian fields (R11, R63, R90, R92),
the packed type (R86), the bytes of the signature (R89) and the halves of a 64-bit register. The
command word itself has no operand (R82). -/

namespace Sys2Proof

/-- The type bytes packed into 32 bits, `t0` most significant (R86). -/
def TypeBytes.pack (t : TypeBytes) : Word := t.t0 ++ t.t1 ++ t.t2 ++ t.t3

namespace Machine

/-- `be32`: the byte met first is the most significant (R11, R63). -/
def be32 (b0 b1 b2 b3 : Byte) : Word := b0 ++ b1 ++ b2 ++ b3

/-- One byte of a field enters the accumulator: `(acc << 8) | zext_32(r)` (R122, R124, R129). -/
def shiftIn (acc : Word) (r : Byte) : Word := (acc <<< 8) ||| r.setWidth 32

/-- `bytes(type)`: the 4 bytes of a packed type, in stream order (R86, R133). -/
def typeBytes (w : Word) : TypeBytes :=
  ⟨w.extractLsb 31 24, w.extractLsb 23 16, w.extractLsb 15 8, w.extractLsb 7 0⟩

/-- The 4 bytes of a big-endian 32-bit field, in stream order (R11, R87). -/
def be32Bytes (w : Word) : List Byte :=
  [w.extractLsb 31 24, w.extractLsb 23 16, w.extractLsb 15 8, w.extractLsb 7 0]

/-- `IEND` packed: 0x49454E44 (R7). -/
def iendType : Word := TypeBytes.pack Config.iend

/-- `SIG`: the 8-byte signature (R89). -/
def signature : List Byte := [0x89, 0x50, 0x4E, 0x47, 0x0D, 0x0A, 0x1A, 0x0A]

/-- `SIG[i]` (R89). -/
def sigByte (i : BitVec 3) : Byte := signature.getD i.toNat 0

/-- Bits [31:0] of a 64-bit register (R34, R35, R37). -/
def lowHalf (p : Position) : Word := p.extractLsb 31 0

/-- Bits [63:32] of a 64-bit register (R34, R35, R37). -/
def highHalf (p : Position) : Word := p.extractLsb 63 32

end Machine

end Sys2Proof
end

