-- ==== Sys2Proof/Machine/HostSyntax.lean ====
section
/-! DEFINITION. What the host can say: its bus accesses (R23, R81), the register names of the
register map (R25), and host programs (R94, R95), symbolic and assembled. -/

namespace Sys2Proof.Machine

/-- The width of a host bus access; only `word` is admitted (R64). -/
inductive Width where
  | byte
  | half
  | word
deriving DecidableEq, Repr

/-- One host bus access (R81): `RD off` or `WR off, v` at an 8-bit byte offset (R23). -/
inductive Access where
  | rd (width : Width) (off : BitVec 8)
  | wr (width : Width) (off : BitVec 8) (v : Word)
deriving DecidableEq, Repr

/-- The registers of the register map (R25). -/
inductive Reg where
  | cmd
  | cfg
  | status
  | recLen
  | recType
  | recCrc
  | recFlags
  | recCount
  | recStartLo
  | recStartHi
  | cursorLo
  | cursorHi
  | curLen
  | curType
  | errPosLo
  | errPosHi
deriving DecidableEq, Repr

/-- The named fields of the registers, as a host branch reads them (R27, R28, R30, R82, R94). -/
inductive Field where
  | busy
  | sigOk
  | done
  | err
  | term
  | phase
  | errcode
  | eofResid
  | textEn
  | valid
  | terminal
  | textType
  | textEmitted
  | op
  | rsv
deriving DecidableEq, Repr

/-- The condition of a host branch: `EQ` or `NE` (R94). -/
inductive Cond where
  | eq
  | ne
deriving DecidableEq, Repr

/-- A statement of an assembled host program (R94): host variables are numbered and labels are
places in the program. -/
inductive HostOp where
  | rd (var : Nat) (off : BitVec 8)
  | wr (off : BitVec 8) (v : Word)
  | branch (c : Cond) (var : Nat) (f : Field) (imm : Word) (target : Nat)
  | jump (target : Nat)
  | halt
deriving DecidableEq, Repr

/-- A symbolic statement of a host program: the statements of R94 and the pseudo-instructions of
R95. -/
inductive Stmt where
  | sigchk
  | next
  | wr (r : Reg) (imm : Word)
  | rd (var : String) (r : Reg)
  | branch (c : Cond) (var : String) (f : Field) (imm : Word) (label : String)
  | jump (label : String)
  | halt
  | textOn
  | textOff
  | wait
  | decodeAll
deriving DecidableEq, Repr

/-- One line's content: a label, or a statement (R94). -/
inductive Line where
  | label (name : String)
  | stmt (st : Stmt)
deriving DecidableEq, Repr

end Sys2Proof.Machine
end

