-- ==== Sys2Proof/Machine/State.lean ====
section
/-! DEFINITION. The machine's state as plain data (R31 to R38, R44), what can happen to it from
outside (R14, R20 to R23), the reasons a step can stop, and the state after reset. -/

namespace Sys2Proof.Machine

/-- The phases of the sequencer (R32). -/
inductive Phase where
  | idle
  | sig
  | ready
  | len
  | type
  | skip
  | text
  | crc
  | done
  | error
deriving DecidableEq, Repr

/-- The termination reason `s.term` (R28, R134). -/
inductive Term where
  | none
  | iend
  | cleanEof
deriving DecidableEq, Repr

/-- The error codes of R161. -/
inductive ErrCode where
  | none
  | sigShort
  | sigMismatch
  | truncLen
  | truncType
  | truncPayload
  | truncCrc
  | cmdIllegal
  | cmdSeq
  | cmdBusy
deriving DecidableEq, Repr

/-- The events of the output trace (R45). -/
inductive Event where
  /-- `SIGOK`: the signature validates. -/
  | sigOk
  /-- `TXT(b)`: the text sink accepts byte `b`. -/
  | txt (b : Byte)
  /-- `REC(len, type, crc, flags)`: a record completes. -/
  | record (len : Word) (type : TypeBytes) (crc : Word) (flags : Word)
  /-- `END(term)`: termination. -/
  | ended (term : Term)
  /-- `FAULT(code, pos)`: a fault is raised. -/
  | fault (code : ErrCode) (pos : Position)
deriving DecidableEq, Repr

/-- One thing that happens next: the turn of one of the agents of R14, the engine's micro-step
being taken when the source or the sink lets it (R143). -/
inductive Input where
  /-- The host makes this bus access (R81). -/
  | access (a : Access)
  /-- The host executes the next statement of its program (R94). -/
  | hostRun
  /-- The stream source answers for `s.cursor` (R21). `k` is the size drawn for a skip (R66, R126);
  no other micro-step reads it. -/
  | source (k : Nat)
  /-- The text sink accepts (R22). -/
  | sink
  /-- `rst` is asserted and released (R190), with the stream `bytes` attached and `IN[pos]` to be
  offered next (R191). -/
  | reset (bytes : List Byte) (pos : Nat)
  /-- Outside reset, the stream source turns out to hold `bytes` (R62). -/
  | streamIs (bytes : List Byte)
deriving DecidableEq, Repr

/-- A byte-addressed memory: addresses and bytes, in the canonical form `Memory.wf`. It holds the
input stream `IN` (R60). -/
abbrev Memory := List Host.Cell

/-- The host as an agent (R14, R80): its program, its place in it, its variables and the word the
bus returned last. -/
structure HostState where
  /-- The assembled host program (R94). -/
  prog : List HostOp
  /-- The place of the next statement. -/
  pc : Nat
  /-- The host variables that have been read into: numbers strictly rising. -/
  vars : List (Nat × Word)
  /-- `bus_rdata`: the word the last `RD` returned (R20, R81). -/
  rdata : Word
deriving DecidableEq, Repr

/-- Everything the spec gives the machine. -/
structure State where
  /-- The parameters of R6; no step changes them (R193). -/
  params : Config.Params
  /-- `IN[0 .. N-1]`, read-only (R60 to R62). -/
  stream : Memory
  /-- `s.phase` (R31, R32). -/
  phase : Phase
  /-- `s.idx`: the byte index within the current field (R31). -/
  idx : BitVec 3
  /-- `s.cursor` (R35). -/
  cursor : Position
  /-- `s.acc`: the byte accumulator (R38). -/
  acc : Word
  /-- `s.rem`: payload bytes still to be skipped or materialised (R38). -/
  rem : Word
  /-- `s.cur_len`, register `CUR_LEN` (R36). -/
  curLen : Word
  /-- `s.cur_type`, register `CUR_TYPE` (R36). -/
  curType : Word
  /-- `s.text_req`: `CFG.TEXT_EN` sampled at NEXT acceptance (R38). -/
  textReq : Bool
  /-- `s.sig_ok` (R38). -/
  sigOk : Bool
  /-- `s.sig_bad`: a signature byte read so far has differed (R38). -/
  sigBad : Bool
  /-- `s.term` (R38). -/
  term : Term
  /-- `s.errcode` (R38). -/
  errcode : ErrCode
  /-- `s.eof_resid`: the number of partial length bytes (R38). -/
  eofResid : BitVec 2
  /-- `s.err_pos`, registers `ERR_POS_LO/HI` (R37). -/
  errPos : Position
  /-- `s.rec_start`: the start of the record in progress (R34). -/
  recStart : Position
  /-- `s.rec_start_last`, registers `REC_START_LO/HI` (R34). -/
  recStartLast : Position
  /-- `s.count`, register `REC_COUNT` (R33). -/
  count : Word
  /-- `s.pend_txt`: a text byte read but not yet accepted by the sink (R38). -/
  pendTxt : Option Byte
  /-- `REC_LEN` (R29). -/
  recLen : Word
  /-- `REC_TYPE` (R29). -/
  recType : Word
  /-- `REC_CRC` (R29). -/
  recCrc : Word
  /-- `REC_FLAGS` (R30). -/
  recFlags : Word
  /-- `CFG` (R27). -/
  cfg : Word
  /-- The output trace, oldest event first (R45). -/
  trace : List Event
  /-- The host agent (R14, R80). -/
  host : HostState
  /-- What happens next, in order: the interleaving of the agents (R74, R143). -/
  inputs : List Input
deriving DecidableEq, Repr

/-- Reasons for a step to stop with a fault. There are none: an engine fault is not a stop but a
next state in phase ERROR (R166), from which the host can still read and reset (R168), and a source
or sink that never answers leaves the engine holding, which is a hang and no fault (R201, R202). -/
inductive Fault where
deriving DecidableEq, Repr

/-- Reasons for a step to be given no meaning. -/
inductive Refusal where
  /-- Raised by an arm of `exec` that has no meaning yet; no arm is left. Safe. -/
  | notModelled (mnemonic : String)
  /-- Raised by a host access that is not 32 bits wide (R64, "refuses"). Safe. -/
  | subWordAccess
  /-- Raised by a 32-bit host access at an offset that is no multiple of 4 (R64, "refuses"). Safe. -/
  | misalignedAccess
  /-- Raised by a reset with a stream attached elsewhere than at address 0 (R191,
  93_implementation_defined.md row 15, `refuse`). Safe. -/
  | streamNotAtZero
  /-- Raised when the source's bytes change outside reset (R62, 93_implementation_defined.md row 15,
  `refuse`). Safe. -/
  | streamChanged
deriving DecidableEq, Repr

/-- The host before it has done anything: no program, no variable.
DESIGN CHOICE, assumption 8: the spec gives the host no reset. -/
def HostState.initial : HostState := { prog := [], pc := 0, vars := [], rdata := 0 }

/-- The machine right after reset (R44, R190). The stream is a launch premise (R191): none of its
bytes is listed here, so `N = 0`, until one is attached (assumption 1). -/
def State.reset : State where
  params := Config.defaults
  stream := []
  phase := .idle
  idx := 0
  cursor := 0
  acc := 0
  rem := 0
  curLen := 0
  curType := 0
  textReq := false
  sigOk := false
  sigBad := false
  term := .none
  errcode := .none
  eofResid := 0
  errPos := 0
  recStart := 0
  recStartLast := 0
  count := 0
  pendTxt := none
  recLen := 0
  recType := 0
  recCrc := 0
  recFlags := 0
  cfg := 0
  trace := []
  host := HostState.initial
  inputs := []

end Sys2Proof.Machine
end

