-- ==== Sys2Proof/Machine/Ops.lean ====
section
/-! DEFINITION. The named operations over the stream and the state: reading the stream (R10, R60 to
R62), consuming bytes (R35), the trace (R45), raising a fault (R166), terminating (R134), and the
gate every command passes (R88). -/

namespace Sys2Proof.Machine

/-- The cells of consecutive addresses from `a` on. -/
def Memory.cellsFrom (a : Nat) : List Byte → Memory
  | [] => []
  | b :: bs => (a, b) :: Memory.cellsFrom (a + 1) bs

/-- The stream that holds these bytes: `IN[i]` at address `i` (R60, R71). -/
def Memory.ofBytes (bs : List Byte) : Memory := Memory.cellsFrom 0 bs

/-- The addresses are `a`, `a+1`, `a+2`, … without a gap. -/
def Memory.wfFrom (a : Nat) : Memory → Bool
  | [] => true
  | (b, _) :: rest => b == a && Memory.wfFrom (a + 1) rest

/-- The canonical form of the stream: `IN` is the bytes at addresses 0 to N-1 (R60), so addresses
rise strictly and without a gap; an address not listed has no byte (`EOF`, R10, R62), so no entry can
equal it. -/
def Memory.wf (m : Memory) : Bool := Memory.wfFrom 0 m

/-- `N`, the number of bytes of the stream (R10). -/
def Memory.size (m : Memory) : Nat := m.length

/-- The bytes of the stream in order. -/
def Memory.bytes (m : Memory) : List Byte := m.map Prod.snd

/-- `MemRead(a, 1)`: the byte `IN[a]`, or `none` for the token `EOF` (R10, R62). -/
def Memory.read : Memory → Nat → Option Byte
  | [], _ => none
  | (b, v) :: rest, a => if b = a then some v else Memory.read rest a

/-- The answer of the stream source at the cursor: `MemRead(s.cursor, 1)` (R10). -/
def State.memRead (s : State) : Option Byte := s.stream.read s.cursor.toNat

/-- The number of stream bytes from the cursor on: `N - s.cursor` (R66). -/
def State.available (s : State) : Nat := s.stream.size - s.cursor.toNat

/-- `n` stream bytes are consumed: read, or skipped (R35, R69, R70). -/
def State.advance (s : State) (n : Nat) : State :=
  { s with cursor := s.cursor + BitVec.ofNat 64 n }

/-- An event is appended to the output trace (R45). -/
def State.log (s : State) (e : Event) : State := { s with trace := s.trace ++ [e] }

/-- The busy phases (R28, R32). -/
def Phase.busy : Phase → Bool
  | .sig | .len | .type | .skip | .text | .crc => true
  | .idle | .ready | .done | .error => false

/-- `raise Fault(code)`: the one fault entry (R166). -/
def State.raise (s : State) (code : ErrCode) : State :=
  { s with
    errcode := code
    errPos := s.cursor
    phase := .error
    idx := 0
    pendTxt := none
    trace := s.trace ++ [.fault code s.cursor] }

/-- `finish(term)`: normal termination (R134). -/
def State.finish (s : State) (t : Term) : State :=
  { s with term := t, phase := .done, idx := 0, trace := s.trace ++ [.ended t] }

/-- The first two lines of R88, which every command word passes: in ERROR the write is ignored,
while BUSY it raises CMD_BUSY; otherwise `accepted` is what comes of it. -/
def State.gate (s accepted : State) : State :=
  if s.phase = .error then s
  else if s.phase.busy then s.raise .cmdBusy
  else accepted

/-- Sets a host variable, keeping the numbers strictly rising. -/
def setVar (v : Nat) (w : Word) : List (Nat × Word) → List (Nat × Word)
  | [] => [(v, w)]
  | (u, x) :: rest =>
    if v < u then (v, w) :: (u, x) :: rest
    else if v = u then (v, w) :: rest
    else (u, x) :: setVar v w rest

/-- Reads a host variable; before the first `RD` into it, its value is free (assumption 8). -/
def getVar : List (Nat × Word) → Nat → Word
  | [], v => Config.hostVarInit v
  | (u, x) :: rest, v => if u = v then x else getVar rest v

/-- The numbers of the host variables rise strictly, from at least `lo`. -/
def varsWfFrom (lo : Nat) : List (Nat × Word) → Bool
  | [] => true
  | (u, _) :: rest => decide (lo ≤ u) && varsWfFrom (u + 1) rest

/-- The canonical form of the host variables. -/
def HostState.wf (h : HostState) : Bool := varsWfFrom 0 h.vars

end Sys2Proof.Machine
end

