-- ==== Sys2Proof/Machine/Flags.lean ====
section
/-! DEFINITION. The engine's flags (R42): the word of `STATUS` (R28), the word of `REC_FLAGS` (R30,
R133), the flag of `CFG` (R27), and the fields of the registers as bit ranges. -/

namespace Sys2Proof.Machine

/-- The phase as `STATUS.PHASE` shows it (R32). -/
def Phase.code : Phase → BitVec 4
  | .idle => 0
  | .sig => 1
  | .ready => 2
  | .len => 3
  | .type => 4
  | .skip => 5
  | .text => 6
  | .crc => 7
  | .done => 8
  | .error => 9

/-- The termination reason as `STATUS.TERM` shows it (R28). -/
def Term.code : Term → BitVec 2
  | .none => 0
  | .iend => 1
  | .cleanEof => 2

/-- The error code as `STATUS.ERRCODE` shows it (R161). -/
def ErrCode.code : ErrCode → BitVec 4
  | .none => 0
  | .sigShort => 1
  | .sigMismatch => 2
  | .truncLen => 3
  | .truncType => 4
  | .truncPayload => 5
  | .truncCrc => 6
  | .cmdIllegal => 7
  | .cmdSeq => 8
  | .cmdBusy => 9

/-- The word of `STATUS`, a function of the internal state (R28); from the left: reserved [31:18],
`EOF_RESID`, `ERRCODE`, `PHASE`, reserved [7:6], `TERM`, `ERR`, `DONE`, `SIG_OK`, `BUSY`. -/
def State.statusWord (s : State) : Word :=
  (0 : BitVec 14) ++ s.eofResid ++ s.errcode.code ++ s.phase.code ++ (0 : BitVec 2) ++ s.term.code
    ++ BitVec.ofBool (s.phase == .error) ++ BitVec.ofBool (s.phase == .done)
    ++ BitVec.ofBool s.sigOk ++ BitVec.ofBool s.phase.busy

/-- The word of `REC_FLAGS` for a completed record (R30, R133); from the left: reserved [31:4],
`TEXT_EMITTED`, `TEXT_TYPE`, `TERMINAL`, `VALID`. -/
def recFlagsWord (marker : TypeBytes) (type : Word) (textReq : Bool) : Word :=
  (0 : BitVec 28) ++ BitVec.ofBool (type == marker.pack && textReq)
    ++ BitVec.ofBool (type == marker.pack) ++ BitVec.ofBool (type == iendType) ++ (1 : BitVec 1)

/-- `CFG.TEXT_EN == 1` (R27, R121). -/
def State.textEn (s : State) : Bool := s.cfg.getLsbD 0

/-- What a write leaves in `CFG`: the reserved bits [31:1] ignore it (R27, R81). -/
def cfgWritten (v : Word) : Word := v &&& 0x00000001

/-- The lowest bit of a register field (R27, R28, R30, R82). -/
def Field.low : Field → Nat
  | .busy => 0
  | .sigOk => 1
  | .done => 2
  | .err => 3
  | .term => 4
  | .phase => 8
  | .errcode => 12
  | .eofResid => 16
  | .textEn => 0
  | .valid => 0
  | .terminal => 1
  | .textType => 2
  | .textEmitted => 3
  | .op => 0
  | .rsv => 4

/-- The number of bits of a register field (R27, R28, R30, R82). -/
def Field.bits : Field → Nat
  | .busy | .sigOk | .done | .err | .textEn | .valid | .terminal | .textType | .textEmitted => 1
  | .term | .eofResid => 2
  | .phase | .errcode | .op => 4
  | .rsv => 28

/-- `v[hi:lo]`: the field read as an unsigned number (R8, R9). -/
def Field.of (f : Field) (v : Word) : Word := (v.extractLsb' f.low f.bits).setWidth 32

end Sys2Proof.Machine
end

