-- ==== Sys2Proof/Machine/ChunkDecoder.lean ====
section
/-! DEFINITION. NEXT, the chunk stream decoder (R120 to R134): its acceptance, its micro-steps and the
completion of a record. -/

namespace Sys2Proof.Machine

/-- `accept NEXT` (R121). -/
def acceptNext (s : State) : State :=
  if s.phase = .ready then
    { s with
      recStart := s.cursor
      curLen := 0
      curType := 0
      textReq := s.textEn
      acc := 0
      idx := 0
      phase := .len }
  else s.raise .cmdSeq

/-- The meaning of `NEXT` as a submitted command: the gate of R88, then acceptance (R121). The
micro-steps of R122 to R131 follow, one for each answer of the stream source or acceptance of the
text sink (R143). -/
def execNext (s : State) : Host.Outcome State Fault Refusal := .next (s.gate (acceptNext s))

/-- `micro-step LEN`: the byte case (R122) and the end-of-stream case (R123). -/
def lenStep (s : State) : State :=
  match s.memRead with
  | none =>
    let t := { s with eofResid := s.idx.setWidth 2 }
    if s.params.strictLenEof && s.idx != 0 then t.raise .truncLen else t.finish .cleanEof
  | some r =>
    let acc := shiftIn s.acc r
    let t := s.advance 1
    if s.idx = 3 then { t with curLen := acc, acc := 0, idx := 0, phase := .type }
    else { t with acc := acc, idx := s.idx + 1 }

/-- `select payload handling` (R125): an empty payload goes straight to the checksum (R130). -/
def selectPayload (s : State) : State :=
  let t := { s with rem := s.curLen }
  if s.curLen = 0 then { t with phase := .crc }
  else if s.curType == s.params.textMarker.pack && s.textReq then { t with phase := .text }
  else { t with phase := .skip }

/-- `micro-step TYPE` (R124), with the payload selection as its tail. -/
def typeStep (s : State) : State :=
  match s.memRead with
  | none => s.raise .truncType
  | some r =>
    let acc := shiftIn s.acc r
    let t := s.advance 1
    if s.idx = 3 then selectPayload { t with curType := acc, acc := 0, idx := 0 }
    else { t with acc := acc, idx := s.idx + 1 }

/-- The size of a skip: the size drawn, kept within `1 .. min(s.rem, N - s.cursor)` (R66, R126; a
seek of `k` bytes is answered with `min(k, N - c)`, R21). -/
def State.skipSize (s : State) (k : Nat) : Nat := max 1 (min k (min s.rem.toNat s.available))

/-- The payload is over when no byte remains: on to the checksum (R126, R128). -/
def afterPayload (s : State) : State :=
  if s.rem = 0 then { s with idx := 0, acc := 0, phase := .crc } else s

/-- `micro-step SKIP` (R126). With `s.rem = 0` no micro-step is enabled. -/
def skipStep (k : Nat) (s : State) : State :=
  if s.rem = 0 then s
  else if s.stream.size ≤ s.cursor.toNat then s.raise .truncPayload
  else
    afterPayload
      { s.advance (s.skipSize k) with rem := s.rem - BitVec.ofNat 32 (s.skipSize k) }

/-- `micro-step TEXT-read` (R127). It is enabled with `s.rem > 0` and no byte pending. -/
def textReadStep (s : State) : State :=
  if s.rem = 0 ∨ s.pendTxt.isSome then s
  else
    match s.memRead with
    | none => s.raise .truncPayload
    | some r => { s.advance 1 with pendTxt := some r }

/-- `micro-step TEXT-emit` (R128). It is enabled with a byte pending. -/
def textEmitStep (s : State) : State :=
  match s.pendTxt with
  | none => s
  | some b => afterPayload ({ s with pendTxt := none, rem := s.rem - 1 }.log (.txt b))

/-- `complete record with crc` (R133). -/
def completeRecord (crc : Word) (s : State) : State :=
  let flags := recFlagsWord s.params.textMarker s.curType s.textReq
  let t : State :=
    { s with
      recLen := s.curLen
      recType := s.curType
      recCrc := crc
      recFlags := flags
      count := s.count + 1
      recStartLast := s.recStart
      trace := s.trace ++ [.record s.curLen (typeBytes s.curType) crc flags]
      acc := 0
      idx := 0 }
  if s.curType = iendType then t.finish .iend else { t with phase := .ready }

/-- `micro-step CRC`: the byte case (R129) and the end-of-stream case (R131). -/
def crcStep (s : State) : State :=
  match s.memRead with
  | none => s.raise .truncCrc
  | some r =>
    let acc := shiftIn s.acc r
    let t := s.advance 1
    if s.idx = 3 then completeRecord acc { t with acc := acc }
    else { t with acc := acc, idx := s.idx + 1 }

end Sys2Proof.Machine
end

