-- ==== Sys2Proof/Machine/Signature.lean ====
section
/-! DEFINITION. SIGCHK, the signature validator (R100 to R106): its acceptance, its micro-step and
its completion. -/

namespace Sys2Proof.Machine

/-- `accept SIGCHK` (R100, R101). -/
def acceptSigchk (s : State) : State :=
  if s.phase = .idle then { s with phase := .sig, idx := 0, sigBad := false }
  else s.raise .cmdSeq

/-- The meaning of `SIGCHK` as a submitted command: the gate of R88, then acceptance (R101). The
micro-steps of R102 follow, one for each answer of the stream source (R143). -/
def execSigchk (s : State) : Host.Outcome State Fault Refusal := .next (s.gate (acceptSigchk s))

/-- `complete SIGCHK` (R103). -/
def completeSigchk (s : State) : State :=
  if s.sigBad then s.raise .sigMismatch
  else ({ s with sigOk := true, phase := .ready, idx := 0 } : State).log .sigOk

/-- `micro-step SIG` (R102). All 8 bytes are read even after one has differed. -/
def sigStep (s : State) : State :=
  match s.memRead with
  | none => s.raise .sigShort
  | some r =>
    let t := { s.advance 1 with sigBad := s.sigBad || r != sigByte s.idx }
    if s.idx = 7 then completeSigchk t else { t with idx := s.idx + 1 }

end Sys2Proof.Machine
end

