-- ==== Sys2Proof/Machine/Dispatch.lean ====
section
/-! DEFINITION. The meaning of every command, one arm per constructor of Instr. -/

namespace Sys2Proof.Machine

def exec (i : Instr) (s : State) : Host.Outcome State Fault Refusal :=
  match i with
  | .sigchk => Sys2Proof.Machine.execSigchk s
  | .next => Sys2Proof.Machine.execNext s

end Sys2Proof.Machine
end

