-- ==== Sys2Proof/WellFormed.lean ====
section
/-! DEFINITION. When a term is well formed: the commands, the command word's reserved field (R82),
a host access (R64) and the attachment of a stream at reset (R191). -/

namespace Sys2Proof

/-- Every command is well formed: it has no operand to check (R82, R83). -/
def Instr.wf : Instr → Bool
  | .sigchk => true
  | .next => true

namespace WellFormed

/-- The reserved field `RSV = w[31:4]` of a command word is zero (R82). -/
def rsvZero (w : Word) : Bool := w.extractLsb 31 4 == 0

/-- The field `OP = w[3:0]` of a command word is one of the two opcodes (R84). -/
def opDefined (w : Word) : Bool := w.extractLsb 3 0 == 1 || w.extractLsb 3 0 == 2

/-- A command word is legal: both checks hold (R85, R88). -/
def commandWord (w : Word) : Bool := rsvZero w && opDefined w

/-- A stream is attached with its first byte `IN[0]` next (R191). -/
def launchPosition (pos : Nat) : Bool := pos == 0

end WellFormed

namespace Machine

/-- The width of a host access. -/
def Access.width : Access → Width
  | .rd width _ => width
  | .wr width _ _ => width

/-- The byte offset of a host access. -/
def Access.offset : Access → BitVec 8
  | .rd _ off => off
  | .wr _ off _ => off

/-- A host access is a 32-bit access (R64). -/
def Access.wordWide (a : Access) : Bool := a.width == .word

/-- A host access is at an offset that is a multiple of 4 (R64); with 8 bits that is
`0x00..0xFC`. -/
def Access.aligned (a : Access) : Bool := a.offset.toNat % 4 == 0

/-- A host access is admitted (R64). -/
def Access.wf (a : Access) : Bool := a.wordWide && a.aligned

end Machine

end Sys2Proof
end

