-- ==== Sys2Proof/Machine/HostBus.lean ====
section
/-! DEFINITION. The host bus (R23, R64, R81): the register map (R25), reads, writes, and the
submission of a command word (R88). -/

namespace Sys2Proof.Machine

/-- The offset of a register (R25). -/
def Reg.offset : Reg → BitVec 8
  | .cmd => 0x00
  | .cfg => 0x04
  | .status => 0x08
  | .recLen => 0x0C
  | .recType => 0x10
  | .recCrc => 0x14
  | .recFlags => 0x18
  | .recCount => 0x1C
  | .recStartLo => 0x20
  | .recStartHi => 0x24
  | .cursorLo => 0x28
  | .cursorHi => 0x2C
  | .curLen => 0x30
  | .curType => 0x34
  | .errPosLo => 0x38
  | .errPosHi => 0x3C

/-- All registers, in the order of the register map (R25). -/
def Reg.all : List Reg :=
  [.cmd, .cfg, .status, .recLen, .recType, .recCrc, .recFlags, .recCount, .recStartLo, .recStartHi,
    .cursorLo, .cursorHi, .curLen, .curType, .errPosLo, .errPosHi]

/-- The register at an offset; none at the reserved offsets (R25). -/
def regAt (off : BitVec 8) : Option Reg := Reg.all.find? (fun r => r.offset == off)

/-- What a register reads as (R25 to R37); `CMD` is write-only and reads 0 (R26). -/
def State.readReg (s : State) : Reg → Word
  | .cmd => 0
  | .cfg => s.cfg
  | .status => s.statusWord
  | .recLen => s.recLen
  | .recType => s.recType
  | .recCrc => s.recCrc
  | .recFlags => s.recFlags
  | .recCount => s.count
  | .recStartLo => lowHalf s.recStartLast
  | .recStartHi => highHalf s.recStartLast
  | .cursorLo => lowHalf s.cursor
  | .cursorHi => highHalf s.cursor
  | .curLen => s.curLen
  | .curType => s.curType
  | .errPosLo => lowHalf s.errPos
  | .errPosHi => highHalf s.errPos

/-- What an offset reads as; a reserved offset reads 0 (R25). -/
def State.readOffset (s : State) (off : BitVec 8) : Word :=
  match regAt off with
  | some r => s.readReg r
  | none => 0

/-- A command word is submitted (R88): a legal word is its command, whose meaning passes the gate
itself, and an illegal word that passes the gate raises CMD_ILLEGAL (R85). -/
def submit (w : Word) (s : State) : Host.Outcome State Fault Refusal :=
  match decode w with
  | .ok i => exec i s
  | .error _ => .next (s.gate (s.raise .cmdIllegal))

/-- A write to an offset (R81): `CMD` submits, `CFG` is written, every other offset ignores it. -/
def writeOffset (off : BitVec 8) (v : Word) (s : State) : Host.Outcome State Fault Refusal :=
  match regAt off with
  | some .cmd => submit v s
  | some .cfg => .next { s with cfg := cfgWritten v }
  | some .status | some .recLen | some .recType | some .recCrc | some .recFlags | some .recCount
  | some .recStartLo | some .recStartHi | some .cursorLo | some .cursorHi | some .curLen
  | some .curType | some .errPosLo | some .errPosHi | none => .next s

/-- An admitted access (R81). A read returns the register and changes nothing else (R69). -/
def admittedAccess (a : Access) (s : State) : Host.Outcome State Fault Refusal :=
  match a with
  | .rd _ off => .next { s with host := { s.host with rdata := s.readOffset off } }
  | .wr _ off v => writeOffset off v s

/-- One host bus access (R23); an access outside R64 is refused. -/
def access (a : Access) (s : State) : Host.Outcome State Fault Refusal :=
  if a.wordWide = false then .refused .subWordAccess
  else if a.aligned = false then .refused .misalignedAccess
  else admittedAccess a s

end Sys2Proof.Machine
end

