-- ==== Sys2Proof/Machine/HostProgram.lean ====
section
/-! DEFINITION. The host as an agent that runs a program (R80, R94): one statement at a time, seen by
the engine only through its bus accesses. -/

namespace Sys2Proof.Machine

/-- The host goes on at statement `pc`. -/
def State.hostAt (s : State) (pc : Nat) : State := { s with host := { s.host with pc := pc } }

/-- The word the bus returned is stored in a host variable. -/
def State.hostStore (s : State) (var : Nat) : State :=
  { s with host := { s.host with vars := setVar var s.host.rdata s.host.vars } }

/-- The condition of a host branch: `var.field` against the immediate (R94). -/
def Cond.holds (c : Cond) (field imm : Word) : Bool :=
  match c with
  | .eq => field == imm
  | .ne => field != imm

/-- What follows an access of the host's program, if the access is given a meaning. -/
def thenHost (f : State → State) :
    Host.Outcome State Fault Refusal → Host.Outcome State Fault Refusal
  | .next t => .next (f t)
  | .fault r => .fault r
  | .refused r => .refused r

/-- One statement of the host program (R94). `HALT` ends the program: the host stays there. -/
def hostOp (op : HostOp) (s : State) : Host.Outcome State Fault Refusal :=
  match op with
  | .rd var off =>
    thenHost (fun t => (t.hostStore var).hostAt (s.host.pc + 1)) (access (.rd .word off) s)
  | .wr off v => thenHost (fun t => t.hostAt (s.host.pc + 1)) (access (.wr .word off v) s)
  | .branch c var f imm target =>
    .next (s.hostAt
      (if c.holds (f.of (getVar s.host.vars var)) imm then target else s.host.pc + 1))
  | .jump target => .next (s.hostAt target)
  | .halt => .next s

/-- The host executes the statement it is at; past the last one it has nothing to do (R171). -/
def hostStep (s : State) : Host.Outcome State Fault Refusal :=
  match s.host.prog[s.host.pc]? with
  | some op => hostOp op s
  | none => .next s

end Sys2Proof.Machine
end

