-- ==== Sys2Proof/Machine/Sequencer.lean ====
section
/-! DEFINITION. The sequencer: which micro-step an answer of the stream source or an acceptance of
the text sink enables (R143), and what the engine drives on its ports meanwhile (R20 to R22). -/

namespace Sys2Proof.Machine

/-- The engine waits for the stream source: a micro-step of SIG, LEN, TYPE, CRC, SKIP or TEXT-read is
the next one (R143). It is `in_ready` (R20). -/
def State.awaitsSource (s : State) : Bool :=
  match s.phase with
  | .sig | .len | .type | .crc => true
  | .skip => s.rem != 0
  | .text => s.rem != 0 && s.pendTxt.isNone
  | .idle | .ready | .done | .error => false

/-- The byte offered on the text port, if one is: `txt_valid` and `txt_data` (R20, R22). -/
def State.textOffered (s : State) : Option Byte :=
  match s.phase with
  | .text => s.pendTxt
  | .idle | .sig | .ready | .len | .type | .skip | .crc | .done | .error => none

/-- The most bytes a seek request may ask for, if one may be made: `in_skip` and `in_skip_n`
(R20, R21). -/
def State.seekOffered (s : State) : Option Word :=
  match s.phase with
  | .skip => if s.rem = 0 then none else some s.rem
  | .idle | .sig | .ready | .len | .type | .text | .crc | .done | .error => none

/-- The stream source answers for `s.cursor` (R21, R143); `k` is the size drawn for a skip. Where no
micro-step awaits the source, its answer is not taken and nothing changes. -/
def sourceStep (k : Nat) (s : State) : State :=
  match s.phase with
  | .sig => sigStep s
  | .len => lenStep s
  | .type => typeStep s
  | .skip => skipStep k s
  | .text => textReadStep s
  | .crc => crcStep s
  | .idle | .ready | .done | .error => s

/-- The text sink accepts (R22, R143). Where no byte is offered nothing changes. -/
def sinkStep (s : State) : State :=
  match s.phase with
  | .text => textEmitStep s
  | .idle | .sig | .ready | .len | .type | .skip | .crc | .done | .error => s

end Sys2Proof.Machine
end

