-- ==== Sys2Proof/Machine/Environment.lean ====
section
/-! DEFINITION. What each turn of an agent does (R14, R143): the host's accesses, the answers of the
stream source, the acceptances of the text sink, and reset (R190, R191). -/

namespace Sys2Proof.Machine

/-- Reset with a stream attached at address 0 (R190, R191). The parameters are not reset (R193), the
host and what happens next are outside the engine. -/
def State.afterReset (s : State) (bytes : List Byte) : State :=
  { State.reset with
    params := s.params
    stream := Memory.ofBytes bytes
    host := s.host
    inputs := s.inputs }

/-- `rst` (R190); a stream attached elsewhere than at address 0 is outside the launch premise (R191). -/
def resetInput (bytes : List Byte) (pos : Nat) (s : State) : Host.Outcome State Fault Refusal :=
  if WellFormed.launchPosition pos then .next (s.afterReset bytes) else .refused .streamNotAtZero

/-- The source's bytes and length are fixed from reset to reset (R62). -/
def streamInput (bytes : List Byte) (s : State) : Host.Outcome State Fault Refusal :=
  if Memory.ofBytes bytes = s.stream then .next s else .refused .streamChanged

/-- One turn. -/
def takeInput (i : Input) (s : State) : Host.Outcome State Fault Refusal :=
  match i with
  | .access a => access a s
  | .hostRun => hostStep s
  | .source k => .next (sourceStep k s)
  | .sink => .next (sinkStep s)
  | .reset bytes pos => resetInput bytes pos s
  | .streamIs bytes => streamInput bytes s

/-- The host writes this word to `CMD` (R81). -/
def commandInput (w : Word) : Input := .access (.wr .word Reg.cmd.offset w)

end Sys2Proof.Machine
end

