-- ==== Sys2Proof/Machine/Step.lean ====
section
/-! DEFINITION. One step of the machine, and the placing of a command word where the next step finds
it. -/

namespace Sys2Proof.Machine

/-- One step: what happens next is taken from the front of `inputs` and happens. When nothing
happens the engine holds (R143, R201, R202). -/
def step (s : State) : Host.Outcome State Fault Refusal :=
  match s.inputs with
  | [] => .next s
  | i :: rest => takeInput i { s with inputs := rest }

/-- The engine fetches no code (R41, R77): its next command is the data of the host's next write to
`CMD`. That write is placed in front of everything else that happens next. -/
def State.withFetchWord (s : State) (nbits w : Nat) : State :=
  { s with inputs := commandInput (BitVec.ofNat 32 (w % 2 ^ nbits)) :: s.inputs }

end Sys2Proof.Machine
end

