-- ==== Sys2Proof/Machine/Assembler.lean ====
section
/-! DEFINITION. The host assembler: the statements and pseudo-instructions of host programs and what
they expand to (R94 to R96), and the reading of program text (R94). -/

namespace Sys2Proof.Machine

/-- How many statements a symbolic statement expands to (R95). -/
def Stmt.size : Stmt → Nat
  | .wait => 2
  | .decodeAll => 6
  | .sigchk | .next | .wr _ _ | .rd _ _ | .branch _ _ _ _ _ | .jump _ | .halt | .textOn
  | .textOff => 1

/-- How many statements a line expands to; a label takes none. -/
def Line.size : Line → Nat
  | .label _ => 0
  | .stmt st => st.size

/-- The labels with their places, the first line's being `at_` (R94). -/
def labelsFrom (at_ : Nat) : List Line → List (String × Nat)
  | [] => []
  | .label n :: rest => (n, at_) :: labelsFrom at_ rest
  | .stmt st :: rest => labelsFrom (at_ + st.size) rest

/-- The host variable a statement names; `WAIT` and `DECODE_ALL` use the variable `t` (R95). -/
def Line.var : Line → Option String
  | .stmt (.rd v _) => some v
  | .stmt (.branch _ v _ _ _) => some v
  | .stmt .wait => some "t"
  | .stmt .decodeAll => some "t"
  | .stmt .sigchk | .stmt .next | .stmt (.wr _ _) | .stmt (.jump _) | .stmt .halt | .stmt .textOn
  | .stmt .textOff | .label _ => none

/-- The variables of a program, each once; a variable's number is its place here. -/
def varNames (p : List Line) : List String := (p.filterMap Line.var).eraseDups

/-- The value of a label; none when the program has it not exactly once. -/
def lookupLabel (labels : List (String × Nat)) (n : String) : Option Nat :=
  match labels.filter (fun l => l.1 == n) with
  | [(_, a)] => some a
  | _ => none

/-- The number of a variable. -/
def varNumber (vars : List String) (n : String) : Nat := vars.findIdx (· == n)

/-- `WAIT` at place `b` with `t` the number of its variable (R95). -/
def waitOps (b t : Nat) : List HostOp :=
  [.rd t Reg.status.offset, .branch .ne t .busy 0 b]

/-- `DECODE_ALL` at place `b` (R95): `L1` is `b`, `L2` is `b + 6`. -/
def decodeAllOps (b t : Nat) : List HostOp :=
  [.wr Reg.cmd.offset 0x00000002] ++ waitOps (b + 1) t ++
    [.rd t Reg.status.offset, .branch .ne t .err 0 (b + 6), .branch .eq t .done 0 b]

/-- The statements a symbolic statement at place `b` stands for (R94, R95). -/
def expand (labels : List (String × Nat)) (vars : List String) (b : Nat) :
    Stmt → Option (List HostOp)
  | .sigchk => some [.wr Reg.cmd.offset 0x00000001]
  | .next => some [.wr Reg.cmd.offset 0x00000002]
  | .wr r imm => some [.wr r.offset imm]
  | .rd v r => some [.rd (varNumber vars v) r.offset]
  | .branch c v f imm l =>
    (lookupLabel labels l).map (fun a => [.branch c (varNumber vars v) f imm a])
  | .jump l => (lookupLabel labels l).map (fun a => [.jump a])
  | .halt => some [.halt]
  | .textOn => some [.wr Reg.cfg.offset 0x00000001]
  | .textOff => some [.wr Reg.cfg.offset 0x00000000]
  | .wait => some (waitOps b (varNumber vars "t"))
  | .decodeAll => some (decodeAllOps b (varNumber vars "t"))

/-- The second pass of the assembler. -/
def assembleFrom (labels : List (String × Nat)) (vars : List String) (b : Nat) :
    List Line → Option (List HostOp)
  | [] => some []
  | .label n :: rest =>
    (lookupLabel labels n).bind (fun _ => assembleFrom labels vars b rest)
  | .stmt st :: rest =>
    (expand labels vars b st).bind (fun ops =>
      (assembleFrom labels vars (b + st.size) rest).map (ops ++ ·))

/-- A symbolic program assembled; none when a label is missing or given twice. -/
def assemble (p : List Line) : Option (List HostOp) :=
  assembleFrom (labelsFrom 0 p) (varNames p) 0 p

/-- The name of a register in program text (R25, R94). -/
def Reg.name : Reg → String
  | .cmd => "CMD"
  | .cfg => "CFG"
  | .status => "STATUS"
  | .recLen => "REC_LEN"
  | .recType => "REC_TYPE"
  | .recCrc => "REC_CRC"
  | .recFlags => "REC_FLAGS"
  | .recCount => "REC_COUNT"
  | .recStartLo => "REC_START_LO"
  | .recStartHi => "REC_START_HI"
  | .cursorLo => "CURSOR_LO"
  | .cursorHi => "CURSOR_HI"
  | .curLen => "CUR_LEN"
  | .curType => "CUR_TYPE"
  | .errPosLo => "ERR_POS_LO"
  | .errPosHi => "ERR_POS_HI"

/-- The fields with their names in program text (R27, R28, R30, R82). -/
def fieldNames : List (String × Field) :=
  [("BUSY", .busy), ("SIG_OK", .sigOk), ("DONE", .done), ("ERR", .err), ("TERM", .term),
    ("PHASE", .phase), ("ERRCODE", .errcode), ("EOF_RESID", .eofResid), ("TEXT_EN", .textEn),
    ("VALID", .valid), ("TERMINAL", .terminal), ("TEXT_TYPE", .textType),
    ("TEXT_EMITTED", .textEmitted), ("OP", .op), ("RSV", .rsv)]

/-- The register a name stands for. -/
def regNamed (n : String) : Option Reg := Reg.all.find? (fun r => r.name == n)

/-- The field a name stands for. -/
def fieldNamed (n : String) : Option Field := fieldNames.lookup n

/-- The characters of the digits, each at the place of its value (R8). -/
def digitChars : List Char := "0123456789ABCDEF".toList

/-- The number some digits stand for in a base, most significant first (R8); none unless each of them
is a digit of that base. Small letters are read as capitals. -/
def digits (base : Nat) (text : List Char) : Option Nat :=
  let values := text.map (fun c => digitChars.idxOf c.toUpper)
  if values.all (· < base) then some (values.foldl (base * · + ·) 0) else none

/-- A number in program text: hexadecimal after `0x` (R8), decimal otherwise. -/
def number : List Char → Option Nat
  | [] => none
  | '0' :: 'x' :: c :: cs => digits 16 (c :: cs)
  | c :: cs => digits 10 (c :: cs)

/-- A 32-bit immediate in program text (R94). -/
def imm32 (t : List Char) : Option Word :=
  (number t).bind (fun n => if n < 2 ^ 32 then some (BitVec.ofNat 32 n) else none)

/-- Splits text at every character that `sep` picks. -/
def splitAt_ (sep : Char → Bool) : List Char → List (List Char)
  | [] => [[]]
  | c :: cs =>
    match splitAt_ sep cs with
    | [] => [[c]]
    | w :: ws => if sep c then [] :: w :: ws else (c :: w) :: ws

/-- The words of a line: what stands before a `;`, parted by blanks and commas (R94). -/
def words (line : List Char) : List (List Char) :=
  (splitAt_ (fun c => c == ' ' || c == ',' || c == '\t') (line.takeWhile (· != ';'))).filter
    (fun w => w != [])

/-- `var.FIELD` in program text (R94). -/
def varField (t : List Char) : Option (String × Field) :=
  match splitAt_ (· == '.') t with
  | [v, f] => (fieldNamed (String.ofList f)).map (fun g => (String.ofList v, g))
  | _ => none

/-- A host branch in program text (R94). -/
def branchStmt (c : Cond) (vf imm label : List Char) : Option Stmt :=
  (varField vf).bind (fun p => (imm32 imm).map (fun i => .branch c p.1 p.2 i (String.ofList label)))

/-- A statement in program text (R94, R95). -/
def parseStmt (ws : List (List Char)) : Option Stmt :=
  match ws.map String.ofList, ws with
  | ["SIGCHK"], _ => some .sigchk
  | ["NEXT"], _ => some .next
  | ["HALT"], _ => some .halt
  | ["TEXTON"], _ => some .textOn
  | ["TEXTOFF"], _ => some .textOff
  | ["WAIT"], _ => some .wait
  | ["DECODE_ALL"], _ => some .decodeAll
  | ["B", l], _ => some (.jump l)
  | ["WR", r, _], [_, _, i] => (regNamed r).bind (fun r => (imm32 i).map (.wr r))
  | ["RD", v, r], _ => (regNamed r).map (.rd v)
  | ["BEQ", _, _, _], [_, vf, i, l] => branchStmt .eq vf i l
  | ["BNE", _, _, _], [_, vf, i, l] => branchStmt .ne vf i l
  | _, _ => none

/-- The labels a line begins with, each `name:`, and the words after them (R94). -/
def takeLabels : List (List Char) → List Line × List (List Char)
  | [] => ([], [])
  | w :: ws =>
    if w.getLast? = some ':' then
      ((Line.label (String.ofList w.dropLast)) :: (takeLabels ws).1, (takeLabels ws).2)
    else ([], w :: ws)

/-- One line of program text (R94). -/
def parseLine (line : List Char) : Option (List Line) :=
  match takeLabels (words line) with
  | (ls, []) => some ls
  | (ls, ws) => (parseStmt ws).map (fun st => ls ++ [.stmt st])

/-- The lines of a program, each read. -/
def parseLines : List (List Char) → Option (List Line)
  | [] => some []
  | l :: rest => (parseLine l).bind (fun a => (parseLines rest).map (a ++ ·))

/-- Program text read and assembled (R94, R95). -/
def assembleText (text : String) : Option (List HostOp) :=
  (parseLines (splitAt_ (· == '\n') text.toList)).bind assemble

end Sys2Proof.Machine
end

