-- ==== Sys2Proof/Machine/NextFunction.lean ====
section
/-! DEFINITION. NEXT as one pure function (R135) and the state it writes by outcome (R136). The
machine runs the micro-steps; this is what a claim holds them against (R144). -/

namespace Sys2Proof.Machine

/-- `IN[a]`, for an address below `N`. -/
def Memory.byteAt (m : Memory) (a : Nat) : Byte := (m.read a).getD 0

/-- `be32(IN[a], IN[a+1], IN[a+2], IN[a+3])` (R11). -/
def Memory.be32At (m : Memory) (a : Nat) : Word :=
  be32 (m.byteAt a) (m.byteAt (a + 1)) (m.byteAt (a + 2)) (m.byteAt (a + 3))

/-- `IN[a .. min(a+n, N)-1]`. -/
def Memory.slice (m : Memory) (a n : Nat) : List Byte := (m.bytes.drop a).take n

/-- What NEXT comes to (R135). -/
inductive NextResult where
  /-- `End(CLEAN_EOF)`: the stream ends inside the length field. -/
  | cleanEnd (cursor resid : Nat)
  /-- `Fault(TRUNC_LEN)`. -/
  | truncLen (cursor resid : Nat)
  /-- `Fault(TRUNC_TYPE)`. -/
  | truncType (cursor : Nat) (len : Word)
  /-- `Fault(TRUNC_PAYLOAD)`. -/
  | truncPayload (cursor : Nat) (len type : Word) (text : List Byte)
  /-- `Fault(TRUNC_CRC)`. -/
  | truncCrc (cursor : Nat) (len type : Word) (text : List Byte)
  /-- `Record`; `terminal` when the type is `IEND`. -/
  | record (cursor : Nat) (len type crc flags : Word) (text : List Byte) (terminal : Bool)
deriving DecidableEq, Repr

/-- `decodeNext` (R135), with unbounded arithmetic. -/
def decodeNext (p : Config.Params) (m : Memory) (c : Nat) (t : Bool) : NextResult :=
  let n := m.size
  let a := n - c
  if a < 4 then
    if p.strictLenEof && decide (0 < a) then .truncLen n a else .cleanEnd n a
  else
    let len := m.be32At c
    if a < 8 then .truncType n len
    else
      let type := m.be32At (c + 4)
      let textual := type == p.textMarker.pack && t
      let text := if textual then m.slice (c + 8) len.toNat else []
      if a < 8 + len.toNat then .truncPayload n len type text
      else if a < 12 + len.toNat then .truncCrc n len type text
      else
        .record (c + 12 + len.toNat) len type (m.be32At (c + 8 + len.toNat))
          (recFlagsWord p.textMarker type t) text (type == iendType)

/-- What acceptance writes and every outcome keeps (R121). -/
def State.started (s : State) (len type : Word) (text : List Byte) (cursor : Nat) : State :=
  { s with
    recStart := s.cursor
    textReq := s.textEn
    curLen := len
    curType := type
    cursor := BitVec.ofNat 64 cursor
    trace := s.trace ++ text.map Event.txt }

/-- The state NEXT leaves, by outcome (R136), from the state at acceptance. -/
def NextResult.apply (s : State) : NextResult → State
  | .cleanEnd cursor resid =>
    { s.started 0 0 [] cursor with eofResid := BitVec.ofNat 2 resid }.finish .cleanEof
  | .truncLen cursor resid =>
    { s.started 0 0 [] cursor with eofResid := BitVec.ofNat 2 resid }.raise .truncLen
  | .truncType cursor len => (s.started len 0 [] cursor).raise .truncType
  | .truncPayload cursor len type text => (s.started len type text cursor).raise .truncPayload
  | .truncCrc cursor len type text => (s.started len type text cursor).raise .truncCrc
  | .record cursor len type crc flags text terminal =>
    let t : State :=
      { s.started len type text cursor with
        recLen := len
        recType := type
        recCrc := crc
        recFlags := flags
        count := s.count + 1
        recStartLast := s.cursor }
    let u := t.log (.record len (typeBytes type) crc flags)
    if terminal then u.finish .iend else { u with phase := .ready, idx := 0 }

/-- The state NEXT leaves when it is accepted in `s` and not disturbed (R135, R136). -/
def nextResult (s : State) : State :=
  (decodeNext s.params s.stream s.cursor.toNat s.textEn).apply s

/-- A state without the working registers that nothing can read outside a busy phase (R43): the
accumulator, the payload count and the mismatch mark. -/
def State.settled (s : State) : State := { s with acc := 0, rem := 0, sigBad := false }

end Sys2Proof.Machine
end

