-- ==== Sys2Proof/Safety.lean ====
section
/-! DEFINITION. What counts as a good run, in the terms claims use: how a run ends (R160, R171), the
invariant of the engine's state, the accounting of the cursor (R139), the agreement of the trace
with the registers (R45), fair service (R202), and streams built from records (R87, R141). -/

namespace Sys2Proof.Machine

/-! ### Runs -/

/-- `k` steps, stopping at the first refusal. -/
def runSteps : Nat → State → Host.Outcome State Fault Refusal
  | 0, s => .next s
  | k + 1, s =>
    match step s with
    | .next t => runSteps k t
    | .fault r => .fault r
    | .refused r => .refused r

/-- The faulted state (R171). -/
def State.faulted (s : State) : Bool := s.phase == .error

/-- DONE and ERROR: the engine reads nothing until reset (R171). -/
def State.quiescent (s : State) : Bool := s.phase == .done || s.phase == .error

/-- An event that records a fault. -/
def Event.isFault : Event → Bool
  | .fault _ _ => true
  | .sigOk | .txt _ | .record _ _ _ _ | .ended _ => false

/-- "The stream decodes": the run is at DONE with no fault recorded (R171). -/
def State.decoded (s : State) : Bool := s.phase == .done && s.trace.all (fun e => !e.isFault)

/-- The host's exit status of a run that has ended: DONE gives 0 and ERROR gives 1 (R196, D21). -/
def State.hostExitStatus (s : State) : Option Nat :=
  match s.phase with
  | .done => some 0
  | .error => some 1
  | .idle | .sig | .ready | .len | .type | .skip | .text | .crc => none

/-- The input is a reset. -/
def Input.isReset : Input → Bool
  | .reset _ _ => true
  | .access _ | .hostRun | .source _ | .sink | .streamIs _ => false

/-- The next thing that happens is a reset. -/
def State.resetNext (s : State) : Bool := (s.inputs.head?.map Input.isReset).getD false

/-- The next thing that happens is an answer of the stream source. -/
def State.sourceNext (s : State) : Bool :=
  match s.inputs.head? with
  | some (.source _) => true
  | _ => false

/-- The input is an answer of the stream source or an acceptance of the text sink. -/
def Input.serves : Input → Bool
  | .source _ | .sink => true
  | .access _ | .hostRun | .reset _ _ | .streamIs _ => false

/-- The input is an answer of the stream source. -/
def Input.isSource : Input → Bool
  | .source _ => true
  | .access _ | .hostRun | .sink | .reset _ _ | .streamIs _ => false

/-- The input is an acceptance of the text sink. -/
def Input.isSink : Input → Bool
  | .sink => true
  | .access _ | .hostRun | .source _ | .reset _ _ | .streamIs _ => false

/-- The access is admitted (R64) and submits no command: a read, or a write to another register than
`CMD` (R69). -/
def Access.quiet (a : Access) : Bool :=
  a.wf &&
    match a with
    | .rd _ _ => true
    | .wr _ off _ => off != Reg.cmd.offset

/-- The statement's access, if it makes one, is quiet. -/
def HostOp.quiet : HostOp → Bool
  | .rd _ off => (Access.rd .word off).quiet
  | .wr off v => (Access.wr .word off v).quiet
  | .branch _ _ _ _ _ | .jump _ | .halt => true

/-- The input serves the engine, or is a quiet access. -/
def Input.quiet : Input → Bool
  | .source _ | .sink => true
  | .access a => a.quiet
  | .hostRun | .reset _ _ | .streamIs _ => false

/-- What happens next is quiet; a statement of the host's program is the one the host is at. -/
def State.quietNext (s : State) : Bool :=
  match s.inputs.head? with
  | none => true
  | some .hostRun => (s.host.prog[s.host.pc]?.map HostOp.quiet).getD true
  | some i => i.quiet

/-- In the next `k` steps the host reads, writes `CFG` and computes as it likes, but submits no
command, and there is no reset (R74, R144). -/
def undisturbed : Nat → State → Bool
  | 0, _ => true
  | k + 1, s =>
    s.quietNext &&
      match step s with
      | .next t => undisturbed k t
      | .fault _ => false
      | .refused _ => false

/-- A round of fair service: the source and the sink each at least once (R202), and quiet accesses of
the host in between (R74). -/
def fairRound (r : List Input) : Bool := r.all Input.quiet && r.any Input.isSource && r.any Input.isSink

/-- The engine's own state and ports: `s` without the host, without the configuration register,
which a host write changes at any time (R27), and without what happens next. -/
def State.engine (s : State) : State :=
  { s with cfg := 0, host := HostState.initial, inputs := [] }

/-! ### The invariant -/

/-- What each phase says of the sequencer's place and of the cursor (R31, R101, R103, R121 to R134).
Equalities of positions are modulo 2^64 (R70). -/
def State.placeOk (s : State) : Prop :=
  match s.phase with
  | .idle => s.idx = 0 ∧ s.cursor = 0 ∧ s.sigOk = false
  | .sig => s.cursor = s.idx.setWidth 64 ∧ s.sigOk = false
  | .ready => s.idx = 0 ∧ s.sigOk = true
  | .len =>
    s.idx.toNat ≤ 3 ∧ s.sigOk = true ∧ s.curLen = 0 ∧ s.curType = 0 ∧
      s.cursor = s.recStart + s.idx.setWidth 64
  | .type =>
    s.idx.toNat ≤ 3 ∧ s.sigOk = true ∧ s.curType = 0 ∧
      s.cursor = s.recStart + 4 + s.idx.setWidth 64
  | .skip =>
    s.idx = 0 ∧ s.sigOk = true ∧ s.rem ≠ 0 ∧
      ¬ (s.curType = s.params.textMarker.pack ∧ s.textReq = true) ∧
      s.cursor + s.rem.setWidth 64 = s.recStart + 8 + s.curLen.setWidth 64
  | .text =>
    s.idx = 0 ∧ s.sigOk = true ∧ s.rem ≠ 0 ∧
      s.curType = s.params.textMarker.pack ∧ s.textReq = true ∧
      s.cursor + s.rem.setWidth 64 =
        s.recStart + 8 + s.curLen.setWidth 64 + (if s.pendTxt.isSome then 1 else 0)
  | .crc =>
    s.idx.toNat ≤ 3 ∧ s.sigOk = true ∧
      s.cursor = s.recStart + 8 + s.curLen.setWidth 64 + s.idx.setWidth 64
  | .done => s.idx = 0 ∧ s.sigOk = true ∧ s.term ≠ .none
  | .error => s.idx = 0

/-- The invariant every step keeps. -/
structure State.Inv (s : State) : Prop where
  /-- The stream is in canonical form (R60). -/
  streamWf : s.stream.wf = true
  /-- The cursor only ever advances over bytes that exist (R135). -/
  cursorLe : s.cursor.toNat ≤ s.stream.size
  /-- The phase agrees with the place and the cursor. -/
  place : s.placeOk
  /-- The reserved bits of `CFG` read 0 (R27). -/
  cfgReserved : s.cfg &&& 0xFFFFFFFE = 0
  /-- The reserved bits of `REC_FLAGS` read 0 (R30). -/
  recFlagsReserved : s.recFlags &&& 0xFFFFFFF0 = 0
  /-- A termination reason is present only after termination (R134). -/
  termPlace : s.term ≠ .none → s.phase = .done ∨ s.phase = .error
  /-- Partial length bytes are recorded only at an end of stream (R123). -/
  residPlace : s.eofResid ≠ 0 → s.phase = .done ∨ s.phase = .error
  /-- An error code is present exactly in ERROR (R161, R166). -/
  errPlace : s.errcode ≠ .none ↔ s.phase = .error
  /-- `ERR_POS` is written only when a fault is raised (R37). -/
  errPosPlace : s.phase ≠ .error → s.errPos = 0
  /-- A pending text byte is the stream byte just read, in TEXT (R127). -/
  pending : ∀ b, s.pendTxt = some b →
    s.phase = .text ∧ s.stream.read (s.cursor - 1).toNat = some b
  /-- The host variables are in canonical form. -/
  hostWf : s.host.wf = true

/-- Premises of R135: the engine's invariant, and a stream short enough for the cursor not to wrap
(R70). -/
structure State.Sound (s : State) : Prop where
  inv : s.Inv
  short : s.stream.size < 2 ^ 64

/-! ### The cursor's accounting (R139) -/

/-- The bytes of the records on a trace: the sum of `12 + L`, modulo 2^64. -/
def recordBytes : List Event → Position
  | [] => 0
  | .record len _ _ _ :: rest => 12 + len.setWidth 64 + recordBytes rest
  | .sigOk :: rest | .txt _ :: rest | .ended _ :: rest | .fault _ _ :: rest => recordBytes rest

/-- The cursor is the 8 bytes of the signature and the bytes of the completed records (R139); while
a record is in progress, so is the place where it starts; at a clean end the partial length bytes
come on top (R123). -/
def State.accounted (s : State) : Prop :=
  match s.phase with
  | .idle | .sig => recordBytes s.trace = 0
  | .ready => s.cursor = 8 + recordBytes s.trace
  | .len | .type | .skip | .text | .crc => s.recStart = 8 + recordBytes s.trace
  | .done =>
    (s.term = .iend → s.cursor = 8 + recordBytes s.trace) ∧
      (s.term = .cleanEof → s.cursor = 8 + recordBytes s.trace + s.eofResid.setWidth 64)
  | .error => True

/-! ### The trace (R45) -/

/-- The `REC` events of a trace: length, type, checksum and flags. -/
def recordsOf : List Event → List (Word × TypeBytes × Word × Word)
  | [] => []
  | .record len type crc flags :: rest => (len, type, crc, flags) :: recordsOf rest
  | .sigOk :: rest | .txt _ :: rest | .ended _ :: rest | .fault _ _ :: rest => recordsOf rest

/-- The bytes of the `TXT` events of a trace. -/
def textOf : List Event → List Byte
  | [] => []
  | .txt b :: rest => b :: textOf rest
  | .sigOk :: rest | .record _ _ _ _ :: rest | .ended _ :: rest | .fault _ _ :: rest => textOf rest

/-- The registers are what the trace says (R45). -/
structure State.TraceAgrees (s : State) : Prop where
  /-- `REC_COUNT` counts the `REC` events (R33). -/
  count : s.count = BitVec.ofNat 32 (recordsOf s.trace).length
  /-- The record registers hold the last `REC` event (R29, R30). -/
  last : match (recordsOf s.trace).getLast? with
    | some (len, type, crc, flags) =>
      s.recLen = len ∧ typeBytes s.recType = type ∧ s.recCrc = crc ∧ s.recFlags = flags
    | none => s.recLen = 0 ∧ s.recType = 0 ∧ s.recCrc = 0 ∧ s.recFlags = 0
  /-- `SIG_OK` is set exactly when `SIGOK` is on the trace (R42). -/
  sigOk : s.sigOk = true ↔ Event.sigOk ∈ s.trace
  /-- `TERM` names the `END` event (R134). -/
  term : ∀ t, Event.ended t ∈ s.trace ↔ s.term = t ∧ t ≠ .none
  /-- In ERROR the last event is the one fault, with `ERRCODE` and `ERR_POS`; elsewhere there is no
  fault on the trace (R166, R169). -/
  fault : if s.phase = .error then
      ∃ before, s.trace = before ++ [.fault s.errcode s.errPos] ∧ ∀ e ∈ before, e.isFault = false
    else ∀ e ∈ s.trace, e.isFault = false

/-! ### Streams built from records (R87, R141) -/

/-- A record to be put on a stream: type, payload and checksum; its length is the payload's. -/
structure WireRecord where
  type : TypeBytes
  payload : List Byte
  crc : Word
deriving DecidableEq, Repr

/-- The payload's length fits the length field (R90). -/
def WireRecord.wf (r : WireRecord) : Bool := decide (r.payload.length < 2 ^ 32)

/-- `length`. -/
def WireRecord.length (r : WireRecord) : Word := BitVec.ofNat 32 r.payload.length

/-- The record's bytes: `[length:u32 BE][type:4 bytes][payload:length bytes][checksum:u32 BE]`
(R87). -/
def WireRecord.encode (r : WireRecord) : List Byte :=
  be32Bytes r.length ++ be32Bytes r.type.pack ++ r.payload ++ be32Bytes r.crc

/-- The signature followed by the records (R71, R141). -/
def wireStream (rs : List WireRecord) : List Byte := signature ++ rs.flatMap WireRecord.encode

/-- The record's type is `IEND`. -/
def WireRecord.terminal (r : WireRecord) : Bool := r.type == Config.iend

end Sys2Proof.Machine
end

