-- ==== Sys2Proof/Certificates/Slice0/Obligations.lean ====
section
/-! DEFINITION. The statements for the provers. Positions are compared modulo 2^64 unless a
statement takes `toNat`; `State.Sound` is the invariant together with a stream below 2^64 bytes
(R70). -/

open Sys2Proof Sys2Proof.Machine

/-! ### Encodings -/

/-- Words written out from R82, R84 and R96 decode to the commands they stand for; the reserved
ones are rejected by name (R85). -/
def Obligations.CommandWordsDecode : Prop :=
  decode (0b00000000000000000000000000000001 : Word) = .ok .sigchk ∧
  decode (0b00000000000000000000000000000010 : Word) = .ok .next ∧
  decode (0b00000000000000000000000000010010 : Word) = .error .reservedBits ∧
  decode (0b10000000000000000000000000000001 : Word) = .error .reservedBits ∧
  decode (0b00000000000000000000000000000000 : Word) = .error .reservedOpcode ∧
  decode (0b00000000000000000000000000000011 : Word) = .error .reservedOpcode ∧
  decode (0b00000000000000000000000000001111 : Word) = .error .reservedOpcode

/-- R84 and R85: which of the 2^32 words are commands, that every command is decoded from its
encoding, and that an illegal word which is accepted raises CMD_ILLEGAL. -/
def Obligations.OnlyTwoWordsAreCommands : Prop :=
  ∀ w : Word,
    (decode w = .ok .sigchk ↔ w &&& 0xFFFFFFFF = 0x00000001) ∧
    (decode w = .ok .next ↔ w &&& 0xFFFFFFFF = 0x00000002) ∧
    (∀ i, decode w = .ok i ↔ w = encode i) ∧
    ((∃ e, decode w = .error e) ↔
      w.extractLsb 31 4 ≠ 0 ∨ (w.extractLsb 3 0 ≠ 0x1 ∧ w.extractLsb 3 0 ≠ 0x2)) ∧
    ∀ s : State, (∃ e, decode w = .error e) → s.phase ≠ .error → s.phase.busy = false →
      submit w s = .next (s.raise .cmdIllegal)

/-- R11: the byte met first is the most significant, and four bytes shifted into an empty
accumulator are the field they spell (R122, R129). -/
def Obligations.BigEndianAssembly : Prop :=
  ∀ b0 b1 b2 b3 : Byte,
    (be32 b0 b1 b2 b3).toNat =
      b0.toNat * 2 ^ 24 + b1.toNat * 2 ^ 16 + b2.toNat * 2 ^ 8 + b3.toNat ∧
    shiftIn (shiftIn (shiftIn (shiftIn 0 b0) b1) b2) b3 = be32 b0 b1 b2 b3

/-- R86: how the type bytes are packed, that unpacking gives them back, that types are equal exactly
when their packed values are, and the rule's two examples. -/
def Obligations.TypePacking : Prop :=
  (∀ t : TypeBytes,
    t.pack = t.t0 ++ t.t1 ++ t.t2 ++ t.t3 ∧
    t.pack.toNat = t.t0.toNat * 2 ^ 24 + t.t1.toNat * 2 ^ 16 + t.t2.toNat * 2 ^ 8 + t.t3.toNat ∧
    t.pack = be32 t.t0 t.t1 t.t2 t.t3 ∧ typeBytes t.pack = t) ∧
  (∀ t u : TypeBytes, t = u ↔ t.pack = u.pack) ∧
  Config.iend.pack = 0x49454E44 ∧ (TypeBytes.mk 0x49 0x48 0x44 0x52).pack = 0x49484452

/-- R87: a record put on a stream at any address, with anything before and after it, is decoded to
its own length, type and checksum, and the next record starts right after it. -/
def Obligations.WireRecordRoundTrip : Prop :=
  ∀ (p : Config.Params) (r : WireRecord) (before after : List Byte) (text : Bool),
    r.wf = true →
    decodeNext p (Memory.ofBytes (before ++ r.encode ++ after)) before.length text =
      .record (before.length + 12 + r.payload.length) r.length r.type.pack r.crc
        (recFlagsWord p.textMarker r.type.pack text)
        (if r.type = p.textMarker ∧ text = true then r.payload else []) r.terminal

/-! ### Commands -/

/-- R88: a write to `CMD` is handled by the first matching line. -/
def Obligations.CommandWriteFirstMatchingLine : Prop :=
  ∀ (s : State) (w : Word) (rest : List Input), s.inputs = commandInput w :: rest →
    let e := { s with inputs := rest }
    step s = .next
      (if e.phase = .error then e
       else if Field.busy.of e.statusWord = 1 then e.raise .cmdBusy
       else if w.extractLsb 31 4 ≠ 0 ∨ ¬ (w.extractLsb 3 0 = 0x1 ∨ w.extractLsb 3 0 = 0x2) then
         e.raise .cmdIllegal
       else if w.extractLsb 3 0 = 0x1 then acceptSigchk e
       else acceptNext e)

/-- A step runs the decoded command: when the host writes a command's word to `CMD`, as a bus access
or as a statement of its program, the step is that command's `exec` (R81, R88, R94). The last clause is
the model's choice (assumption 7): a word placed by `withFetchWord` is run by the very next step. -/
def Obligations.StepRunsDecodedCommand : Prop :=
  ∀ (s : State) (w : Word) (i : Instr), decode w = .ok i →
    (∀ rest, s.inputs = commandInput w :: rest → step s = exec i { s with inputs := rest }) ∧
    (∀ rest, s.inputs = .hostRun :: rest → s.host.prog[s.host.pc]? = some (.wr 0x00 w) →
      step s = thenHost (fun t => t.hostAt (s.host.pc + 1)) (exec i { s with inputs := rest })) ∧
    step (s.withFetchWord 32 w.toNat) = exec i s

/-- R101 with R88: what `SIGCHK` does at its acceptance in every phase; everything the record updates
do not name is unchanged. -/
def Obligations.SigchkAcceptance : Prop :=
  ∀ s : State,
    (s.phase = .idle →
      exec .sigchk s = .next { s with phase := .sig, idx := 0, sigBad := false }) ∧
    (s.phase = .ready ∨ s.phase = .done →
      exec .sigchk s = .next
        { s with errcode := .cmdSeq, errPos := s.cursor, phase := .error, idx := 0,
                 pendTxt := none, trace := s.trace ++ [.fault .cmdSeq s.cursor] }) ∧
    (s.phase.busy = true →
      exec .sigchk s = .next
        { s with errcode := .cmdBusy, errPos := s.cursor, phase := .error, idx := 0,
                 pendTxt := none, trace := s.trace ++ [.fault .cmdBusy s.cursor] }) ∧
    (s.phase = .error → exec .sigchk s = .next s)

/-- R121: what `NEXT` does at its acceptance in READY, in IDLE and DONE; and READY implies that the
signature has been validated. -/
def Obligations.NextAcceptance : Prop :=
  ∀ s : State,
    (s.phase = .ready →
      exec .next s = .next
        { s with recStart := s.cursor, curLen := 0, curType := 0,
                 textReq := decide (s.cfg.extractLsb 0 0 = 1), acc := 0, idx := 0,
                 phase := .len }) ∧
    (s.phase = .idle ∨ s.phase = .done →
      exec .next s = .next
        { s with errcode := .cmdSeq, errPos := s.cursor, phase := .error, idx := 0,
                 pendTxt := none, trace := s.trace ++ [.fault .cmdSeq s.cursor] }) ∧
    (s.Inv → s.phase = .ready → s.sigOk = true)

/-- SIGCHK completes (R100, R103): on a stream that starts with the signature, the command is
accepted and 8 answers of the source, whatever skip sizes they draw, bring the engine to READY with
`SIG_OK` set and the cursor at 8, and nothing else changed. -/
def Obligations.SigchkCompletes : Prop :=
  ∀ (s : State) (ks : List Nat), s.Sound → s.phase = .idle → 8 ≤ s.stream.size →
    s.stream.bytes.take 8 = signature → ks.length = 8 →
    ∃ t, exec .sigchk s = .next t ∧
      runSteps 8 { t with inputs := ks.map .source } = .next
        { s with phase := .ready, idx := 0, sigBad := false, sigOk := true, cursor := 8,
                 trace := s.trace ++ [.sigOk], inputs := [] }

/-- R104 and R105 (and the net result of R100): however the source and the sink pace it, and whatever
the host reads and writes to `CFG` meanwhile (R74), when the engine is no longer busy after SIGCHK,
the result is the one the stream's first 8 bytes decide. -/
def Obligations.SigchkOutcome : Prop :=
  ∀ (s u t : State) (xs : List Input), s.Sound → s.phase = .idle →
    step { s with inputs := commandInput 0x00000001 :: xs } = .next u →
    undisturbed xs.length u = true → runSteps xs.length u = .next t → t.phase.busy = false →
    t.inputs = [] ∧ (xs.all Input.serves = true → t.cfg = s.cfg ∧ t.host = s.host) ∧
    (s.stream.size < 8 →
      t.settled.engine = ({ s with
        errcode := .sigShort, errPos := BitVec.ofNat 64 s.stream.size, phase := .error, idx := 0,
        cursor := BitVec.ofNat 64 s.stream.size, pendTxt := none, inputs := [],
        trace := s.trace ++ [.fault .sigShort (BitVec.ofNat 64 s.stream.size)] } :
        State).settled.engine) ∧
    (8 ≤ s.stream.size → s.stream.bytes.take 8 ≠ signature →
      t.settled.engine = ({ s with
        errcode := .sigMismatch, errPos := 8, phase := .error, idx := 0, cursor := 8,
        pendTxt := none, inputs := [],
        trace := s.trace ++ [.fault .sigMismatch 8] } : State).settled.engine) ∧
    (8 ≤ s.stream.size → s.stream.bytes.take 8 = signature →
      t.settled.engine = ({ s with
        sigOk := true, phase := .ready, idx := 0, cursor := 8, inputs := [],
        trace := s.trace ++ [.sigOk] } : State).settled.engine ∧ t.statusWord = 0x00000202)

/-- NEXT completes (R120, R133, R134): from READY on a stream that holds a whole record at the
cursor, the command is accepted, and some service of the source and the sink completes the record,
with every register the rules give and everything else unchanged. -/
def Obligations.NextCompletesRecord : Prop :=
  ∀ s : State, s.Sound → s.phase = .ready →
    let c := s.cursor.toNat
    let len := s.stream.be32At c
    let type := s.stream.be32At (c + 4)
    12 + len.toNat ≤ s.available →
    let crc := s.stream.be32At (c + 8 + len.toNat)
    let textual := type = s.params.textMarker.pack ∧ s.cfg.extractLsb 0 0 = 1
    let flags := recFlagsWord s.params.textMarker type s.textEn
    let text := if textual then s.stream.slice (c + 8) len.toNat else []
    ∃ t, exec .next s = .next t ∧
      ∃ xs : List Input, xs.all Input.serves = true ∧
        ∃ u, runSteps xs.length { t with inputs := xs } = .next u ∧
          u.settled = ({ s with
            phase := if type = iendType then .done else .ready
            term := if type = iendType then .iend else s.term
            cursor := s.cursor + 12 + len.setWidth 64
            curLen := len, curType := type
            recLen := len, recType := type, recCrc := crc, recFlags := flags
            count := s.count + 1
            recStart := s.cursor, recStartLast := s.cursor
            textReq := s.textEn
            trace := s.trace ++ text.map Event.txt ++ [.record len (typeBytes type) crc flags] ++
              (if type = iendType then [.ended .iend] else [])
            inputs := [] } : State).settled

/-- NEXT as a pure function (R135, R136, R144): however the source and the sink pace it, whatever
sizes the skips draw, and whatever the host reads and writes to `CFG` meanwhile (R74), when the
engine is no longer busy after NEXT, its state is the one `decodeNext` gives. -/
def Obligations.NextOutcomeIsDecodeNext : Prop :=
  ∀ (s u t : State) (xs : List Input), s.Sound → s.phase = .ready →
    step { s with inputs := commandInput 0x00000002 :: xs } = .next u →
    undisturbed xs.length u = true → runSteps xs.length u = .next t → t.phase.busy = false →
    t.inputs = [] ∧ (xs.all Input.serves = true → t.cfg = s.cfg ∧ t.host = s.host) ∧
    t.settled.engine = (nextResult s).settled.engine

/-- Fair service ends a command (R202): enough rounds, each with an answer of the source and an
acceptance of the sink, whatever the host reads and writes to `CFG` in between, leave the engine not
busy. -/
def Obligations.FairServiceEndsCommand : Prop :=
  ∀ (s : State) (rounds : List (List Input)), s.Sound → s.phase.busy = true →
    rounds.all fairRound = true → 2 * s.available + 2 ≤ rounds.length →
    ∃ t, runSteps rounds.flatten.length { s with inputs := rounds.flatten } = .next t ∧
      t.phase.busy = false

/-- R140 and R141: a stream built from a list of records, of which none before the last is `IEND`, is
decoded by SIGCHK and NEXT, each followed by enough fair service, to the same list of types, lengths
and checksums, one record a NEXT; the engine is READY until the NEXT that meets `IEND` or the end of
the stream, and DONE after it. -/
def Obligations.RecordListRoundTrip : Prop :=
  ∀ (rs : List WireRecord) (p : Config.Params) (cfg : Word)
    (first : List (List Input)) (others : List (List (List Input))),
    (∀ r ∈ rs, r.wf = true) → (∀ r ∈ rs.dropLast, r.terminal = false) →
    (wireStream rs).length < 2 ^ 64 →
    (∀ b ∈ first :: others, b.all fairRound = true ∧ 2 * (wireStream rs).length + 2 ≤ b.length) →
    let n := if (rs.getLast?.map WireRecord.terminal).getD false then rs.length else rs.length + 1
    others.length ≤ n →
    let xs := commandInput 0x00000001 :: first.flatten ++
      others.flatMap (fun b => commandInput 0x00000002 :: b.flatten)
    ∃ t, runSteps xs.length
        { State.reset with params := p, stream := Memory.ofBytes (wireStream rs),
                           cfg := cfgWritten cfg, inputs := xs } = .next t ∧
      (recordsOf t.trace).map (fun e => (e.2.1, e.1, e.2.2.1)) =
        (rs.take others.length).map (fun r => (r.type, r.length, r.crc)) ∧
      t.phase = (if others.length = n then .done else .ready) ∧
      ∀ e ∈ t.trace, e.isFault = false

/-! ### Faults, termination and reset -/

/-- R166: a step that raises a fault saves the code and the position, enters ERROR, and changes
nothing else but what the micro-step consumed: at a stream fault nothing (the cursor is `N`), at
SIG_MISMATCH the 8th signature byte; `EOF_RESID` is written only with TRUNC_LEN. -/
def Obligations.FaultEntry : Prop :=
  ∀ s t : State, s.Inv → step s = .next t → s.phase ≠ .error → t.phase = .error →
    t.errcode ≠ .none ∧ t.errPos = t.cursor ∧ t.idx = 0 ∧ t.pendTxt = none ∧
    t.trace = s.trace ++ [.fault t.errcode t.cursor] ∧
    (t.errcode ≠ .sigMismatch → t.cursor = s.cursor) ∧
    (t.errcode = .sigMismatch → s.cursor = 7 ∧ t.cursor = 8) ∧
    (t.errcode ≠ .sigMismatch → t.errcode ≠ .cmdIllegal → t.errcode ≠ .cmdSeq →
      t.errcode ≠ .cmdBusy → t.cursor.toNat = s.stream.size) ∧
    (t.errcode ≠ .truncLen → t.eofResid = s.eofResid) ∧
    (t.errcode = .truncLen → t.eofResid = s.idx.setWidth 2) ∧
    t.count = s.count ∧ t.sigOk = s.sigOk ∧ t.term = s.term ∧
    t.curLen = s.curLen ∧ t.curType = s.curType ∧ t.cfg = s.cfg ∧
    t.recLen = s.recLen ∧ t.recType = s.recType ∧ t.recCrc = s.recCrc ∧
    t.recFlags = s.recFlags ∧ t.recStartLast = s.recStartLast ∧ t.recStart = s.recStart ∧
    t.textReq = s.textReq ∧ t.acc = s.acc ∧ t.rem = s.rem ∧
    t.params = s.params ∧ ∀ a, t.stream.read a = s.stream.read a

/-- R168 and R169: in ERROR no micro-step is enabled, every `CMD` write is ignored and a `CFG` write is
accepted: a step that is no reset changes only the host's side and, by a write, `CFG`; a reset leaves
ERROR. -/
def Obligations.ErrorIsSticky : Prop :=
  ∀ s t : State, s.phase = .error → step s = .next t →
    s.awaitsSource = false ∧ s.textOffered = none ∧
    (∀ w, submit w s = .next s) ∧
    (∀ v, access (.wr .word 0x04 v) s = .next { s with cfg := v &&& 0x00000001 }) ∧
    (s.resetNext = false →
      t.engine = s.engine ∧ (t.cfg = s.cfg ∨ ∃ v, t.cfg = cfgWritten v)) ∧
    (s.resetNext = true → t.phase = .idle)

/-- DONE is final (R134, R171): a step that is no reset reads no byte and changes no register but
`CFG`, or it is a `CMD` write that raises CMD_SEQ or CMD_ILLEGAL; a NEXT raises CMD_SEQ. -/
def Obligations.DoneIsFinal : Prop :=
  ∀ s : State, s.phase = .done →
    exec .next s = .next (s.raise .cmdSeq) ∧
    ∀ t, step s = .next t → s.resetNext = false →
      t.engine = s.engine ∨ t.engine = (s.raise .cmdSeq).engine ∨
        t.engine = (s.raise .cmdIllegal).engine

/-- R163: an end of stream in the length field is the clean end, or TRUNC_LEN in strict mode after 1
to 3 bytes; in TYPE, SKIP, TEXT and CRC it always raises the field's TRUNC fault; in SIG it raises
SIG_SHORT (R102). -/
def Obligations.EndOfStreamByPhase : Prop :=
  ∀ s t : State, s.Inv → step s = .next t → s.sourceNext = true → s.memRead = none →
    (s.phase = .len → (s.params.strictLenEof = false ∨ s.idx = 0) →
      t.phase = .done ∧ t.term = .cleanEof ∧ t.errcode = .none ∧
        t.eofResid.toNat = s.idx.toNat) ∧
    (s.phase = .len → s.params.strictLenEof = true → s.idx ≠ 0 →
      t.phase = .error ∧ t.errcode = .truncLen ∧ t.eofResid.toNat = s.idx.toNat) ∧
    (s.phase = .sig → t.phase = .error ∧ t.errcode = .sigShort) ∧
    (s.phase = .type → t.phase = .error ∧ t.errcode = .truncType) ∧
    (s.phase = .skip → t.phase = .error ∧ t.errcode = .truncPayload) ∧
    (s.phase = .text → s.pendTxt = none → t.phase = .error ∧ t.errcode = .truncPayload) ∧
    (s.phase = .crc → t.phase = .error ∧ t.errcode = .truncCrc)

/-- R165: a `CMD` write while BUSY aborts the command where it stands: only the fault state changes
and the pending text byte is discarded; and a CMD_SEQ or CMD_ILLEGAL raised in IDLE, READY or DONE
changes only the fault state. -/
def Obligations.CommandFaultsKeepTheRest : Prop :=
  ∀ (s : State) (w : Word),
    (s.phase.busy = true →
      submit w s = .next
        { s with errcode := .cmdBusy, errPos := s.cursor, phase := .error, idx := 0,
                 pendTxt := none, trace := s.trace ++ [.fault .cmdBusy s.cursor] }) ∧
    (∀ t, s.Inv → (s.phase = .idle ∨ s.phase = .ready ∨ s.phase = .done) → submit w s = .next t →
      t.phase = .error →
      (t.errcode = .cmdSeq ∨ t.errcode = .cmdIllegal) ∧
        t = { s with errcode := t.errcode, errPos := s.cursor, phase := .error,
                     trace := s.trace ++ [.fault t.errcode s.cursor] })

/-- R44 and R190: reset with a stream attached at address 0, from any phase, leaves every piece of the
engine's state at its reset value, `STATUS` and the trace among them; and there is no other way out
of DONE and ERROR. That the host and what happens next stay, and that a reset carries the attached
bytes, is the model's choice (assumption 5). -/
def Obligations.ResetFromAnyState : Prop :=
  (∀ (s : State) (bytes : List Byte) (rest : List Input), s.inputs = .reset bytes 0 :: rest →
    ∃ t, step s = .next t ∧ t.phase = .idle ∧ t.idx = 0 ∧ t.cursor = 0 ∧ t.acc = 0 ∧ t.rem = 0 ∧
      t.curLen = 0 ∧ t.curType = 0 ∧ t.textReq = false ∧ t.sigOk = false ∧ t.sigBad = false ∧
      t.term = .none ∧ t.errcode = .none ∧ t.eofResid = 0 ∧ t.errPos = 0 ∧ t.recStart = 0 ∧
      t.recStartLast = 0 ∧ t.count = 0 ∧ t.pendTxt = none ∧ t.recLen = 0 ∧ t.recType = 0 ∧
      t.recCrc = 0 ∧ t.recFlags = 0 ∧ t.cfg = 0 ∧ t.trace = [] ∧ t.statusWord = 0x00000000 ∧
      t.params = s.params ∧ t.host = s.host ∧ t.inputs = rest ∧ ∀ a, t.stream.read a = bytes[a]?) ∧
  (∀ s t : State, (s.phase = .done ∨ s.phase = .error) → step s = .next t → s.resetNext = false →
    t.phase = .done ∨ t.phase = .error)

/-- A run that is at DONE has decoded its stream: no fault is on its trace (R171). -/
def Obligations.DoneMeansNoFaultRecorded : Prop :=
  ∀ s : State, s.TraceAgrees → (s.decoded = true ↔ s.phase = .done)

/-! ### Invariants -/

/-- Every step keeps the invariant. -/
def Obligations.StepKeepsInv : Prop :=
  ∀ s t : State, s.Inv → step s = .next t → t.Inv

/-- The state after reset has the invariant, with whatever parameters, stream and host. -/
def Obligations.ResetHasInv : Prop :=
  State.reset.Inv ∧
  ∀ (s : State) (bytes : List Byte), s.host.wf = true →
    (s.afterReset bytes).Inv ∧ (s.afterReset bytes).accounted ∧ (s.afterReset bytes).TraceAgrees

/-- R139: the cursor is the 8 signature bytes and `12 + L` for every completed record: it holds after
reset and every step keeps it. -/
def Obligations.CursorAccounting : Prop :=
  State.reset.accounted ∧
  ∀ s t : State, s.Inv → s.accounted → step s = .next t → t.accounted

/-- The registers are what the trace says (R45): every step keeps it. -/
def Obligations.StepKeepsTraceAgreement : Prop :=
  State.reset.TraceAgrees ∧
  ∀ s t : State, s.Inv → s.TraceAgrees → step s = .next t → t.TraceAgrees

/-- The record invariant (R70, R145): when a record completes, the cursor is `12 + L` past the place
where its length field was read. -/
def Obligations.RecordAdvancesTwelvePlusLength : Prop :=
  ∀ s t : State, s.Inv → step s = .next t → s.sourceNext = true → s.phase = .crc → s.idx = 3 →
    s.memRead ≠ none →
    t.recStartLast = s.recStart ∧ t.recLen = s.curLen ∧
      t.cursor = t.recStartLast + 12 + t.recLen.setWidth 64

/-! ### Registers -/

/-- R28 and R32: every field of `STATUS` as a function of the internal state; the reserved bits
read 0. -/
def Obligations.StatusFields : Prop :=
  ∀ s : State,
    (s.statusWord.extractLsb 0 0 = 1 ↔
      s.phase = .sig ∨ s.phase = .len ∨ s.phase = .type ∨ s.phase = .skip ∨ s.phase = .text ∨
        s.phase = .crc) ∧
    (s.statusWord.extractLsb 1 1 = 1 ↔ s.sigOk = true) ∧
    (s.statusWord.extractLsb 2 2 = 1 ↔ s.phase = .done) ∧
    (s.statusWord.extractLsb 3 3 = 1 ↔ s.phase = .error) ∧
    s.statusWord.extractLsb 5 4 =
      (match s.term with | .none => 0 | .iend => 1 | .cleanEof => 2 : BitVec 2) ∧
    s.statusWord.extractLsb 7 6 = 0 ∧
    s.statusWord.extractLsb 11 8 =
      (match s.phase with
        | .idle => 0 | .sig => 1 | .ready => 2 | .len => 3 | .type => 4 | .skip => 5 | .text => 6
        | .crc => 7 | .done => 8 | .error => 9 : BitVec 4) ∧
    s.statusWord.extractLsb 15 12 =
      (match s.errcode with
        | .none => 0 | .sigShort => 1 | .sigMismatch => 2 | .truncLen => 3 | .truncType => 4
        | .truncPayload => 5 | .truncCrc => 6 | .cmdIllegal => 7 | .cmdSeq => 8
        | .cmdBusy => 9 : BitVec 4) ∧
    s.statusWord.extractLsb 17 16 = s.eofResid ∧
    s.statusWord.extractLsb 31 18 = 0

/-- R25: what a read of every offset returns, that it changes nothing but the bus's answer, that `CMD`
and `CFG` can be written, that a write to any other offset has no effect, and that every register
reads 0 after reset. -/
def Obligations.RegisterMap : Prop :=
  ∀ s : State,
    s.readOffset 0x00 = 0 ∧ s.readOffset 0x04 = s.cfg ∧ s.readOffset 0x08 = s.statusWord ∧
    s.readOffset 0x0C = s.recLen ∧ s.readOffset 0x10 = s.recType ∧ s.readOffset 0x14 = s.recCrc ∧
    s.readOffset 0x18 = s.recFlags ∧ s.readOffset 0x1C = s.count ∧
    s.readOffset 0x20 = s.recStartLast.extractLsb 31 0 ∧
    s.readOffset 0x24 = s.recStartLast.extractLsb 63 32 ∧
    s.readOffset 0x28 = s.cursor.extractLsb 31 0 ∧
    s.readOffset 0x2C = s.cursor.extractLsb 63 32 ∧
    s.readOffset 0x30 = s.curLen ∧ s.readOffset 0x34 = s.curType ∧
    s.readOffset 0x38 = s.errPos.extractLsb 31 0 ∧ s.readOffset 0x3C = s.errPos.extractLsb 63 32 ∧
    (∀ off : BitVec 8, 0x40 ≤ off.toNat → s.readOffset off = 0) ∧
    (∀ w, access (.wr .word 0x00 w) s = submit w s) ∧
    (∀ v, access (.wr .word 0x04 v) s = .next { s with cfg := v &&& 0x00000001 }) ∧
    (∀ off : BitVec 8, State.reset.readOffset off = 0) ∧
    ∀ off : BitVec 8, off.toNat % 4 = 0 →
      access (.rd .word off) s = .next { s with host := { s.host with rdata := s.readOffset off } } ∧
      (8 ≤ off.toNat → ∀ v, access (.wr .word off v) s = .next s)

/-- R64: exactly the accesses that are 32 bits wide and at a multiple of 4 are admitted; any other is
refused. -/
def Obligations.OtherAccessesRefused : Prop :=
  ∀ (a : Access) (s : State),
    (a.width = .word → a.offset.toNat % 4 = 0 → ∃ t, access a s = .next t) ∧
    (a.width ≠ .word → access a s = .refused .subWordAccess) ∧
    (a.width = .word → a.offset.toNat % 4 ≠ 0 → access a s = .refused .misalignedAccess)

/-- R27 and R200: a write to `CFG` takes effect at once, in every phase, and changes nothing else;
its reserved bits read 0; the text request of a record in progress is the one sampled when its NEXT
was accepted. -/
def Obligations.CfgWriteAndSampling : Prop :=
  ∀ s : State,
    (∀ v, access (.wr .word 0x04 v) s = .next { s with cfg := v &&& 0x00000001 }) ∧
    (s.Inv → (s.readOffset 0x04).extractLsb 31 1 = 0) ∧
    (∀ t, s.phase = .ready → exec .next s = .next t → (t.textReq = true ↔ s.cfg.extractLsb 0 0 = 1)) ∧
    (∀ t, step s = .next t → s.phase.busy = true → s.resetNext = false → t.textReq = s.textReq)

/-- The record registers (R29, R30, R33, R34): they change only in the micro-step that consumes the
4th checksum byte, and by reset. -/
def Obligations.RecordRegistersChangeOnlyAtCompletion : Prop :=
  ∀ s t : State, step s = .next t → s.resetNext = false →
    ¬ (s.sourceNext = true ∧ s.phase = .crc ∧ s.idx = 3 ∧ s.memRead ≠ none) →
    t.recLen = s.recLen ∧ t.recType = s.recType ∧ t.recCrc = s.recCrc ∧
      t.recFlags = s.recFlags ∧ t.count = s.count ∧ t.recStartLast = s.recStartLast ∧
      recordsOf t.trace = recordsOf s.trace

/-- R133: what the micro-step that consumes the 4th checksum byte writes. -/
def Obligations.RecordCompletion : Prop :=
  ∀ (s t : State) (r : Byte), step s = .next t → s.sourceNext = true → s.phase = .crc →
    s.idx = 3 → s.memRead = some r →
    let crc := (s.acc <<< 8) ||| r.setWidth 32
    let flags : Word :=
      0x1 ||| (if s.curType = 0x49454E44 then 0x2 else 0)
        ||| (if s.curType = s.params.textMarker.pack then 0x4 else 0)
        ||| (if s.curType = s.params.textMarker.pack ∧ s.textReq = true then 0x8 else 0)
    t = { s with
      recLen := s.curLen, recType := s.curType, recCrc := crc, recFlags := flags
      count := s.count + 1, recStartLast := s.recStart, cursor := s.cursor + 1
      acc := 0, idx := 0
      term := if s.curType = 0x49454E44 then .iend else s.term
      phase := if s.curType = 0x49454E44 then .done else .ready
      trace := s.trace ++ [.record s.curLen (typeBytes s.curType) crc flags] ++
        (if s.curType = 0x49454E44 then [.ended .iend] else [])
      inputs := s.inputs.tail }

/-- R36: `CUR_LEN` and `CUR_TYPE` are set to 0 when NEXT is accepted, loaded by the micro-step that
consumes their field's 4th byte, changed by nothing else but reset, and what their offsets read. -/
def Obligations.CurrentFieldRegisters : Prop :=
  ∀ s t : State, step s = .next t → s.resetNext = false →
    s.readOffset 0x30 = s.curLen ∧ s.readOffset 0x34 = s.curType ∧
    (s.phase = .ready → t.phase = .len → t.curLen = 0 ∧ t.curType = 0) ∧
    (∀ r, s.sourceNext = true → s.phase = .len → s.idx = 3 → s.memRead = some r →
      t.curLen = (s.acc <<< 8) ||| r.setWidth 32 ∧ t.curType = s.curType) ∧
    (∀ r, s.sourceNext = true → s.phase = .type → s.idx = 3 → s.memRead = some r →
      t.curType = (s.acc <<< 8) ||| r.setWidth 32 ∧ t.curLen = s.curLen) ∧
    (¬ (s.phase = .ready ∧ t.phase = .len) →
      ¬ (s.sourceNext = true ∧ (s.phase = .len ∨ s.phase = .type) ∧ s.idx = 3 ∧
        s.memRead ≠ none) →
      t.curLen = s.curLen ∧ t.curType = s.curType)

/-- R125: the micro-step that completes the type takes over the payload count from the length and
selects how the payload is handled. -/
def Obligations.PayloadSelection : Prop :=
  ∀ (s t : State) (r : Byte), step s = .next t → s.sourceNext = true → s.phase = .type →
    s.idx = 3 → s.memRead = some r →
    let type := (s.acc <<< 8) ||| r.setWidth 32
    t.curType = type ∧ t.rem = s.curLen ∧
      t.phase = (if s.curLen = 0 then .crc
        else if type = s.params.textMarker.pack ∧ s.textReq = true then .text else .skip)

/-- R35: how the cursor moves in every step, and what the registers show of it. -/
def Obligations.CursorMoves : Prop :=
  (∀ s : State, s.readReg .cursorLo = s.cursor.extractLsb 31 0 ∧
    s.readReg .cursorHi = s.cursor.extractLsb 63 32) ∧
  ∀ s t : State, s.Sound → step s = .next t →
    (s.resetNext = true → t.cursor = 0) ∧
    (s.resetNext = false → s.cursor.toNat ≤ t.cursor.toNat) ∧
    (s.resetNext = false → (s.sourceNext = false ∨ s.awaitsSource = false ∨ s.memRead = none) →
      t.cursor = s.cursor) ∧
    (s.sourceNext = true → s.awaitsSource = true → s.memRead ≠ none → s.phase ≠ .skip →
      t.cursor.toNat = s.cursor.toNat + 1) ∧
    (s.sourceNext = true → s.awaitsSource = true → s.memRead ≠ none → s.phase = .skip →
      ∃ k, 1 ≤ k ∧ k ≤ min s.rem.toNat s.available ∧ t.cursor.toNat = s.cursor.toNat + k ∧
        t.rem.toNat = s.rem.toNat - k)

/-! ### Stream and text -/

/-- R61 and R193: the parameters never change, and the stream's bytes never change but at a reset. -/
def Obligations.StreamAndParametersFixed : Prop :=
  ∀ s t : State, step s = .next t →
    t.params = s.params ∧ (s.resetNext = false → ∀ a, t.stream.read a = s.stream.read a)

/-- R62: the stream's bytes and length do not change until the next reset, `EOF` is answered from `N`
on and for ever after. That a source whose bytes differ outside reset is refused is
93_implementation_defined.md row 15, in the form the model chose (assumption 5). -/
def Obligations.EndOfStreamIsPermanent : Prop :=
  (∀ (m : Memory) (a b : Nat), m.wf = true → (m.read a = none ↔ m.size ≤ a) ∧
    (m.read a = none → a ≤ b → m.read b = none)) ∧
  (∀ s t : State, step s = .next t → s.resetNext = false →
    t.stream.size = s.stream.size ∧ ∀ a, t.stream.read a = s.stream.read a) ∧
  ∀ (s : State) (bytes : List Byte) (rest : List Input), s.stream.wf = true →
    s.inputs = .streamIs bytes :: rest → s.stream.bytes ≠ bytes →
    step s = .refused .streamChanged

/-- The text port carries payload only (R22, R128, R142): a step that puts a byte on the trace's text
is an acceptance of the sink in TEXT, of a textual record whose text was requested, and the byte is
the stream byte just before the cursor. -/
def Obligations.TextBytesArePayloadBytes : Prop :=
  ∀ s t : State, s.Inv → step s = .next t → s.resetNext = false →
    textOf t.trace = textOf s.trace ∨
    ∃ b, textOf t.trace = textOf s.trace ++ [b] ∧ s.inputs.head? = some .sink ∧
      s.phase = .text ∧ s.curType = s.params.textMarker.pack ∧ s.textReq = true ∧
      s.stream.read (s.cursor - 1).toNat = some b ∧ t.cursor = s.cursor ∧ t.rem = s.rem - 1

/-- R130: with an empty payload the micro-step that completes the type goes straight to the checksum,
which is read from `s.rec_start + 8`; nothing is emitted. -/
def Obligations.EmptyPayloadGoesToChecksum : Prop :=
  ∀ s t : State, s.Inv → step s = .next t → s.sourceNext = true → s.phase = .type → s.idx = 3 →
    s.memRead ≠ none → s.curLen = 0 →
    t.phase = .crc ∧ t.idx = 0 ∧ t.acc = 0 ∧ t.cursor = t.recStart + 8 ∧ t.trace = s.trace ∧
      t.pendTxt = none

/-- The engine holds while nobody answers (R143, R201, R202): a busy engine awaits the source or
offers a byte to the sink, never both; and without an answer from the one it waits for it stays busy
for ever. The form is the model's choice: an answer that nobody awaits is taken off the inputs
(assumption 10), and with no input left the step answers the same state (assumption 3). -/
def Obligations.EngineHoldsUntilAnswered : Prop :=
  ∀ s : State,
    (s.Inv → s.phase.busy = true → s.textOffered.isSome = !s.awaitsSource) ∧
    (s.phase.busy = false → s.awaitsSource = false ∧ s.textOffered = none) ∧
    (∀ ks : List Nat, s.awaitsSource = false →
      runSteps ks.length { s with inputs := ks.map .source } = .next { s with inputs := [] }) ∧
    (∀ n : Nat, s.textOffered = none →
      runSteps n { s with inputs := List.replicate n .sink } = .next { s with inputs := [] }) ∧
    ∀ n : Nat, runSteps n { s with inputs := [] } = .next { s with inputs := [] }

/-- Skipped bytes and bytes past the record do not matter (R5, R66, R71, R142): two streams of the
same length that agree on the record's length, type and checksum fields give the same result, unless
the payload is materialised. -/
def Obligations.SkippedBytesDoNotMatter : Prop :=
  ∀ (p : Config.Params) (m n : Memory) (c : Nat) (text : Bool),
    m.wf = true → n.wf = true → m.size = n.size →
    (∀ a, c ≤ a → a < c + 8 → m.read a = n.read a) →
    (∀ a, c + 8 + (m.be32At c).toNat ≤ a → a < c + 12 + (m.be32At c).toNat → m.read a = n.read a) →
    ¬ (m.be32At (c + 4) = p.textMarker.pack ∧ text = true) →
    decodeNext p m c text = decodeNext p n c text

/-! ### Frames -/

/-- The frame of both commands: whatever phase they meet, their acceptance leaves unchanged the
parameters, every byte of the stream, the cursor, the record registers and the counter, `CFG`,
`SIG_OK`, `TERM`, `EOF_RESID`, the payload count, the host and what happens next; `SIGCHK` leaves
unchanged what only `NEXT` writes. -/
def Obligations.CommandFrame : Prop :=
  ∀ (i : Instr) (s t : State), exec i s = .next t →
    (∀ a, t.stream.read a = s.stream.read a) ∧ t.params = s.params ∧ t.cursor = s.cursor ∧
    t.recLen = s.recLen ∧ t.recType = s.recType ∧ t.recCrc = s.recCrc ∧ t.recFlags = s.recFlags ∧
    t.count = s.count ∧ t.recStartLast = s.recStartLast ∧ t.cfg = s.cfg ∧ t.sigOk = s.sigOk ∧
    t.term = s.term ∧ t.eofResid = s.eofResid ∧ t.rem = s.rem ∧ t.host = s.host ∧
    t.inputs = s.inputs ∧ recordsOf t.trace = recordsOf s.trace ∧
    textOf t.trace = textOf s.trace ∧
    (i = .sigchk → t.curLen = s.curLen ∧ t.curType = s.curType ∧ t.recStart = s.recStart ∧
      t.textReq = s.textReq ∧ t.acc = s.acc) ∧
    (i = .next → t.sigBad = s.sigBad) ∧
    (t.phase ≠ .error → t.errcode = s.errcode ∧ t.errPos = s.errPos ∧ t.pendTxt = s.pendTxt ∧
      t.trace = s.trace)

/-- The frame of the micro-steps: an answer of the source or an acceptance of the sink leaves
unchanged the parameters, every byte of the stream, `CFG`, the host, the sampled text request and
the record's start; only SIG sets `SIG_OK`, only LEN and TYPE load `CUR_LEN` and `CUR_TYPE`, only LEN
writes `EOF_RESID`, and the trace only grows. -/
def Obligations.MicroStepFrame : Prop :=
  ∀ (s t : State) (i : Input), s.inputs.head? = some i → i.serves = true → step s = .next t →
    (∀ a, t.stream.read a = s.stream.read a) ∧ t.params = s.params ∧ t.cfg = s.cfg ∧
    t.host = s.host ∧ t.recStart = s.recStart ∧ t.textReq = s.textReq ∧
    t.inputs = s.inputs.tail ∧
    (s.phase ≠ .sig → t.sigOk = s.sigOk ∧ t.sigBad = s.sigBad) ∧
    (s.phase ≠ .len → t.curLen = s.curLen ∧ t.eofResid = s.eofResid) ∧
    (s.phase ≠ .type → t.curType = s.curType) ∧
    (s.phase ≠ .len → s.phase ≠ .crc → t.term = s.term) ∧
    (s.phase = .ready ∨ s.phase = .idle ∨ s.phase = .done ∨ s.phase = .error →
      t = { s with inputs := s.inputs.tail }) ∧
    ∃ new, t.trace = s.trace ++ new

/-- No step stops but outside the rules. That no step ends in a fault is the model's reading of R166
(assumption 9): an engine fault is a next state. A refused step (R62, R64, R191) is a host access that
is not admitted, a stream attached elsewhere than at address 0, or a source that changed. -/
def Obligations.StepStopsOnlyOutsideTheRules : Prop :=
  ∀ s : State,
    (∀ r, step s ≠ .fault r) ∧
    (∀ bytes pos rest, s.inputs = .reset bytes pos :: rest → pos ≠ 0 →
      step s = .refused .streamNotAtZero) ∧
    ∀ r, step s = .refused r →
      (∃ a rest, s.inputs = .access a :: rest ∧ a.wf = false) ∨
      (∃ rest op, s.inputs = .hostRun :: rest ∧ s.host.prog[s.host.pc]? = some op ∧
        ∃ off : BitVec 8, off.toNat % 4 ≠ 0 ∧ ((∃ v, op = .rd v off) ∨ ∃ v, op = .wr off v)) ∨
      (∃ bytes pos rest, s.inputs = .reset bytes pos :: rest ∧ pos ≠ 0) ∨
      ∃ bytes rest, s.inputs = .streamIs bytes :: rest ∧ Memory.ofBytes bytes ≠ s.stream

/-! ### The host's programs -/

/-- The statements of a host program (R94): a read stores the register in the variable, a write is the
bus's write of R81, a branch compares a field of a variable, `B` jumps, and `HALT` stays (assumption
8); branches, jumps and `HALT` are not seen by the engine. -/
def Obligations.HostStatements : Prop :=
  ∀ (s : State) (rest : List Input), s.inputs = .hostRun :: rest →
    let e := { s with inputs := rest }
    let pc := s.host.pc
    (∀ v off, off.toNat % 4 = 0 → s.host.prog[pc]? = some (.rd v off) →
      step s = .next { e with host := { s.host with
        pc := pc + 1, rdata := e.readOffset off,
        vars := setVar v (e.readOffset off) s.host.vars } }) ∧
    (∀ off v, off.toNat % 4 = 0 → s.host.prog[pc]? = some (.wr off v) →
      ∃ t, access (.wr .word off v) e = .next t ∧
        step s = .next { t with host := { t.host with pc := pc + 1 } }) ∧
    (∀ c v f imm target, s.host.prog[pc]? = some (.branch c v f imm target) →
      step s = .next { e with host := { s.host with
        pc := if (f.of (getVar s.host.vars v) = imm ↔ c = .eq) then target else pc + 1 } }) ∧
    (∀ target, s.host.prog[pc]? = some (.jump target) →
      step s = .next { e with host := { s.host with pc := target } }) ∧
    (s.host.prog[pc]? = some .halt → step s = .next e)

/-- A host variable holds the word last stored in it, and storing in it changes no other. -/
def Obligations.HostVariables : Prop :=
  ∀ (l : List (Nat × Word)) (v u : Nat) (w : Word), varsWfFrom 0 l = true →
    getVar (setVar v w l) u = if u = v then w else getVar l u

/-- R95 and R96: what the pseudo-instructions and the commands assemble to, with `L1` and `L2` the
places the rule gives them. -/
def Obligations.PseudoInstructionExpansions : Prop :=
  ∀ (labels : List (String × Nat)) (vars : List String) (b : Nat),
    let t := varNumber vars "t"
    expand labels vars b .sigchk = some [.wr 0x00 0x00000001] ∧
    expand labels vars b .next = some [.wr 0x00 0x00000002] ∧
    expand labels vars b .textOn = some [.wr 0x04 0x00000001] ∧
    expand labels vars b .textOff = some [.wr 0x04 0x00000000] ∧
    expand labels vars b .wait = some [.rd t 0x08, .branch .ne t .busy 0 b] ∧
    expand labels vars b .decodeAll =
      some [.wr 0x00 0x00000002, .rd t 0x08, .branch .ne t .busy 0 (b + 1), .rd t 0x08,
        .branch .ne t .err 0 (b + 6), .branch .eq t .done 0 b] ∧
    (∀ st ops, expand labels vars b st = some ops → ops.length = st.size)
end

