-- ==== Sys2Proof/Laws/Decode.lean ====
section
/-! SUPPORT. The command word: its fields, what the decoder accepts, and the encoder (R82 to R85). -/

namespace Sys2Proof

/-- A command word is its two fields. -/
theorem eq_of_fields {w v : Word} (h1 : rsvField w = rsvField v) (h2 : opField w = opField v) :
    w = v := by
  apply BitVec.eq_of_getLsbD_eq
  intro i hi
  by_cases h : i < 4
  · have := congrArg (fun x => x.getLsbD i) h2
    simpa [opField, BitVec.getLsbD_extractLsb, h, Nat.le_of_lt_succ h] using this
  · have := congrArg (fun x => x.getLsbD (i - 4)) h1
    have h4 : 4 + (i - 4) = i := by omega
    have h5 : i - 4 ≤ 27 := by omega
    simpa [rsvField, BitVec.getLsbD_extractLsb, h4, h5] using this

/-- The decoder reads a command exactly from its own word. -/
theorem decode_eq_ok_iff (w : Word) (i : Instr) : decode w = .ok i ↔ w = encode i := by
  constructor
  · intro h
    unfold decode at h
    split at h
    · exact absurd h (by simp)
    · rename_i h0
      have h0 : rsvField w = 0 := by simpa using h0
      split at h
      · rename_i h1
        obtain rfl : Instr.sigchk = i := by simpa using h
        exact eq_of_fields (by rw [h0]; decide) (by rw [h1]; decide)
      · split at h
        · rename_i h2
          obtain rfl : Instr.next = i := by simpa using h
          exact eq_of_fields (by rw [h0]; decide) (by rw [h2]; decide)
        · exact absurd h (by simp)
  · rintro rfl
    cases i <;> rfl

/-- A word the decoder rejects is no command's word. -/
theorem decode_eq_error_iff (w : Word) :
    (∃ e, decode w = .error e) ↔ w ≠ encode .sigchk ∧ w ≠ encode .next := by
  constructor
  · rintro ⟨e, h⟩
    constructor <;> (rintro rfl; simp [decode, rsvField, opField, encode, opcode] at h)
  · rintro ⟨h1, h2⟩
    cases hd : decode w with
    | error e => exact ⟨e, rfl⟩
    | ok i =>
      cases i
      · exact absurd ((decode_eq_ok_iff w .sigchk).1 hd) h1
      · exact absurd ((decode_eq_ok_iff w .next).1 hd) h2

end Sys2Proof
end

