-- ==== Sys2Proof/Laws/State.lean ====
section
/-! SUPPORT. What each shared operation leaves in each field of the state: one lemma per field per
operation, all true by unfolding. -/

namespace Sys2Proof.Machine.State

variable (s : State)

@[simp] theorem raise_params (c : ErrCode) : (s.raise c).params = s.params := rfl
@[simp] theorem raise_stream (c : ErrCode) : (s.raise c).stream = s.stream := rfl
@[simp] theorem raise_phase (c : ErrCode) : (s.raise c).phase = .error := rfl
@[simp] theorem raise_idx (c : ErrCode) : (s.raise c).idx = 0 := rfl
@[simp] theorem raise_cursor (c : ErrCode) : (s.raise c).cursor = s.cursor := rfl
@[simp] theorem raise_acc (c : ErrCode) : (s.raise c).acc = s.acc := rfl
@[simp] theorem raise_rem (c : ErrCode) : (s.raise c).rem = s.rem := rfl
@[simp] theorem raise_curLen (c : ErrCode) : (s.raise c).curLen = s.curLen := rfl
@[simp] theorem raise_curType (c : ErrCode) : (s.raise c).curType = s.curType := rfl
@[simp] theorem raise_textReq (c : ErrCode) : (s.raise c).textReq = s.textReq := rfl
@[simp] theorem raise_sigOk (c : ErrCode) : (s.raise c).sigOk = s.sigOk := rfl
@[simp] theorem raise_sigBad (c : ErrCode) : (s.raise c).sigBad = s.sigBad := rfl
@[simp] theorem raise_term (c : ErrCode) : (s.raise c).term = s.term := rfl
@[simp] theorem raise_errcode (c : ErrCode) : (s.raise c).errcode = c := rfl
@[simp] theorem raise_eofResid (c : ErrCode) : (s.raise c).eofResid = s.eofResid := rfl
@[simp] theorem raise_errPos (c : ErrCode) : (s.raise c).errPos = s.cursor := rfl
@[simp] theorem raise_recStart (c : ErrCode) : (s.raise c).recStart = s.recStart := rfl
@[simp] theorem raise_recStartLast (c : ErrCode) : (s.raise c).recStartLast = s.recStartLast := rfl
@[simp] theorem raise_count (c : ErrCode) : (s.raise c).count = s.count := rfl
@[simp] theorem raise_pendTxt (c : ErrCode) : (s.raise c).pendTxt = none := rfl
@[simp] theorem raise_recLen (c : ErrCode) : (s.raise c).recLen = s.recLen := rfl
@[simp] theorem raise_recType (c : ErrCode) : (s.raise c).recType = s.recType := rfl
@[simp] theorem raise_recCrc (c : ErrCode) : (s.raise c).recCrc = s.recCrc := rfl
@[simp] theorem raise_recFlags (c : ErrCode) : (s.raise c).recFlags = s.recFlags := rfl
@[simp] theorem raise_cfg (c : ErrCode) : (s.raise c).cfg = s.cfg := rfl
@[simp] theorem raise_trace (c : ErrCode) : (s.raise c).trace = s.trace ++ [.fault c s.cursor] := rfl
@[simp] theorem raise_host (c : ErrCode) : (s.raise c).host = s.host := rfl
@[simp] theorem raise_inputs (c : ErrCode) : (s.raise c).inputs = s.inputs := rfl

@[simp] theorem finish_params (r : Term) : (s.finish r).params = s.params := rfl
@[simp] theorem finish_stream (r : Term) : (s.finish r).stream = s.stream := rfl
@[simp] theorem finish_phase (r : Term) : (s.finish r).phase = .done := rfl
@[simp] theorem finish_idx (r : Term) : (s.finish r).idx = 0 := rfl
@[simp] theorem finish_cursor (r : Term) : (s.finish r).cursor = s.cursor := rfl
@[simp] theorem finish_acc (r : Term) : (s.finish r).acc = s.acc := rfl
@[simp] theorem finish_rem (r : Term) : (s.finish r).rem = s.rem := rfl
@[simp] theorem finish_curLen (r : Term) : (s.finish r).curLen = s.curLen := rfl
@[simp] theorem finish_curType (r : Term) : (s.finish r).curType = s.curType := rfl
@[simp] theorem finish_textReq (r : Term) : (s.finish r).textReq = s.textReq := rfl
@[simp] theorem finish_sigOk (r : Term) : (s.finish r).sigOk = s.sigOk := rfl
@[simp] theorem finish_sigBad (r : Term) : (s.finish r).sigBad = s.sigBad := rfl
@[simp] theorem finish_term (r : Term) : (s.finish r).term = r := rfl
@[simp] theorem finish_errcode (r : Term) : (s.finish r).errcode = s.errcode := rfl
@[simp] theorem finish_eofResid (r : Term) : (s.finish r).eofResid = s.eofResid := rfl
@[simp] theorem finish_errPos (r : Term) : (s.finish r).errPos = s.errPos := rfl
@[simp] theorem finish_recStart (r : Term) : (s.finish r).recStart = s.recStart := rfl
@[simp] theorem finish_recStartLast (r : Term) : (s.finish r).recStartLast = s.recStartLast := rfl
@[simp] theorem finish_count (r : Term) : (s.finish r).count = s.count := rfl
@[simp] theorem finish_pendTxt (r : Term) : (s.finish r).pendTxt = s.pendTxt := rfl
@[simp] theorem finish_recLen (r : Term) : (s.finish r).recLen = s.recLen := rfl
@[simp] theorem finish_recType (r : Term) : (s.finish r).recType = s.recType := rfl
@[simp] theorem finish_recCrc (r : Term) : (s.finish r).recCrc = s.recCrc := rfl
@[simp] theorem finish_recFlags (r : Term) : (s.finish r).recFlags = s.recFlags := rfl
@[simp] theorem finish_cfg (r : Term) : (s.finish r).cfg = s.cfg := rfl
@[simp] theorem finish_trace (r : Term) : (s.finish r).trace = s.trace ++ [.ended r] := rfl
@[simp] theorem finish_host (r : Term) : (s.finish r).host = s.host := rfl
@[simp] theorem finish_inputs (r : Term) : (s.finish r).inputs = s.inputs := rfl

@[simp] theorem log_params (e : Event) : (s.log e).params = s.params := rfl
@[simp] theorem log_stream (e : Event) : (s.log e).stream = s.stream := rfl
@[simp] theorem log_phase (e : Event) : (s.log e).phase = s.phase := rfl
@[simp] theorem log_idx (e : Event) : (s.log e).idx = s.idx := rfl
@[simp] theorem log_cursor (e : Event) : (s.log e).cursor = s.cursor := rfl
@[simp] theorem log_acc (e : Event) : (s.log e).acc = s.acc := rfl
@[simp] theorem log_rem (e : Event) : (s.log e).rem = s.rem := rfl
@[simp] theorem log_curLen (e : Event) : (s.log e).curLen = s.curLen := rfl
@[simp] theorem log_curType (e : Event) : (s.log e).curType = s.curType := rfl
@[simp] theorem log_textReq (e : Event) : (s.log e).textReq = s.textReq := rfl
@[simp] theorem log_sigOk (e : Event) : (s.log e).sigOk = s.sigOk := rfl
@[simp] theorem log_sigBad (e : Event) : (s.log e).sigBad = s.sigBad := rfl
@[simp] theorem log_term (e : Event) : (s.log e).term = s.term := rfl
@[simp] theorem log_errcode (e : Event) : (s.log e).errcode = s.errcode := rfl
@[simp] theorem log_eofResid (e : Event) : (s.log e).eofResid = s.eofResid := rfl
@[simp] theorem log_errPos (e : Event) : (s.log e).errPos = s.errPos := rfl
@[simp] theorem log_recStart (e : Event) : (s.log e).recStart = s.recStart := rfl
@[simp] theorem log_recStartLast (e : Event) : (s.log e).recStartLast = s.recStartLast := rfl
@[simp] theorem log_count (e : Event) : (s.log e).count = s.count := rfl
@[simp] theorem log_pendTxt (e : Event) : (s.log e).pendTxt = s.pendTxt := rfl
@[simp] theorem log_recLen (e : Event) : (s.log e).recLen = s.recLen := rfl
@[simp] theorem log_recType (e : Event) : (s.log e).recType = s.recType := rfl
@[simp] theorem log_recCrc (e : Event) : (s.log e).recCrc = s.recCrc := rfl
@[simp] theorem log_recFlags (e : Event) : (s.log e).recFlags = s.recFlags := rfl
@[simp] theorem log_cfg (e : Event) : (s.log e).cfg = s.cfg := rfl
@[simp] theorem log_trace (e : Event) : (s.log e).trace = s.trace ++ [e] := rfl
@[simp] theorem log_host (e : Event) : (s.log e).host = s.host := rfl
@[simp] theorem log_inputs (e : Event) : (s.log e).inputs = s.inputs := rfl

@[simp] theorem advance_params (n : Nat) : (s.advance n).params = s.params := rfl
@[simp] theorem advance_stream (n : Nat) : (s.advance n).stream = s.stream := rfl
@[simp] theorem advance_phase (n : Nat) : (s.advance n).phase = s.phase := rfl
@[simp] theorem advance_idx (n : Nat) : (s.advance n).idx = s.idx := rfl
@[simp] theorem advance_cursor (n : Nat) : (s.advance n).cursor = s.cursor + BitVec.ofNat 64 n := rfl
@[simp] theorem advance_acc (n : Nat) : (s.advance n).acc = s.acc := rfl
@[simp] theorem advance_rem (n : Nat) : (s.advance n).rem = s.rem := rfl
@[simp] theorem advance_curLen (n : Nat) : (s.advance n).curLen = s.curLen := rfl
@[simp] theorem advance_curType (n : Nat) : (s.advance n).curType = s.curType := rfl
@[simp] theorem advance_textReq (n : Nat) : (s.advance n).textReq = s.textReq := rfl
@[simp] theorem advance_sigOk (n : Nat) : (s.advance n).sigOk = s.sigOk := rfl
@[simp] theorem advance_sigBad (n : Nat) : (s.advance n).sigBad = s.sigBad := rfl
@[simp] theorem advance_term (n : Nat) : (s.advance n).term = s.term := rfl
@[simp] theorem advance_errcode (n : Nat) : (s.advance n).errcode = s.errcode := rfl
@[simp] theorem advance_eofResid (n : Nat) : (s.advance n).eofResid = s.eofResid := rfl
@[simp] theorem advance_errPos (n : Nat) : (s.advance n).errPos = s.errPos := rfl
@[simp] theorem advance_recStart (n : Nat) : (s.advance n).recStart = s.recStart := rfl
@[simp] theorem advance_recStartLast (n : Nat) : (s.advance n).recStartLast = s.recStartLast := rfl
@[simp] theorem advance_count (n : Nat) : (s.advance n).count = s.count := rfl
@[simp] theorem advance_pendTxt (n : Nat) : (s.advance n).pendTxt = s.pendTxt := rfl
@[simp] theorem advance_recLen (n : Nat) : (s.advance n).recLen = s.recLen := rfl
@[simp] theorem advance_recType (n : Nat) : (s.advance n).recType = s.recType := rfl
@[simp] theorem advance_recCrc (n : Nat) : (s.advance n).recCrc = s.recCrc := rfl
@[simp] theorem advance_recFlags (n : Nat) : (s.advance n).recFlags = s.recFlags := rfl
@[simp] theorem advance_cfg (n : Nat) : (s.advance n).cfg = s.cfg := rfl
@[simp] theorem advance_trace (n : Nat) : (s.advance n).trace = s.trace := rfl
@[simp] theorem advance_host (n : Nat) : (s.advance n).host = s.host := rfl
@[simp] theorem advance_inputs (n : Nat) : (s.advance n).inputs = s.inputs := rfl

@[simp] theorem hostAt_params (pc : Nat) : (s.hostAt pc).params = s.params := rfl
@[simp] theorem hostAt_stream (pc : Nat) : (s.hostAt pc).stream = s.stream := rfl
@[simp] theorem hostAt_phase (pc : Nat) : (s.hostAt pc).phase = s.phase := rfl
@[simp] theorem hostAt_idx (pc : Nat) : (s.hostAt pc).idx = s.idx := rfl
@[simp] theorem hostAt_cursor (pc : Nat) : (s.hostAt pc).cursor = s.cursor := rfl
@[simp] theorem hostAt_acc (pc : Nat) : (s.hostAt pc).acc = s.acc := rfl
@[simp] theorem hostAt_rem (pc : Nat) : (s.hostAt pc).rem = s.rem := rfl
@[simp] theorem hostAt_curLen (pc : Nat) : (s.hostAt pc).curLen = s.curLen := rfl
@[simp] theorem hostAt_curType (pc : Nat) : (s.hostAt pc).curType = s.curType := rfl
@[simp] theorem hostAt_textReq (pc : Nat) : (s.hostAt pc).textReq = s.textReq := rfl
@[simp] theorem hostAt_sigOk (pc : Nat) : (s.hostAt pc).sigOk = s.sigOk := rfl
@[simp] theorem hostAt_sigBad (pc : Nat) : (s.hostAt pc).sigBad = s.sigBad := rfl
@[simp] theorem hostAt_term (pc : Nat) : (s.hostAt pc).term = s.term := rfl
@[simp] theorem hostAt_errcode (pc : Nat) : (s.hostAt pc).errcode = s.errcode := rfl
@[simp] theorem hostAt_eofResid (pc : Nat) : (s.hostAt pc).eofResid = s.eofResid := rfl
@[simp] theorem hostAt_errPos (pc : Nat) : (s.hostAt pc).errPos = s.errPos := rfl
@[simp] theorem hostAt_recStart (pc : Nat) : (s.hostAt pc).recStart = s.recStart := rfl
@[simp] theorem hostAt_recStartLast (pc : Nat) : (s.hostAt pc).recStartLast = s.recStartLast := rfl
@[simp] theorem hostAt_count (pc : Nat) : (s.hostAt pc).count = s.count := rfl
@[simp] theorem hostAt_pendTxt (pc : Nat) : (s.hostAt pc).pendTxt = s.pendTxt := rfl
@[simp] theorem hostAt_recLen (pc : Nat) : (s.hostAt pc).recLen = s.recLen := rfl
@[simp] theorem hostAt_recType (pc : Nat) : (s.hostAt pc).recType = s.recType := rfl
@[simp] theorem hostAt_recCrc (pc : Nat) : (s.hostAt pc).recCrc = s.recCrc := rfl
@[simp] theorem hostAt_recFlags (pc : Nat) : (s.hostAt pc).recFlags = s.recFlags := rfl
@[simp] theorem hostAt_cfg (pc : Nat) : (s.hostAt pc).cfg = s.cfg := rfl
@[simp] theorem hostAt_trace (pc : Nat) : (s.hostAt pc).trace = s.trace := rfl
@[simp] theorem hostAt_host (pc : Nat) : (s.hostAt pc).host = { s.host with pc := pc } := rfl
@[simp] theorem hostAt_inputs (pc : Nat) : (s.hostAt pc).inputs = s.inputs := rfl

@[simp] theorem hostStore_params (v : Nat) : (s.hostStore v).params = s.params := rfl
@[simp] theorem hostStore_stream (v : Nat) : (s.hostStore v).stream = s.stream := rfl
@[simp] theorem hostStore_phase (v : Nat) : (s.hostStore v).phase = s.phase := rfl
@[simp] theorem hostStore_idx (v : Nat) : (s.hostStore v).idx = s.idx := rfl
@[simp] theorem hostStore_cursor (v : Nat) : (s.hostStore v).cursor = s.cursor := rfl
@[simp] theorem hostStore_acc (v : Nat) : (s.hostStore v).acc = s.acc := rfl
@[simp] theorem hostStore_rem (v : Nat) : (s.hostStore v).rem = s.rem := rfl
@[simp] theorem hostStore_curLen (v : Nat) : (s.hostStore v).curLen = s.curLen := rfl
@[simp] theorem hostStore_curType (v : Nat) : (s.hostStore v).curType = s.curType := rfl
@[simp] theorem hostStore_textReq (v : Nat) : (s.hostStore v).textReq = s.textReq := rfl
@[simp] theorem hostStore_sigOk (v : Nat) : (s.hostStore v).sigOk = s.sigOk := rfl
@[simp] theorem hostStore_sigBad (v : Nat) : (s.hostStore v).sigBad = s.sigBad := rfl
@[simp] theorem hostStore_term (v : Nat) : (s.hostStore v).term = s.term := rfl
@[simp] theorem hostStore_errcode (v : Nat) : (s.hostStore v).errcode = s.errcode := rfl
@[simp] theorem hostStore_eofResid (v : Nat) : (s.hostStore v).eofResid = s.eofResid := rfl
@[simp] theorem hostStore_errPos (v : Nat) : (s.hostStore v).errPos = s.errPos := rfl
@[simp] theorem hostStore_recStart (v : Nat) : (s.hostStore v).recStart = s.recStart := rfl
@[simp] theorem hostStore_recStartLast (v : Nat) : (s.hostStore v).recStartLast = s.recStartLast := rfl
@[simp] theorem hostStore_count (v : Nat) : (s.hostStore v).count = s.count := rfl
@[simp] theorem hostStore_pendTxt (v : Nat) : (s.hostStore v).pendTxt = s.pendTxt := rfl
@[simp] theorem hostStore_recLen (v : Nat) : (s.hostStore v).recLen = s.recLen := rfl
@[simp] theorem hostStore_recType (v : Nat) : (s.hostStore v).recType = s.recType := rfl
@[simp] theorem hostStore_recCrc (v : Nat) : (s.hostStore v).recCrc = s.recCrc := rfl
@[simp] theorem hostStore_recFlags (v : Nat) : (s.hostStore v).recFlags = s.recFlags := rfl
@[simp] theorem hostStore_cfg (v : Nat) : (s.hostStore v).cfg = s.cfg := rfl
@[simp] theorem hostStore_trace (v : Nat) : (s.hostStore v).trace = s.trace := rfl
@[simp] theorem hostStore_host (v : Nat) : (s.hostStore v).host = { s.host with vars := setVar v s.host.rdata s.host.vars } := rfl
@[simp] theorem hostStore_inputs (v : Nat) : (s.hostStore v).inputs = s.inputs := rfl

end Sys2Proof.Machine.State
end

