-- ==== Sys2Proof/Laws/Commands.lean ====
section
/-! SUPPORT. What a submitted command word, a host access and a statement of the host program can
do: the whole list, once (R69, R81, R88, R94, R101, R121). -/

namespace Sys2Proof.Machine

/-- A submitted word always leaves a next state. -/
theorem submit_answers_next (w : Word) (s : State) : ∃ t, submit w s = .next t := by
  unfold submit
  split
  · rename_i i _; cases i <;> exact ⟨_, rfl⟩
  · exact ⟨_, rfl⟩

/-- What a submitted command word can do (R88, R101, R121). -/
theorem submit_cases {w : Word} {s t : State} (h : submit w s = .next t) :
    (s.phase = .error ∧ t = s) ∨
    (s.phase.busy = true ∧ t = s.raise .cmdBusy) ∨
    (s.phase = .idle ∧ w = encode .sigchk ∧
      t = { s with phase := .sig, idx := 0, sigBad := false }) ∨
    (s.phase = .ready ∧ w = encode .next ∧
      t = { s with recStart := s.cursor, curLen := 0, curType := 0, textReq := s.textEn,
                   acc := 0, idx := 0, phase := .len }) ∨
    ((s.phase = .idle ∨ s.phase = .ready ∨ s.phase = .done) ∧
      (t = s.raise .cmdIllegal ∨ t = s.raise .cmdSeq)) := by
  by_cases he : s.phase = .error
  · left
    refine ⟨he, ?_⟩
    unfold submit at h
    split at h
    · rename_i i _; cases i <;> simpa [exec, execSigchk, execNext, State.gate, he] using h.symm
    · simpa [State.gate, he] using h.symm
  by_cases hb : s.phase.busy = true
  · right; left
    refine ⟨hb, ?_⟩
    unfold submit at h
    split at h
    · rename_i i _
      cases i <;> simpa [exec, execSigchk, execNext, State.gate, he, hb] using h.symm
    · simpa [State.gate, he, hb] using h.symm
  have hq : s.phase = .idle ∨ s.phase = .ready ∨ s.phase = .done := by
    revert he hb; cases s.phase <;> simp [Phase.busy]
  right; right
  unfold submit at h
  split at h
  · rename_i i hd
    rw [decode_eq_ok_iff] at hd
    cases i
    · by_cases hi : s.phase = .idle
      · left
        refine ⟨hi, hd, ?_⟩
        simpa [exec, execSigchk, State.gate, acceptSigchk, hi, Phase.busy] using h.symm
      · right; right
        refine ⟨hq, .inr ?_⟩
        simpa [exec, execSigchk, State.gate, acceptSigchk, hi, hb, he] using h.symm
    · by_cases hi : s.phase = .ready
      · right; left
        refine ⟨hi, hd, ?_⟩
        simpa [exec, execNext, State.gate, acceptNext, hi, Phase.busy] using h.symm
      · right; right
        refine ⟨hq, .inr ?_⟩
        simpa [exec, execNext, State.gate, acceptNext, hi, hb, he] using h.symm
  · right; right
    refine ⟨hq, .inl ?_⟩
    simpa [State.gate, hb, he] using h.symm

/-- What a host access can do (R69, R81). -/
theorem access_cases {a : Access} {s t : State} (h : access a s = .next t) :
    (∃ x, t = { s with host := { s.host with rdata := x } }) ∨ t = s ∨
      (∃ v, t = { s with cfg := cfgWritten v }) ∨ ∃ w, submit w s = .next t := by
  unfold access at h
  split at h
  · cases h
  · split at h
    · cases h
    · cases a with
      | rd width off =>
        left
        exact ⟨_, by simpa [admittedAccess] using h.symm⟩
      | wr width off v =>
        simp only [admittedAccess, writeOffset] at h
        split at h
        · exact .inr (.inr (.inr ⟨v, h⟩))
        · exact .inr (.inr (.inl ⟨v, by simpa using h.symm⟩))
        all_goals exact .inr (.inl (by simpa using h.symm))

/-- `setVar` keeps the numbers of the variables strictly rising. -/
theorem varsWfFrom_setVar (v : Nat) (w : Word) (l : List (Nat × Word)) :
    ∀ lo, lo ≤ v → varsWfFrom lo l = true → varsWfFrom lo (setVar v w l) = true := by
  induction l with
  | nil => intro lo hlo _; simp [setVar, varsWfFrom, hlo]
  | cons c l ih =>
    obtain ⟨u, x⟩ := c
    intro lo hlo h
    simp only [varsWfFrom, Bool.and_eq_true, decide_eq_true_eq] at h
    simp only [setVar]
    split
    · simp only [varsWfFrom, Bool.and_eq_true, decide_eq_true_eq]
      exact ⟨hlo, by omega, h.2⟩
    · split
      · subst_vars; simp [varsWfFrom, hlo, h.2]
      · simp only [varsWfFrom, Bool.and_eq_true, decide_eq_true_eq]
        exact ⟨h.1, ih (u + 1) (by omega) h.2⟩

/-- What a statement of the host program can do: the engine sees no more of it than a bus access
(R80, R94). -/
theorem hostStep_cases {s t : State} (h : hostStep s = .next t) :
    ∃ k : HostState, (s.host.wf = true → k.wf = true) ∧
      (t = { s with host := k } ∨ (∃ v, t = { s with cfg := cfgWritten v, host := k }) ∨
        ∃ w u, submit w s = .next u ∧ t = { u with host := k }) := by
  have keep : ∀ w u, submit w s = .next u → u.host = s.host := by
    intro w u hu
    rcases submit_cases hu with ⟨-, rfl⟩ | ⟨-, rfl⟩ | ⟨-, -, rfl⟩ | ⟨-, -, rfl⟩ | ⟨-, rfl | rfl⟩ <;>
      rfl
  unfold hostStep at h
  split at h
  · rename_i op _
    cases op with
    | rd var off =>
      simp only [hostOp] at h
      unfold thenHost at h
      split at h
      · rename_i u hu
        have ht : State.hostAt (State.hostStore u var) (s.host.pc + 1) = t := by simpa using h
        unfold access at hu
        split at hu
        · cases hu
        · split at hu
          · cases hu
          · obtain rfl : { s with host := { s.host with rdata := s.readOffset off } } = u := by
              simpa [admittedAccess] using hu
            refine ⟨t.host, ?_, .inl ?_⟩ <;> subst ht
            · exact fun hw => varsWfFrom_setVar _ _ _ 0 (Nat.zero_le _) hw
            · rfl
      · cases h
      · cases h
    | wr off v =>
      simp only [hostOp] at h
      unfold thenHost at h
      split at h
      · rename_i u hu
        have ht : State.hostAt u (s.host.pc + 1) = t := by simpa using h
        rcases access_cases hu with ⟨x, rfl⟩ | rfl | ⟨v, rfl⟩ | ⟨w, hw⟩
        · refine ⟨t.host, ?_, .inl ?_⟩ <;> subst ht
          · exact fun hw => hw
          · rfl
        · refine ⟨t.host, ?_, .inl ?_⟩ <;> subst ht
          · exact fun hw => hw
          · rfl
        · refine ⟨t.host, ?_, .inr (.inl ⟨v, ?_⟩)⟩ <;> subst ht
          · exact fun hw => hw
          · rfl
        · have hk := keep w u hw
          refine ⟨t.host, ?_, .inr (.inr ⟨w, u, hw, ?_⟩)⟩ <;> subst ht
          · exact fun h0 => by simpa [HostState.wf, hk] using h0
          · rfl
      · cases h
      · cases h
    | branch c var f imm target =>
      have ht := (by simpa [hostOp] using h : _ = t)
      refine ⟨t.host, ?_, .inl ?_⟩ <;> subst ht
      · exact fun hw => hw
      · rfl
    | jump target =>
      have ht := (by simpa [hostOp] using h : _ = t)
      refine ⟨t.host, ?_, .inl ?_⟩ <;> subst ht
      · exact fun hw => hw
      · rfl
    | halt =>
      have ht := (by simpa [hostOp] using h : s = t)
      subst ht
      exact ⟨s.host, fun hw => hw, .inl rfl⟩
  · have ht := (by simpa using h : s = t)
    subst ht
    exact ⟨s.host, fun hw => hw, .inl rfl⟩

end Sys2Proof.Machine
end

