-- ==== Sys2Proof/Laws/Memory.lean ====
section
/-! SUPPORT. The stream as a memory: its canonical form, and what reading it gives (R10, R60, R62). -/

namespace Sys2Proof.Machine.Memory

theorem wfFrom_cellsFrom (bs : List Byte) : ∀ a, wfFrom a (cellsFrom a bs) = true := by
  induction bs with
  | nil => intro a; rfl
  | cons b bs ih => intro a; simp [cellsFrom, wfFrom, ih (a + 1)]

/-- Attaching a stream gives the canonical form. -/
@[simp] theorem wf_ofBytes (bs : List Byte) : wf (ofBytes bs) = true := wfFrom_cellsFrom bs 0

theorem map_snd_cellsFrom (bs : List Byte) : ∀ a, (cellsFrom a bs).map Prod.snd = bs := by
  induction bs with
  | nil => intro a; rfl
  | cons b bs ih => intro a; simp [cellsFrom, ih (a + 1)]

@[simp] theorem bytes_ofBytes (bs : List Byte) : bytes (ofBytes bs) = bs := map_snd_cellsFrom bs 0

@[simp] theorem length_bytes (m : Memory) : (bytes m).length = m.size := by simp [bytes, size]

@[simp] theorem size_ofBytes (bs : List Byte) : size (ofBytes bs) = bs.length := by
  rw [← length_bytes, bytes_ofBytes]

theorem cellsFrom_of_wfFrom (m : Memory) : ∀ a, wfFrom a m = true → m = cellsFrom a (bytes m) := by
  induction m with
  | nil => intro a _; rfl
  | cons c m ih =>
    obtain ⟨b, v⟩ := c
    intro a h
    simp only [wfFrom, Bool.and_eq_true, beq_iff_eq] at h
    obtain ⟨rfl, h⟩ := h
    exact congrArg ((b, v) :: ·) (ih (b + 1) h)

/-- A stream in canonical form is what attaching its bytes gives. -/
theorem eq_ofBytes_of_wf {m : Memory} (h : m.wf = true) : m = ofBytes (bytes m) :=
  cellsFrom_of_wfFrom m 0 h

/-- In the canonical form addresses rise strictly. -/
theorem pairwise_of_wfFrom (m : Memory) :
    ∀ a, wfFrom a m = true → m.Pairwise (fun x y => x.1 < y.1) ∧ ∀ c ∈ m, a ≤ c.1 := by
  induction m with
  | nil => intro a _; simp
  | cons c m ih =>
    obtain ⟨b, v⟩ := c
    intro a h
    simp only [wfFrom, Bool.and_eq_true, beq_iff_eq] at h
    obtain ⟨rfl, h⟩ := h
    obtain ⟨h1, h2⟩ := ih (b + 1) h
    refine ⟨List.pairwise_cons.2 ⟨fun c hc => h2 c hc, h1⟩, ?_⟩
    intro c hc
    rcases List.mem_cons.1 hc with rfl | hc
    · exact Nat.le_refl _
    · exact Nat.le_of_succ_le (h2 c hc)

theorem read_cellsFrom_of_lt (bs : List Byte) : ∀ a i, i < a → read (cellsFrom a bs) i = none := by
  induction bs with
  | nil => intro a i _; rfl
  | cons b bs ih =>
    intro a i h
    simp only [cellsFrom, read]
    rw [if_neg (by omega), ih (a + 1) i (by omega)]

theorem read_cellsFrom (bs : List Byte) : ∀ a i, read (cellsFrom a bs) (a + i) = bs[i]? := by
  induction bs with
  | nil => intro a i; simp [cellsFrom, read]
  | cons b bs ih =>
    intro a i
    cases i with
    | zero => simp [cellsFrom, read]
    | succ i =>
      have := ih (a + 1) i
      simp only [cellsFrom, read]
      rw [if_neg (by omega), show a + (i + 1) = a + 1 + i by omega, this]
      simp

/-- Reading an attached stream reads its bytes. -/
@[simp] theorem read_ofBytes (bs : List Byte) (i : Nat) : read (ofBytes bs) i = bs[i]? := by
  simpa [ofBytes] using read_cellsFrom bs 0 i

/-- Reading a stream in canonical form. -/
theorem read_eq_getElem? {m : Memory} (h : m.wf = true) (i : Nat) : m.read i = (bytes m)[i]? := by
  rw [eq_ofBytes_of_wf h, read_ofBytes, bytes_ofBytes]

/-- `EOF` is answered exactly from `N` on (R62). -/
theorem read_eq_none_iff {m : Memory} (h : m.wf = true) (i : Nat) :
    m.read i = none ↔ m.size ≤ i := by
  rw [read_eq_getElem? h, List.getElem?_eq_none_iff, length_bytes]

theorem read_isSome_iff {m : Memory} (h : m.wf = true) (i : Nat) :
    (m.read i).isSome ↔ i < m.size := by
  rw [Option.isSome_iff_ne_none, Ne, read_eq_none_iff h, Nat.not_le]

end Sys2Proof.Machine.Memory
end

