-- ==== Sys2Proof/Laws/MicroSteps.lean ====
section
/-! SUPPORT. What each micro-step can do: one list of cases for each (R102, R103, R122 to R131, R133),
and the frame of all of them. -/

namespace Sys2Proof.Machine

/-- What a SIG micro-step can do (R102, R103). -/
theorem sigStep_cases (s : State) :
    (s.memRead = none ∧ sigStep s = s.raise .sigShort) ∨
    ∃ r, s.memRead = some r ∧
      ((s.idx = 7 ∧ (s.sigBad || r != sigByte 7) = true ∧
        sigStep s = ({ s.advance 1 with sigBad := true } : State).raise .sigMismatch) ∨
       (s.idx = 7 ∧ (s.sigBad || r != sigByte 7) = false ∧
        sigStep s = ({ s.advance 1 with sigBad := false, sigOk := true, phase := .ready, idx := 0 } :
          State).log .sigOk) ∨
       (s.idx ≠ 7 ∧
        sigStep s = { s.advance 1 with sigBad := s.sigBad || r != sigByte s.idx,
                                       idx := s.idx + 1 })) := by
  unfold sigStep
  cases hr : s.memRead with
  | none => exact .inl ⟨rfl, rfl⟩
  | some r =>
    refine .inr ⟨r, rfl, ?_⟩
    by_cases hi : s.idx = 7
    · cases hb : (s.sigBad || r != sigByte 7)
      · refine .inr (.inl ⟨hi, rfl, (if_pos hi).trans ?_⟩)
        unfold completeSigchk
        simp only [hi, hb]
        rfl
      · refine .inl ⟨hi, rfl, (if_pos hi).trans ?_⟩
        unfold completeSigchk
        simp only [hi, hb]
        rfl
    · exact .inr (.inr ⟨hi, if_neg hi⟩)

/-- What a LEN micro-step can do (R122, R123). -/
theorem lenStep_cases (s : State) :
    (s.memRead = none ∧ s.params.strictLenEof = true ∧ s.idx ≠ 0 ∧
      lenStep s = ({ s with eofResid := s.idx.setWidth 2 } : State).raise .truncLen) ∨
    (s.memRead = none ∧ (s.params.strictLenEof = true → s.idx = 0) ∧
      lenStep s = ({ s with eofResid := s.idx.setWidth 2 } : State).finish .cleanEof) ∨
    ∃ r, s.memRead = some r ∧
      ((s.idx = 3 ∧ lenStep s =
          { s.advance 1 with curLen := shiftIn s.acc r, acc := 0, idx := 0, phase := .type }) ∨
       (s.idx ≠ 3 ∧
        lenStep s = { s.advance 1 with acc := shiftIn s.acc r, idx := s.idx + 1 })) := by
  unfold lenStep
  cases hr : s.memRead with
  | none =>
    by_cases h : (s.params.strictLenEof && s.idx != 0) = true
    · have h2 := (Bool.and_eq_true _ _).mp h
      exact .inl ⟨rfl, h2.1, (bne_iff_ne ..).mp h2.2, if_pos h⟩
    · refine .inr (.inl ⟨rfl, fun hs => ?_, if_neg h⟩)
      by_contra hne
      exact h ((Bool.and_eq_true _ _).mpr ⟨hs, (bne_iff_ne ..).mpr hne⟩)
  | some r =>
    refine .inr (.inr ⟨r, rfl, ?_⟩)
    by_cases hi : s.idx = 3
    · exact .inl ⟨hi, if_pos hi⟩
    · exact .inr ⟨hi, if_neg hi⟩

/-- What the payload selection can do (R125, R130). -/
theorem selectPayload_cases (s : State) :
    (s.curLen = 0 ∧ selectPayload s = { s with rem := 0, phase := .crc }) ∨
    (s.curLen ≠ 0 ∧ s.curType = s.params.textMarker.pack ∧ s.textReq = true ∧
      selectPayload s = { s with rem := s.curLen, phase := .text }) ∨
    (s.curLen ≠ 0 ∧ ¬ (s.curType = s.params.textMarker.pack ∧ s.textReq = true) ∧
      selectPayload s = { s with rem := s.curLen, phase := .skip }) := by
  unfold selectPayload
  by_cases h0 : s.curLen = 0
  · exact .inl ⟨h0, by rw [if_pos h0, h0]⟩
  · rw [if_neg h0]
    by_cases h : (s.curType == s.params.textMarker.pack && s.textReq) = true
    · have h2 := (Bool.and_eq_true _ _).mp h
      exact .inr (.inl ⟨h0, (beq_iff_eq ..).mp h2.1, h2.2, if_pos h⟩)
    · refine .inr (.inr ⟨h0, fun hc => ?_, if_neg h⟩)
      exact h ((Bool.and_eq_true _ _).mpr ⟨(beq_iff_eq ..).mpr hc.1, hc.2⟩)

/-- What a TYPE micro-step can do (R124). -/
theorem typeStep_cases (s : State) :
    (s.memRead = none ∧ typeStep s = s.raise .truncType) ∨
    ∃ r, s.memRead = some r ∧
      ((s.idx = 3 ∧ typeStep s =
          selectPayload { s.advance 1 with curType := shiftIn s.acc r, acc := 0, idx := 0 }) ∨
       (s.idx ≠ 3 ∧
        typeStep s = { s.advance 1 with acc := shiftIn s.acc r, idx := s.idx + 1 })) := by
  unfold typeStep
  cases hr : s.memRead with
  | none => exact .inl ⟨rfl, rfl⟩
  | some r =>
    refine .inr ⟨r, rfl, ?_⟩
    by_cases hi : s.idx = 3
    · exact .inl ⟨hi, if_pos hi⟩
    · exact .inr ⟨hi, if_neg hi⟩

/-- A skip passes at least one byte (R66). -/
theorem one_le_skipSize (s : State) (k : Nat) : 1 ≤ s.skipSize k := Nat.le_max_left _ _

/-- A skip passes no more bytes than remain of the payload and of the stream (R66). -/
theorem skipSize_le {s : State} (k : Nat) (h1 : s.rem ≠ 0) (h2 : 0 < s.available) :
    s.skipSize k ≤ s.rem.toNat ∧ s.skipSize k ≤ s.available := by
  have : 0 < s.rem.toNat := by
    rcases Nat.eq_zero_or_pos s.rem.toNat with h | h
    · exact absurd (BitVec.eq_of_toNat_eq (by simpa using h)) h1
    · exact h
  unfold State.skipSize
  omega

/-- What the end of a payload micro-step can do (R126, R128). -/
theorem afterPayload_cases (s : State) :
    (s.rem = 0 ∧ afterPayload s = { s with idx := 0, acc := 0, phase := .crc }) ∨
    (s.rem ≠ 0 ∧ afterPayload s = s) := by
  unfold afterPayload
  by_cases h : s.rem = 0
  · exact .inl ⟨h, if_pos h⟩
  · exact .inr ⟨h, if_neg h⟩

/-- What a SKIP micro-step can do (R126). -/
theorem skipStep_cases (k : Nat) (s : State) :
    (s.rem = 0 ∧ skipStep k s = s) ∨
    (s.rem ≠ 0 ∧ s.stream.size ≤ s.cursor.toNat ∧ skipStep k s = s.raise .truncPayload) ∨
    (s.rem ≠ 0 ∧ 0 < s.available ∧ ∃ n, 1 ≤ n ∧ n ≤ s.rem.toNat ∧ n ≤ s.available ∧
      n = s.skipSize k ∧
      skipStep k s = afterPayload { s.advance n with rem := s.rem - BitVec.ofNat 32 n }) := by
  unfold skipStep
  by_cases h0 : s.rem = 0
  · exact .inl ⟨h0, if_pos h0⟩
  · rw [if_neg h0]
    by_cases h1 : s.stream.size ≤ s.cursor.toNat
    · exact .inr (.inl ⟨h0, h1, if_pos h1⟩)
    · have ha : 0 < s.available := by unfold State.available; omega
      have hs := skipSize_le k h0 ha
      exact .inr (.inr ⟨h0, ha, _, one_le_skipSize s k, hs.1, hs.2, rfl, if_neg h1⟩)

/-- What a TEXT-read micro-step can do (R127). -/
theorem textReadStep_cases (s : State) :
    ((s.rem = 0 ∨ s.pendTxt.isSome) ∧ textReadStep s = s) ∨
    (s.rem ≠ 0 ∧ s.pendTxt = none ∧ s.memRead = none ∧ textReadStep s = s.raise .truncPayload) ∨
    (s.rem ≠ 0 ∧ s.pendTxt = none ∧
      ∃ r, s.memRead = some r ∧ textReadStep s = { s.advance 1 with pendTxt := some r }) := by
  unfold textReadStep
  by_cases h0 : s.rem = 0 ∨ s.pendTxt.isSome
  · exact .inl ⟨h0, if_pos h0⟩
  · have h1 : s.rem ≠ 0 := fun h => h0 (.inl h)
    have h2 : s.pendTxt = none := by
      cases hp : s.pendTxt with
      | none => rfl
      | some b => exact absurd (.inr (by simp [hp])) h0
    cases hr : s.memRead with
    | none => exact .inr (.inl ⟨h1, h2, rfl, if_neg h0⟩)
    | some r => exact .inr (.inr ⟨h1, h2, r, rfl, if_neg h0⟩)

/-- What a TEXT-emit micro-step can do (R128). -/
theorem textEmitStep_cases (s : State) :
    (s.pendTxt = none ∧ textEmitStep s = s) ∨
    ∃ b, s.pendTxt = some b ∧
      textEmitStep s =
        afterPayload (({ s with pendTxt := none, rem := s.rem - 1 } : State).log (.txt b)) := by
  unfold textEmitStep
  cases s.pendTxt with
  | none => exact .inl ⟨rfl, rfl⟩
  | some b => exact .inr ⟨b, rfl, rfl⟩

/-- What the completion of a record can do (R133, R134). -/
theorem completeRecord_cases (crc : Word) (s : State) :
    ∃ t : State,
      t = { s with
            recLen := s.curLen, recType := s.curType, recCrc := crc,
            recFlags := recFlagsWord s.params.textMarker s.curType s.textReq,
            count := s.count + 1, recStartLast := s.recStart,
            trace := s.trace ++ [.record s.curLen (typeBytes s.curType) crc
              (recFlagsWord s.params.textMarker s.curType s.textReq)],
            acc := 0, idx := 0 } ∧
      ((s.curType = iendType ∧ completeRecord crc s = t.finish .iend) ∨
       (s.curType ≠ iendType ∧ completeRecord crc s = { t with phase := .ready })) := by
  refine ⟨_, rfl, ?_⟩
  unfold completeRecord
  by_cases h : s.curType = iendType
  · exact .inl ⟨h, if_pos h⟩
  · exact .inr ⟨h, if_neg h⟩

/-- What a CRC micro-step can do (R129, R131). -/
theorem crcStep_cases (s : State) :
    (s.memRead = none ∧ crcStep s = s.raise .truncCrc) ∨
    ∃ r, s.memRead = some r ∧
      ((s.idx = 3 ∧ crcStep s =
          completeRecord (shiftIn s.acc r) { s.advance 1 with acc := shiftIn s.acc r }) ∨
       (s.idx ≠ 3 ∧
        crcStep s = { s.advance 1 with acc := shiftIn s.acc r, idx := s.idx + 1 })) := by
  unfold crcStep
  cases hr : s.memRead with
  | none => exact .inl ⟨rfl, rfl⟩
  | some r =>
    refine .inr ⟨r, rfl, ?_⟩
    by_cases hi : s.idx = 3
    · exact .inl ⟨hi, if_pos hi⟩
    · exact .inr ⟨hi, if_neg hi⟩

/-- What no micro-step touches: the parameters, the stream, `CFG`, the host, what happens next, and
what only acceptance writes. -/
structure SameOutside (s t : State) : Prop where
  params : t.params = s.params
  stream : t.stream = s.stream
  cfg : t.cfg = s.cfg
  host : t.host = s.host
  inputs : t.inputs = s.inputs
  recStart : t.recStart = s.recStart
  textReq : t.textReq = s.textReq

theorem SameOutside.rfl' (s : State) : SameOutside s s := ⟨rfl, rfl, rfl, rfl, rfl, rfl, rfl⟩

theorem afterPayload_same {s t : State} (h : SameOutside s t) : SameOutside s (afterPayload t) := by
  rcases afterPayload_cases t with ⟨-, e⟩ | ⟨-, e⟩ <;> rw [e] <;>
    exact ⟨h.params, h.stream, h.cfg, h.host, h.inputs, h.recStart, h.textReq⟩

/-- The frame of an answer of the stream source. -/
theorem sourceStep_same (k : Nat) (s : State) : SameOutside s (sourceStep k s) := by
  unfold sourceStep
  split
  · rcases sigStep_cases s with ⟨-, e⟩ | ⟨r, -, ⟨-, -, e⟩ | ⟨-, -, e⟩ | ⟨-, e⟩⟩ <;> rw [e] <;>
      exact ⟨rfl, rfl, rfl, rfl, rfl, rfl, rfl⟩
  · rcases lenStep_cases s with ⟨-, -, -, e⟩ | ⟨-, -, e⟩ | ⟨r, -, ⟨-, e⟩ | ⟨-, e⟩⟩ <;> rw [e] <;>
      exact ⟨rfl, rfl, rfl, rfl, rfl, rfl, rfl⟩
  · rcases typeStep_cases s with ⟨-, e⟩ | ⟨r, -, ⟨-, e⟩ | ⟨-, e⟩⟩ <;> rw [e]
    · exact ⟨rfl, rfl, rfl, rfl, rfl, rfl, rfl⟩
    · rcases selectPayload_cases
        ({ s.advance 1 with curType := shiftIn s.acc r, acc := 0, idx := 0 } : State) with
        ⟨-, e⟩ | ⟨-, -, -, e⟩ | ⟨-, -, e⟩ <;> rw [e] <;> exact ⟨rfl, rfl, rfl, rfl, rfl, rfl, rfl⟩
    · exact ⟨rfl, rfl, rfl, rfl, rfl, rfl, rfl⟩
  · rcases skipStep_cases k s with ⟨-, e⟩ | ⟨-, -, e⟩ | ⟨-, -, n, -, -, -, -, e⟩ <;> rw [e]
    · exact .rfl' s
    · exact ⟨rfl, rfl, rfl, rfl, rfl, rfl, rfl⟩
    · exact afterPayload_same ⟨rfl, rfl, rfl, rfl, rfl, rfl, rfl⟩
  · rcases textReadStep_cases s with ⟨-, e⟩ | ⟨-, -, -, e⟩ | ⟨-, -, r, -, e⟩ <;> rw [e] <;>
      exact ⟨rfl, rfl, rfl, rfl, rfl, rfl, rfl⟩
  · rcases crcStep_cases s with ⟨-, e⟩ | ⟨r, -, ⟨-, e⟩ | ⟨-, e⟩⟩ <;> rw [e]
    · exact ⟨rfl, rfl, rfl, rfl, rfl, rfl, rfl⟩
    · obtain ⟨t, rfl, ⟨-, e⟩ | ⟨-, e⟩⟩ := completeRecord_cases (shiftIn s.acc r)
        ({ s.advance 1 with acc := shiftIn s.acc r } : State) <;> rw [e] <;>
        exact ⟨rfl, rfl, rfl, rfl, rfl, rfl, rfl⟩
    · exact ⟨rfl, rfl, rfl, rfl, rfl, rfl, rfl⟩
  all_goals exact .rfl' s

/-- The frame of an acceptance of the text sink. -/
theorem sinkStep_same (s : State) : SameOutside s (sinkStep s) := by
  unfold sinkStep
  split
  · rcases textEmitStep_cases s with ⟨-, e⟩ | ⟨b, -, e⟩ <;> rw [e]
    · exact .rfl' s
    · exact afterPayload_same ⟨rfl, rfl, rfl, rfl, rfl, rfl, rfl⟩
  all_goals exact .rfl' s

end Sys2Proof.Machine
end

