-- ==== Sys2Proof/Laws/Step.lean ====
section
/-! SUPPORT. What one step can do: the whole list, once; and runs of steps. -/

namespace Sys2Proof.Machine

/-- The state with the front of `inputs` taken away. -/
abbrev State.popped (s : State) : State := { s with inputs := s.inputs.tail }

/-- What one step can do. -/
theorem step_cases {s t : State} (h : step s = .next t) :
    t = s.popped ∨
    (∃ k, s.inputs.head? = some (.source k) ∧ t = sourceStep k s.popped) ∨
    (s.inputs.head? = some .sink ∧ t = sinkStep s.popped) ∨
    (∃ bytes, s.inputs.head? = some (.reset bytes 0) ∧ t = s.popped.afterReset bytes) ∨
    ∃ k : HostState, (s.host.wf = true → k.wf = true) ∧ s.resetNext = false ∧
      (t = { s.popped with host := k } ∨
        (∃ v, t = { s.popped with cfg := cfgWritten v, host := k }) ∨
        ∃ w u, submit w s.popped = .next u ∧ t = { u with host := k }) := by
  unfold step at h
  split at h
  · rename_i hi
    obtain rfl : s = t := by simpa using h
    left
    unfold State.popped
    rw [hi, List.tail_nil, ← hi]
  · rename_i i rest hi
    have hp : ({ s with inputs := rest } : State) = s.popped := by simp [State.popped, hi]
    rw [hp] at h
    cases i with
    | access a =>
      have hn : s.resetNext = false := by simp [State.resetNext, hi, Input.isReset]
      have h : access a s.popped = .next t := h
      rcases access_cases h with ⟨x, rfl⟩ | rfl | ⟨v, rfl⟩ | ⟨w, hw⟩
      · exact .inr (.inr (.inr (.inr ⟨{ s.host with rdata := x }, fun hw => hw, hn, .inl rfl⟩)))
      · exact .inl rfl
      · exact .inr (.inr (.inr (.inr ⟨s.host, fun hw => hw, hn, .inr (.inl ⟨v, rfl⟩)⟩)))
      · refine .inr (.inr (.inr (.inr ⟨t.host, ?_, hn, .inr (.inr ⟨w, t, hw, rfl⟩)⟩)))
        intro h0
        rcases submit_cases hw with ⟨-, rfl⟩ | ⟨-, rfl⟩ | ⟨-, -, rfl⟩ | ⟨-, -, rfl⟩ | ⟨-, rfl | rfl⟩ <;>
          exact h0
    | hostRun =>
      have hn : s.resetNext = false := by simp [State.resetNext, hi, Input.isReset]
      have h : hostStep s.popped = .next t := h
      obtain ⟨k, hk, hc⟩ := hostStep_cases h
      exact .inr (.inr (.inr (.inr ⟨k, hk, hn, hc⟩)))
    | source k =>
      have h : Host.Outcome.next (sourceStep k s.popped) = .next t := h
      exact .inr (.inl ⟨k, by simp [hi], by simpa using h.symm⟩)
    | sink =>
      have h : Host.Outcome.next (sinkStep s.popped) = .next t := h
      exact .inr (.inr (.inl ⟨by simp [hi], by simpa using h.symm⟩))
    | reset bytes pos =>
      have h : resetInput bytes pos s.popped = .next t := h
      unfold resetInput at h
      split at h
      · rename_i hpos
        obtain rfl : pos = 0 := by simpa [WellFormed.launchPosition] using hpos
        exact .inr (.inr (.inr (.inl ⟨bytes, by simp [hi], (Host.Outcome.next.inj h).symm⟩)))
      · cases h
    | streamIs bytes =>
      have h : streamInput bytes s.popped = .next t := h
      unfold streamInput at h
      split at h
      · exact .inl (by simpa using h.symm)
      · cases h

/-- A quiet access is served and changes nothing but the bus's answer or `CFG` (R69). -/
theorem access_quiet {a : Access} (h : a.quiet = true) (s : State) :
    ∃ (c x : Word), (c = s.cfg ∨ ∃ v, c = cfgWritten v) ∧
      access a s = .next { s with cfg := c, host := { s.host with rdata := x } } := by
  obtain ⟨hwf, hq⟩ := (Bool.and_eq_true _ _).mp h
  obtain ⟨hw, ha⟩ := (Bool.and_eq_true _ _).mp hwf
  have hacc : access a s = admittedAccess a s := by
    unfold access
    rw [if_neg (by simp [hw]), if_neg (by simp [ha])]
  rw [hacc]
  cases a with
  | rd width off => exact ⟨s.cfg, s.readOffset off, .inl rfl, rfl⟩
  | wr width off v =>
    simp only [admittedAccess, writeOffset]
    split
    · rename_i hr
      have : Reg.cmd.offset = off := by simpa using List.find?_some hr
      simp [this] at hq
    · exact ⟨cfgWritten v, s.host.rdata, .inr ⟨v, rfl⟩, rfl⟩
    all_goals exact ⟨s.cfg, s.host.rdata, .inl rfl, rfl⟩

/-- A quiet statement of the host's program changes only `CFG` and the host (R80, R94). -/
theorem hostOp_quiet {op : HostOp} (h : op.quiet = true) (s : State) :
    ∃ (c : Word) (k : HostState), (c = s.cfg ∨ ∃ v, c = cfgWritten v) ∧
      (s.host.wf = true → k.wf = true) ∧ hostOp op s = .next { s with cfg := c, host := k } := by
  cases op with
  | rd var off =>
    obtain ⟨c, x, hc, e⟩ := access_quiet (a := .rd .word off) h s
    refine ⟨c, { s.host with pc := s.host.pc + 1, rdata := x, vars := setVar var x s.host.vars },
      hc, fun hw => varsWfFrom_setVar _ _ _ 0 (Nat.zero_le _) hw, ?_⟩
    simp only [hostOp, e, thenHost, State.hostStore, State.hostAt]
  | wr off v =>
    obtain ⟨c, x, hc, e⟩ := access_quiet (a := .wr .word off v) h s
    refine ⟨c, { s.host with pc := s.host.pc + 1, rdata := x }, hc, fun hw => hw, ?_⟩
    simp only [hostOp, e, thenHost, State.hostAt]
  | branch c var f imm target =>
    exact ⟨s.cfg, (s.hostAt
      (if c.holds (f.of (getVar s.host.vars var)) imm then target else s.host.pc + 1)).host,
      .inl rfl, fun hw => hw, rfl⟩
  | jump target => exact ⟨s.cfg, { s.host with pc := target }, .inl rfl, fun hw => hw, rfl⟩
  | halt => exact ⟨s.cfg, s.host, .inl rfl, fun hw => hw, rfl⟩

/-- What a quiet step can do: it serves the engine, or changes only `CFG` and the host (R74, R80). -/
theorem step_quiet {s : State} (h : s.quietNext = true) :
    (∃ k, s.inputs.head? = some (.source k) ∧ step s = .next (sourceStep k s.popped)) ∨
    (s.inputs.head? = some .sink ∧ step s = .next (sinkStep s.popped)) ∨
    ∃ (c : Word) (k : HostState), (c = s.cfg ∨ ∃ v, c = cfgWritten v) ∧
      (s.host.wf = true → k.wf = true) ∧ step s = .next { s.popped with cfg := c, host := k } := by
  cases hi : s.inputs with
  | nil =>
    refine .inr (.inr ⟨s.cfg, s.host, .inl rfl, fun hw => hw, ?_⟩)
    simp [step, hi]
    rw [← hi]
  | cons i rest =>
    have hs : step s = takeInput i s.popped := by simp [step, State.popped, hi]
    rw [hs]
    cases i with
    | access a =>
      obtain ⟨c, x, hc, e⟩ := access_quiet (a := a) (by simpa [State.quietNext, hi, Input.quiet] using h) s.popped
      exact .inr (.inr ⟨c, { s.host with rdata := x }, hc, fun hw => hw, e⟩)
    | hostRun =>
      have ht : takeInput .hostRun s.popped = hostStep s.popped := rfl
      rw [ht, hostStep, show s.popped.host = s.host from rfl]
      cases ho : s.host.prog[s.host.pc]? with
      | none => exact .inr (.inr ⟨s.cfg, s.host, .inl rfl, fun hw => hw, rfl⟩)
      | some op =>
        have hq : op.quiet = true := by simpa [State.quietNext, hi, ho] using h
        obtain ⟨c, k, hc, hk, e⟩ := hostOp_quiet hq s.popped
        exact .inr (.inr ⟨c, k, hc, hk, e⟩)
    | source k => exact .inl ⟨k, by simp, rfl⟩
    | sink => exact .inr (.inl ⟨by simp, rfl⟩)
    | reset bytes pos => simp [State.quietNext, hi, Input.quiet] at h
    | streamIs bytes => simp [State.quietNext, hi, Input.quiet] at h

/-- An undisturbed step is quiet, answers a next state, and what follows is undisturbed. -/
theorem undisturbed_succ {k : Nat} {s : State} (h : undisturbed (k + 1) s = true) :
    s.quietNext = true ∧ ∃ t, step s = .next t ∧ undisturbed k t = true := by
  unfold undisturbed at h
  obtain ⟨hq, h⟩ := (Bool.and_eq_true _ _).mp h
  refine ⟨hq, ?_⟩
  split at h
  · exact ⟨_, ‹_›, h⟩
  · cases h
  · cases h

theorem core_run_next (M : Host.Core) (k : Nat) {s t : M.State} (h : M.step s = .next t) :
    M.run (k + 1) s = M.run k t := by
  simp only [Host.Core.run, h]

theorem core_run_fault (M : Host.Core) (k : Nat) {s : M.State} {r : M.Fault}
    (h : M.step s = .fault r) : M.run (k + 1) s = .fault r := by
  simp only [Host.Core.run, h]

theorem core_run_refused (M : Host.Core) (k : Nat) {s : M.State} {r : M.Refusal}
    (h : M.step s = .refused r) : M.run (k + 1) s = .refused r := by
  simp only [Host.Core.run, h]

theorem runSteps_next (k : Nat) {s t : State} (h : step s = .next t) :
    runSteps (k + 1) s = runSteps k t := by
  simp only [runSteps, h]

theorem runSteps_refused (k : Nat) {s : State} {r : Refusal} (h : step s = .refused r) :
    runSteps (k + 1) s = .refused r := by
  simp only [runSteps, h]

/-- The host's interface runs the machine by `runSteps`. -/
theorem core_run_eq_runSteps (k : Nat) (s : State) :
    Host.Core.run Sys2Proof.core k s = runSteps k s := by
  induction k generalizing s with
  | zero => rfl
  | succ k ih =>
    cases h : step s with
    | next t =>
      exact (core_run_next Sys2Proof.core k h).trans ((ih t).trans (runSteps_next k h).symm)
    | fault r => exact nomatch r
    | refused r =>
      exact (core_run_refused Sys2Proof.core k h).trans (runSteps_refused k h).symm

/-- Running on after running. -/
theorem runSteps_add (j k : Nat) (s : State) :
    runSteps (j + k) s =
      match runSteps j s with
      | .next t => runSteps k t
      | .fault r => .fault r
      | .refused r => .refused r := by
  induction j generalizing s with
  | zero => simp [runSteps]
  | succ j ih =>
    rw [Nat.add_right_comm]
    simp only [runSteps]
    cases step s with
    | next t => exact ih t
    | fault r => rfl
    | refused r => rfl

end Sys2Proof.Machine
end

