-- ==== Sys2Proof/Laws/Invariant.lean ====
section
/-! SUPPORT. Facts about single fields that the invariant gives, appended traces, the arithmetic of
the place and the flags, and steps that nobody awaits. -/

namespace Sys2Proof.Machine

/-! ### What the invariant says of single fields -/

/-- Before the end of a run there is neither a termination nor a fault to show. -/
theorem State.Inv.clear {s : State} (hi : s.Inv) (hd : s.phase ≠ .done) (he : s.phase ≠ .error) :
    s.term = .none ∧ s.eofResid = 0 ∧ s.errcode = .none ∧ s.errPos = 0 := by
  refine ⟨?_, ?_, ?_, hi.errPosPlace he⟩
  · by_contra h
    rcases hi.termPlace h with h | h <;> contradiction
  · by_contra h
    rcases hi.residPlace h with h | h <;> contradiction
  · by_contra h
    exact he (hi.errPlace.1 h)

/-- Outside TEXT no text byte is pending. -/
theorem State.Inv.pendTxt_eq_none {s : State} (hi : s.Inv) (hp : s.phase ≠ .text) :
    s.pendTxt = none := by
  cases h : s.pendTxt with
  | none => rfl
  | some b => exact absurd (hi.pending b h).1 hp

/-- At an end of stream the cursor is `N` (R166). -/
theorem State.Inv.cursor_eq_size {s : State} (hi : s.Inv) (h : s.memRead = none) :
    s.cursor.toNat = s.stream.size := by
  have h1 := (Memory.read_eq_none_iff hi.streamWf _).1 h
  have h2 := hi.cursorLe
  omega

/-- A byte that is read exists, so the cursor stays within the stream (R135). -/
theorem State.Inv.cursor_succ_le {s : State} (hi : s.Inv) {r : Byte} (h : s.memRead = some r) :
    (s.cursor + BitVec.ofNat 64 1).toNat ≤ s.stream.size := by
  have h1 := (Memory.read_isSome_iff hi.streamWf s.cursor.toNat).1 (by
    unfold State.memRead at h
    simp [h])
  rw [BitVec.toNat_add]
  exact (Nat.mod_le _ _).trans (by simpa using h1)

/-! ### Appended traces -/

theorem recordBytes_append (l m : List Event) :
    recordBytes (l ++ m) = recordBytes l + recordBytes m := by
  induction l with
  | nil => simp [recordBytes]
  | cons e l ih => cases e <;> simp [recordBytes, ih, BitVec.add_assoc]

theorem recordsOf_append (l m : List Event) : recordsOf (l ++ m) = recordsOf l ++ recordsOf m := by
  induction l with
  | nil => rfl
  | cons e l ih => cases e <;> simp [recordsOf, ih]

theorem textOf_append (l m : List Event) : textOf (l ++ m) = textOf l ++ textOf m := by
  induction l with
  | nil => rfl
  | cons e l ih => cases e <;> simp [textOf, ih]

/-! ### Arithmetic -/

/-- An index below the last one of its field goes up by 1 without wrapping. -/
theorem idx_succ {i : BitVec 3} {n : Nat} (h : i.toNat ≤ n) (h2 : i ≠ BitVec.ofNat 3 n) (hn : n < 8) :
    (i + 1).toNat ≤ n ∧ (i + 1).setWidth 64 = i.setWidth 64 + (1#64) := by
  have h3 : i.toNat ≠ n := by
    intro h
    apply h2
    apply BitVec.eq_of_toNat_eq
    simp [h]
    omega
  have h4 : (i + 1).toNat = i.toNat + 1 := by
    rw [BitVec.toNat_add]
    simp
    omega
  refine ⟨by omega, ?_⟩
  apply BitVec.eq_of_toNat_eq
  rw [BitVec.toNat_add, BitVec.toNat_setWidth, BitVec.toNat_setWidth, h4]
  simp

/-- The payload count goes down by no more than it holds. -/
theorem setWidth_sub {r : Word} {n : Nat} (h : n ≤ r.toNat) :
    (r - BitVec.ofNat 32 n).setWidth 64 = r.setWidth 64 - BitVec.ofNat 64 n := by
  have hr := r.isLt
  apply BitVec.eq_of_toNat_eq
  simp [BitVec.toNat_sub]
  omega

/-- The word of `REC_FLAGS` as R133 writes it. -/
theorem recFlagsWord_eq (m : TypeBytes) (x : Word) (b : Bool) :
    recFlagsWord m x b =
      (0x1 ||| (if x = 0x49454E44 then 0x2 else 0) ||| (if x = m.pack then 0x4 else 0)
        ||| (if x = m.pack ∧ b = true then 0x8 else 0)) := by
  have hI : iendType = 0x49454E44 := by decide
  have hb : ∀ y : Word, (x == y) = decide (x = y) := fun y => by simp [beq_eq_decide]
  have hc : ∀ (P : Prop) [Decidable P] (u v : Word),
      (if P then u else v) = bif decide P then u else v := by
    intro P _ u v
    by_cases h : P <;> simp [h]
  unfold recFlagsWord
  rw [hI, hb, hb, hc, hc, hc, Bool.decide_and]
  generalize decide (x = 0x49454E44) = d1
  generalize decide (x = m.pack) = d2
  revert d1 d2 b
  decide

/-- The reserved bits of `REC_FLAGS` (R30). -/
theorem recFlagsWord_reserved (m : TypeBytes) (x : Word) (b : Bool) :
    recFlagsWord m x b &&& 0xFFFFFFF0 = 0 := by
  unfold recFlagsWord
  generalize BitVec.ofBool (x == m.pack && b) = u
  generalize BitVec.ofBool (x == m.pack) = v
  generalize BitVec.ofBool (x == iendType) = w
  revert u v w
  decide

/-! ### Steps -/

/-- A step whose next input is an answer of the source is that micro-step. -/
theorem step_source {s t : State} (h : step s = .next t) (hs : s.sourceNext = true) :
    ∃ k, t = sourceStep k s.popped := by
  unfold State.sourceNext at hs
  split at hs
  · rename_i k hk
    unfold step at h
    split at h
    · rename_i hi
      simp [hi] at hk
    · rename_i i rest hi
      simp only [hi, List.head?_cons, Option.some.injEq] at hk
      subst hk
      have h : Host.Outcome.next (sourceStep k { s with inputs := rest }) = .next t := h
      refine ⟨k, ?_⟩
      simp only [State.popped, hi, List.tail_cons]
      exact (Host.Outcome.next.inj h).symm
  · cases hs

theorem step_cons_source (s : State) (k : Nat) (rest : List Input) :
    step { s with inputs := .source k :: rest } =
      .next (sourceStep k { s with inputs := rest }) := rfl

theorem step_cons_sink (s : State) (rest : List Input) :
    step { s with inputs := .sink :: rest } = .next (sinkStep { s with inputs := rest }) := rfl

/-- An answer of the source that nobody awaits (R143). -/
theorem sourceStep_quiet (k : Nat) {s : State} (h : s.awaitsSource = false) :
    sourceStep k s = s := by
  unfold State.awaitsSource at h
  unfold sourceStep
  split <;> rename_i hp <;> simp only [hp] at h <;> first | cases h | skip
  · rcases skipStep_cases k s with ⟨-, e⟩ | ⟨h0, -⟩ | ⟨h0, -⟩
    · exact e
    · exact absurd (by simpa using h) h0
    · exact absurd (by simpa using h) h0
  · rcases textReadStep_cases s with ⟨-, e⟩ | ⟨h0, h1, -⟩ | ⟨h0, h1, -⟩
    · exact e
    · exact absurd (by simpa [h1] using h) h0
    · exact absurd (by simpa [h1] using h) h0
  all_goals rfl

/-- An acceptance of the sink where no byte is offered (R143). -/
theorem sinkStep_quiet {s : State} (h : s.textOffered = none) : sinkStep s = s := by
  unfold State.textOffered at h
  unfold sinkStep
  split <;> rename_i hp <;> simp only [hp] at h
  · unfold textEmitStep
    rw [h]
  all_goals rfl

end Sys2Proof.Machine
end

