-- ==== Sys2Proof/Laws/PerInstr.lean ====
section
/-! SUPPORT. Statements made per instruction: what the encoding of each command is as syntax. -/

namespace Sys2Proof.Laws.LegalWord

/-- The command is well formed, its word passes both checks of a legal command word (R82, R84), and
the number of its table row is read as it. -/
def Statement (i : Instr) : Prop :=
  i.wf = true ∧ WellFormed.commandWord (encode i) = true ∧
    decodeTableWord 32 (encode i).toNat = some i

theorem sigchk : Statement .sigchk := by unfold Statement; decide

theorem next : Statement .next := by unfold Statement; decide

end Sys2Proof.Laws.LegalWord
end

