-- ==== Sys2Proof/Tests/Slice0.lean ====
section
/-! SUPPORT. The model's own tests. First the smoke tests of WellFormed, then words written out from
the spec's encodings, then single steps whose results stand in 95_test_vectors.md (the row is named),
then, for every statement with hypotheses, states that meet them. -/

namespace Sys2Proof.Machine.Tests

open Sys2Proof Sys2Proof.Machine

/-! ### Helpers -/

/-- The outcome is a next state of which `p` holds. -/
def answers (o : Host.Outcome State Fault Refusal) (p : State → Bool) : Bool :=
  match o with
  | .next t => p t
  | .fault _ => false
  | .refused _ => false

/-- The outcome is this refusal. -/
def refuses (o : Host.Outcome State Fault Refusal) (r : Refusal) : Bool :=
  match o with
  | .next _ => false
  | .fault _ => false
  | .refused q => decide (q = r)

/-- What `answers` says as a statement. -/
theorem exists_of_answers {o : Host.Outcome State Fault Refusal} {p : State → Bool}
    (h : answers o p = true) : ∃ t, o = .next t ∧ p t = true := by
  unfold answers at h
  split at h
  · exact ⟨_, rfl, h⟩
  · cases h
  · cases h

/-- A textual record of 2 bytes: `00000002 74455874 48 69 01020304`. -/
def textRecord : List Byte :=
  [0, 0, 0, 2, 0x74, 0x45, 0x58, 0x74, 0x48, 0x69, 1, 2, 3, 4]

/-- The terminal record of S1. -/
def endRecord : List Byte := [0, 0, 0, 0, 0x49, 0x45, 0x4E, 0x44, 0, 0, 0, 0]

/-- A stream of the signature, the textual record and the terminal record: 34 bytes. -/
def file : List Byte := signature ++ textRecord ++ endRecord

/-- The engine in a phase, on these bytes, with the cursor at `c`. -/
def at_ (bytes : List Byte) (phase : Phase) (idx : BitVec 3) (c : Position) : State :=
  { State.reset with stream := Memory.ofBytes bytes, phase := phase, idx := idx, cursor := c }

/-- IDLE on `file`. -/
def idle : State := at_ file .idle 0 0

/-- SIG, about to read byte 7. -/
def sig7 : State := at_ file .sig 7 7

/-- READY after the signature of `bytes`. -/
def readyOn (bytes : List Byte) : State :=
  { at_ bytes .ready 0 8 with sigOk := true, trace := [.sigOk] }

/-- READY on `file`. -/
def ready : State := readyOn file

/-- LEN with `i` bytes of the length read. -/
def lenOn (bytes : List Byte) (i : BitVec 3) : State :=
  { at_ bytes .len i (8 + i.setWidth 64) with sigOk := true, recStart := 8, trace := [.sigOk] }

/-- TYPE with `i` bytes of the type read, of a record of `len` payload bytes. -/
def typeOn (bytes : List Byte) (len : Word) (i : BitVec 3) (acc : Word) : State :=
  { at_ bytes .type i (12 + i.setWidth 64) with
    sigOk := true, recStart := 8, curLen := len, acc := acc, trace := [.sigOk] }

/-- SKIP at the start of the textual record's payload, text not requested. -/
def skipOn (bytes : List Byte) : State :=
  { at_ bytes .skip 0 16 with
    sigOk := true, recStart := 8, curLen := 2, curType := 0x74455874, rem := 2, trace := [.sigOk] }

/-- TEXT at the start of the textual record's payload. -/
def textOn (bytes : List Byte) : State :=
  { skipOn bytes with phase := .text, textReq := true, cfg := 1 }

/-- TEXT with the first payload byte read and not yet accepted. -/
def textPending : State := { textOn file with cursor := 17, pendTxt := some 0x48 }

/-- CRC of the textual record with `i` bytes of the checksum read. -/
def crcOn (bytes : List Byte) (i : BitVec 3) (acc : Word) : State :=
  { at_ bytes .crc i (18 + i.setWidth 64) with
    sigOk := true, recStart := 8, curLen := 2, curType := 0x74455874, acc := acc,
    trace := [.sigOk] }

/-- CRC of a terminal record right after the signature, 3 bytes of the checksum read. -/
def crcEnd : State :=
  { at_ (signature ++ endRecord) .crc 3 19 with
    sigOk := true, recStart := 8, curType := 0x49454E44, trace := [.sigOk] }

/-- DONE by a clean end right after the signature. -/
def done : State :=
  { at_ signature .done 0 8 with
    sigOk := true, term := .cleanEof, recStart := 8, trace := [.sigOk, .ended .cleanEof] }

/-- ERROR after a NEXT in IDLE. -/
def failed : State :=
  { at_ file .error 0 0 with errcode := .cmdSeq, trace := [.fault .cmdSeq 0] }

/-- `s` with these inputs. -/
def given (s : State) (xs : List Input) : State := { s with inputs := xs }

/-- The place of the invariant, as a check. -/
def placeCheck (s : State) : Bool :=
  match s.phase with
  | .idle => decide (s.idx = 0 ∧ s.cursor = 0 ∧ s.sigOk = false)
  | .sig => decide (s.cursor = s.idx.setWidth 64 ∧ s.sigOk = false)
  | .ready => decide (s.idx = 0 ∧ s.sigOk = true)
  | .len =>
    decide (s.idx.toNat ≤ 3 ∧ s.sigOk = true ∧ s.curLen = 0 ∧ s.curType = 0 ∧
      s.cursor = s.recStart + s.idx.setWidth 64)
  | .type =>
    decide (s.idx.toNat ≤ 3 ∧ s.sigOk = true ∧ s.curType = 0 ∧
      s.cursor = s.recStart + 4 + s.idx.setWidth 64)
  | .skip =>
    decide (s.idx = 0 ∧ s.sigOk = true ∧ s.rem ≠ 0 ∧
      ¬ (s.curType = s.params.textMarker.pack ∧ s.textReq = true) ∧
      s.cursor + s.rem.setWidth 64 = s.recStart + 8 + s.curLen.setWidth 64)
  | .text =>
    decide (s.idx = 0 ∧ s.sigOk = true ∧ s.rem ≠ 0 ∧
      s.curType = s.params.textMarker.pack ∧ s.textReq = true ∧
      s.cursor + s.rem.setWidth 64 =
        s.recStart + 8 + s.curLen.setWidth 64 + (if s.pendTxt.isSome then 1 else 0))
  | .crc =>
    decide (s.idx.toNat ≤ 3 ∧ s.sigOk = true ∧
      s.cursor = s.recStart + 8 + s.curLen.setWidth 64 + s.idx.setWidth 64)
  | .done => decide (s.idx = 0 ∧ s.sigOk = true ∧ s.term ≠ .none)
  | .error => decide (s.idx = 0)

/-- The invariant, as a check. -/
def invCheck (s : State) : Bool :=
  placeCheck s &&
  decide (s.stream.wf = true ∧ s.cursor.toNat ≤ s.stream.size ∧ s.cfg &&& 0xFFFFFFFE = 0 ∧
    s.recFlags &&& 0xFFFFFFF0 = 0 ∧ (s.term ≠ .none → s.phase = .done ∨ s.phase = .error) ∧
    (s.eofResid ≠ 0 → s.phase = .done ∨ s.phase = .error) ∧
    (s.errcode ≠ .none ↔ s.phase = .error) ∧ (s.phase ≠ .error → s.errPos = 0) ∧
    s.host.wf = true ∧ s.stream.size < 2 ^ 64) &&
  (match s.pendTxt with
    | none => true
    | some b => decide (s.phase = .text ∧ s.stream.read (s.cursor - 1).toNat = some b))

theorem placeOk_of_check {s : State} (h : placeCheck s = true) : s.placeOk := by
  unfold placeCheck at h
  unfold State.placeOk
  cases hp : s.phase <;> simp only [hp] at h ⊢ <;> exact of_decide_eq_true h

/-- A state that passes the check is sound. -/
theorem sound_of_check {s : State} (h : invCheck s = true) : s.Sound := by
  unfold invCheck at h
  obtain ⟨h, h3⟩ := (Bool.and_eq_true _ _).mp h
  obtain ⟨h1, h2⟩ := (Bool.and_eq_true _ _).mp h
  obtain ⟨a, b, c, d, e, f, g, i, j, k⟩ := of_decide_eq_true h2
  refine ⟨⟨a, b, placeOk_of_check h1, c, d, e, f, g, i, ?_, j⟩, k⟩
  intro b hb
  rw [hb] at h3
  exact of_decide_eq_true h3

/-! ### WellFormed refuses what is not well formed -/

/-- R82: `RSV = 1`. -/
theorem test_wf_rsvZero : WellFormed.rsvZero 0x00000012 = false := by decide

/-- R82: the highest reserved bit. -/
theorem test_wf_rsvZero_top : WellFormed.rsvZero 0x80000001 = false := by decide

/-- R84: the opcodes 0x0, 0x3 and 0xF. -/
theorem test_wf_opDefined :
    WellFormed.opDefined 0x00000000 = false ∧ WellFormed.opDefined 0x00000003 = false ∧
      WellFormed.opDefined 0x0000000F = false := by decide

/-- R85: a word fails if either check fails. -/
theorem test_wf_commandWord :
    WellFormed.commandWord 0x00000012 = false ∧ WellFormed.commandWord 0x00000003 = false ∧
      WellFormed.commandWord 0x00000001 = true ∧ WellFormed.commandWord 0x00000002 = true := by
  decide

/-- R191: a stream attached at address 1. -/
theorem test_wf_launchPosition :
    WellFormed.launchPosition 1 = false ∧ WellFormed.launchPosition 0 = true := by decide

/-- R64: byte and half-word accesses at aligned offsets. -/
theorem test_wf_wordWide :
    (Access.rd .byte 0x08).wordWide = false ∧ (Access.wr .half 0x04 1).wordWide = false ∧
      (Access.rd .byte 0x08).wf = false := by decide

/-- R64: a word access at 0x09, and at 0xFE, the last that does not fit. -/
theorem test_wf_aligned :
    (Access.rd .word 0x09).aligned = false ∧ (Access.wr .word 0xFE 0).aligned = false ∧
      (Access.rd .word 0xFC).wf = true := by decide

/-- Every command is well formed, having no operand. -/
theorem test_wf_instr : Instr.wf .sigchk = true ∧ Instr.wf .next = true := by decide

/-! ### Encodings written out -/

/-- R84: `SIGCHK` is `RSV = 0`, `OP = 0001`. -/
theorem test_decode_sigchk :
    (decode (0b0000000000000000000000000000_0001 : Word)).toOption = some .sigchk := by decide

/-- R84: `NEXT` is `RSV = 0`, `OP = 0010`. -/
theorem test_decode_next :
    (decode (0b0000000000000000000000000000_0010 : Word)).toOption = some .next := by decide

/-- R85, R96: reserved opcodes and reserved bits are no command. -/
theorem test_decode_illegal :
    (decode 0x00000000).toOption = none ∧ (decode 0x0000000F).toOption = none ∧
      (decode 0x00000012).toOption = none ∧ (decode 0x80000002).toOption = none := by decide

/-- The encoder gives the words of R84. -/
theorem test_encode : encode .sigchk = 0x00000001 ∧ encode .next = 0x00000002 := by decide

/-- Rows of the opcode table, by their numbers. -/
theorem test_decodeTableWord :
    decodeTableWord 32 1 = some .sigchk ∧ decodeTableWord 32 2 = some .next ∧
      decodeTableWord 32 3 = none := by decide

/-- R86's examples. -/
theorem test_pack :
    Config.iend.pack = 0x49454E44 ∧ (TypeBytes.mk 0x49 0x48 0x44 0x52).pack = 0x49484452 := by
  decide

/-- R87: the terminal record of S1, from its fields. -/
theorem test_wire_record :
    WireRecord.encode ⟨⟨0x49, 0x45, 0x4E, 0x44⟩, [], 0⟩ = endRecord := by decide

/-! ### Single steps from the spec's vectors -/

/-- The last step of G8: byte 7 of the signature. -/
theorem test_sigchk_completes :
    answers (step (given sig7 [.source 1])) (fun t =>
      t.statusWord == 0x00000202 && t.cursor == 8 && t.trace == [.sigOk]) = true := by decide

/-- The only micro-step of G1: an empty stream. -/
theorem test_sigchk_empty_stream :
    answers (step (given (at_ [] .sig 0 0) [.source 1])) (fun t =>
      t.statusWord == 0x00001908 && t.errPos == 0) = true := by decide

/-- The last step of N1, on the stream of S1: the 4th checksum byte. -/
theorem test_next_completes :
    answers
      (step (given
        ({ at_ (signature ++ [0, 0, 0, 0, 0x49, 0x48, 0x44, 0x52, 0, 0, 0, 0] ++ endRecord) .crc 3 19
            with sigOk := true, recStart := 8, curType := 0x49484452 } : State) [.source 1]))
      (fun t => t.recLen == 0 && t.recType == 0x49484452 && t.recFlags == 0x1 && t.count == 1 &&
        t.recStartLast == 8 && t.cursor == 20 && t.phase == .ready) = true := by decide

/-- A5: NEXT from IDLE. -/
theorem test_next_out_of_order :
    answers (step (given idle [commandInput 0x00000002])) (fun t =>
      t.statusWord == 0x00008908 && t.errPos == 0) = true := by decide

/-- A1, and A7: the same word while BUSY. -/
theorem test_illegal_word :
    answers (submit 0x00000012 idle) (fun t => t.statusWord == 0x00007908) = true ∧
      answers (submit 0x00000012 sig7) (fun t => t.statusWord == 0x00009908) = true := by decide

/-- A10. -/
theorem test_cfg :
    answers (access (.wr .word 0x04 0xFFFFFFFF) idle) (fun t => t.readOffset 0x04 == 1) = true := by
  decide

/-- A13, and a misaligned word access. -/
theorem test_refused_access :
    refuses (access (.rd .byte 0x09) idle) .subWordAccess = true ∧
      refuses (access (.rd .word 0x09) idle) .misalignedAccess = true := by decide

/-- X3: reset in ERROR. -/
theorem test_reset_in_error :
    answers (step (given failed [.reset file 0])) (fun t =>
      t.statusWord == 0 && t.phase == .idle && t.trace == []) = true := by decide

/-- The row's word is run by the very next step (R88): SIGCHK from reset enters SIG. -/
theorem test_withFetchWord :
    answers (step (State.reset.withFetchWord 32 1)) (fun t => t.statusWord == 0x00000101) = true := by
  decide

/-- N15, N6 and N11 through `decodeNext`: the spec's own function, on the spec's own vectors. -/
theorem test_decodeNext :
    decodeNext Config.defaults
        (Memory.ofBytes (signature ++
          [0, 0, 0, 3, 0x49, 0x45, 0x4E, 0x44, 0xAA, 0xBB, 0xCC, 1, 2, 3, 4, 0xFF])) 8 false
      = .record 23 3 0x49454E44 0x01020304 0x3 [] true ∧
    decodeNext { Config.defaults with strictLenEof := true }
        (Memory.ofBytes (signature ++ [0, 0])) 8 false = .truncLen 10 2 ∧
    decodeNext Config.defaults
        (Memory.ofBytes (signature ++ [0, 0, 0, 0xA, 0x74, 0x45, 0x58, 0x74, 0x61, 0x62, 0x63])) 8
        true = .truncPayload 19 0xA 0x74455874 [0x61, 0x62, 0x63] := by decide

/-- R8: numbers in both bases, a digit that is none of its base, and the largest and the first too
large 32-bit immediate. -/
theorem test_numbers :
    number "37".toList = some 37 ∧ number "0xCAFEBABE".toList = some 0xCAFEBABE ∧
      number "0x1f".toList = some 31 ∧ number "1A".toList = none ∧ number "0xG".toList = none ∧
      imm32 "0xFFFFFFFF".toList = some 0xFFFFFFFF ∧ imm32 "4294967296".toList = none := by decide

/-- R95: the text of a `WAIT` loop assembles to its expansion. -/
theorem test_assemble :
    assembleText "w1: RD t, STATUS ; poll\n BNE t.BUSY, 0, w1\nHALT" =
      some [.rd 0 0x08, .branch .ne 0 .busy 0 0, .halt] := by decide

/-! ### Witnesses: the statements' hypotheses are met -/

/-- The clause on illegal words: no fault, not busy, an illegal word. -/
theorem witness_OnlyTwoWordsAreCommands :
    decode 0x00000000 = .error .reservedOpcode ∧ idle.phase ≠ .error ∧ idle.phase.busy = false :=
  ⟨rfl, by decide, by decide⟩

theorem witness_WireRecordRoundTrip :
    WireRecord.wf ⟨⟨0x74, 0x45, 0x58, 0x74⟩, [0x48, 0x69], 0x01020304⟩ = true := by decide

/-- One state and word for each line of R88. -/
theorem witness_CommandWriteFirstMatchingLine :
    (given failed [commandInput 0x00000001]).inputs = commandInput 0x00000001 :: [] ∧
    failed.phase = .error ∧ sig7.phase.busy = true ∧
    WellFormed.commandWord 0x00000012 = false ∧ idle.phase = .idle ∧ ready.phase = .ready := by
  decide

/-- As a bus access, and as a statement of the host's program. -/
theorem witness_StepRunsDecodedCommand :
    decode 0x00000001 = .ok .sigchk ∧ decode 0x00000002 = .ok .next ∧
    (given ready [commandInput 0x00000002]).inputs = commandInput 0x00000002 :: [] ∧
    (given ready [.hostRun]).inputs = .hostRun :: [] ∧
    (({ ready with host := { HostState.initial with prog := [.wr 0x00 0x00000002] } } : State).host.prog[0]?
      = some (.wr 0x00 0x00000002)) := by
  refine ⟨rfl, rfl, by decide, by decide, by decide⟩

theorem witness_SigchkAcceptance :
    idle.phase = .idle ∧ ready.phase = .ready ∧ done.phase = .done ∧ sig7.phase.busy = true ∧
      (crcOn file 3 0).phase.busy = true ∧ failed.phase = .error := by decide

theorem witness_NextAcceptance :
    ready.phase = .ready ∧ ready.Inv ∧ idle.phase = .idle ∧ done.phase = .done :=
  ⟨rfl, (sound_of_check (by decide)).inv, rfl, rfl⟩

theorem witness_SigchkCompletes :
    idle.Sound ∧ idle.phase = .idle ∧ 8 ≤ idle.stream.size ∧
      idle.stream.bytes.take 8 = signature ∧ (List.replicate 8 0).length = 8 :=
  ⟨sound_of_check (by decide), rfl, by decide, by decide, by decide⟩

/-- IDLE on these bytes, with a host that polls: a `WAIT` loop. -/
def polled (bytes : List Byte) : State :=
  { at_ bytes .idle 0 0 with
    host := { HostState.initial with prog := [.rd 0 0x08, .branch .ne 0 .busy 0 0] } }

/-- Eight answers of the source, with a polling host, a read and a `CFG` write between them, and one
answer more than is needed. -/
def polls : List Input :=
  [.source 1, .hostRun, .sink, .source 1, .hostRun, .access (.rd .word 0x28), .source 1, .source 1,
    .access (.wr .word 0x04 1), .source 1, .source 1, .hostRun, .source 1, .source 1, .source 1]

/-- The three outcomes, at 7 bytes, at 8 wrong bytes and at exactly the signature; for each a run with
a polling host, and one of source and sink only. -/
theorem witness_SigchkOutcome :
    (polled (signature.take 7)).Sound ∧ (polled (signature.take 7)).stream.size < 8 ∧
    (polled (List.replicate 8 0)).Sound ∧ 8 ≤ (polled (List.replicate 8 0)).stream.size ∧
    (polled (List.replicate 8 0)).stream.bytes.take 8 ≠ signature ∧
    (polled signature).Sound ∧ 8 ≤ (polled signature).stream.size ∧
    (polled signature).stream.bytes.take 8 = signature ∧ (polled signature).phase = .idle ∧
    (List.replicate 9 (Input.source 1)).all Input.serves = true ∧
    ∀ bytes ∈ [signature.take 7, List.replicate 8 0, signature],
      ∀ xs ∈ [polls, List.replicate 9 (.source 1)],
        answers (step (given (polled bytes) (commandInput 0x00000001 :: xs)))
          (fun u => undisturbed xs.length u &&
            answers (runSteps xs.length u) (fun t => !t.phase.busy)) = true :=
  ⟨sound_of_check (by decide), by decide, sound_of_check (by decide), by decide, by decide,
    sound_of_check (by decide), by decide, by decide, rfl, by decide, by decide⟩

/-- A textual record with the text requested, one with it not requested, and the terminal record;
the last two fit exactly. -/
theorem witness_NextCompletesRecord :
    ({ ready with cfg := 1 } : State).Sound ∧ ready.Sound ∧ ready.phase = .ready ∧
    12 + (ready.stream.be32At 8).toNat ≤ ready.available ∧
    (readyOn (signature ++ textRecord)).Sound ∧
    12 + ((readyOn (signature ++ textRecord)).stream.be32At 8).toNat
      = (readyOn (signature ++ textRecord)).available ∧
    (readyOn (signature ++ endRecord)).Sound ∧
    12 + ((readyOn (signature ++ endRecord)).stream.be32At 8).toNat
      = (readyOn (signature ++ endRecord)).available :=
  ⟨sound_of_check (by decide), sound_of_check (by decide), rfl, by decide,
    sound_of_check (by decide), by decide, sound_of_check (by decide), by decide⟩

/-- A stream that ends right after the signature: one answer of the source ends NEXT, with a read and
a `CFG` write before it, or nothing. -/
theorem witness_NextOutcomeIsDecodeNext :
    (readyOn signature).Sound ∧ (readyOn signature).phase = .ready ∧
    ([.source 1] : List Input).all Input.serves = true ∧
    ∀ xs ∈ [[.access (.rd .word 0x08), .access (.wr .word 0x04 1), .source 1], [.source 1]],
      answers (step (given (readyOn signature) (commandInput 0x00000002 :: xs)))
        (fun u => undisturbed xs.length u &&
          answers (runSteps xs.length u) (fun t => !t.phase.busy)) = true :=
  ⟨sound_of_check (by decide), rfl, by decide, by decide⟩

/-- CRC with one byte left, and the fewest rounds the statement takes, with a read in each. -/
theorem witness_FairServiceEndsCommand :
    (crcOn (signature ++ textRecord) 3 0).Sound ∧
    (crcOn (signature ++ textRecord) 3 0).phase.busy = true ∧
    (List.replicate 4 [Input.source 1, .access (.rd .word 0x08), .sink]).all fairRound = true ∧
    2 * (crcOn (signature ++ textRecord) 3 0).available + 2 ≤
      (List.replicate 4 [Input.source 1, .access (.rd .word 0x08), .sink]).length :=
  ⟨sound_of_check (by decide), rfl, by decide, by decide⟩

/-- No record, and one terminal record; in both every NEXT of `n` is issued. -/
theorem witness_RecordListRoundTrip :
    (wireStream []).length < 2 ^ 64 ∧
    (∀ b ∈ [List.replicate 18 [Input.source 1, .sink], List.replicate 18 [Input.sink, .source 1]],
      b.all fairRound = true ∧ 2 * (wireStream []).length + 2 ≤ b.length) ∧
    (WireRecord.wf ⟨Config.iend, [], 0⟩ = true ∧ WireRecord.terminal ⟨Config.iend, [], 0⟩ = true) ∧
    (wireStream [⟨Config.iend, [], 0⟩]).length < 2 ^ 64 ∧
    (∀ b ∈ [List.replicate 42 [Input.source 1, .sink], List.replicate 42 [Input.sink, .source 1]],
      b.all fairRound = true ∧ 2 * (wireStream [⟨Config.iend, [], 0⟩]).length + 2 ≤ b.length) := by
  decide

/-- A stream fault, SIG_MISMATCH, and TRUNC_LEN in strict mode. -/
theorem witness_FaultEntry :
    (given (typeOn (file.take 14) 2 2 0) [.source 1]).Inv ∧
    answers (step (given (typeOn (file.take 14) 2 2 0) [.source 1]))
      (fun t => t.phase == .error && t.errcode == .truncType) = true ∧
    (given { sig7 with sigBad := true } [.source 1]).Inv ∧
    answers (step (given { sig7 with sigBad := true } [.source 1]))
      (fun t => t.phase == .error && t.errcode == .sigMismatch) = true ∧
    (given { lenOn (file.take 11) 3 with params := ⟨Config.defaults.textMarker, true⟩ }
      [.source 1]).Inv ∧
    answers (step (given { lenOn (file.take 11) 3 with params := ⟨Config.defaults.textMarker, true⟩ }
      [.source 1])) (fun t => t.phase == .error && t.errcode == .truncLen && t.eofResid == 3)
      = true :=
  ⟨(sound_of_check (by decide)).inv, by decide, (sound_of_check (by decide)).inv, by decide,
    (sound_of_check (by decide)).inv, by decide⟩

/-- With a command written, and with a reset. -/
theorem witness_ErrorIsSticky :
    failed.phase = .error ∧ (given failed [commandInput 0x00000001]).resetNext = false ∧
    answers (step (given failed [commandInput 0x00000001])) (fun _ => true) = true ∧
    (given failed [.reset [] 0]).resetNext = true ∧
    answers (step (given failed [.reset [] 0])) (fun _ => true) = true := by decide

theorem witness_DoneIsFinal :
    done.phase = .done ∧ (given done [commandInput 0x00000002]).resetNext = false ∧
    answers (step (given done [commandInput 0x00000002])) (fun t => t.errcode == .cmdSeq) = true := by
  decide

/-- One state for each clause: SIG at byte 7, LEN at 0 and at 3 bytes, strict mode at 1 byte, TYPE,
SKIP, TEXT and CRC, each at the end of its stream. -/
theorem witness_EndOfStreamByPhase :
    (∀ s ∈ [at_ (file.take 7) .sig 7 7, lenOn signature 0, lenOn (file.take 11) 3,
        { lenOn (file.take 9) 1 with params := ⟨Config.defaults.textMarker, true⟩ },
        typeOn (file.take 12) 2 0 0, skipOn (file.take 16), textOn (file.take 16),
        crcOn (file.take 21) 3 0],
      (given s [.source 1]).Inv ∧ s.memRead = none) ∧
    (given (lenOn signature 0) [.source 1]).sourceNext = true := by
  refine ⟨?_, by decide⟩
  simp only [List.forall_mem_cons]
  exact ⟨⟨(sound_of_check (by decide)).inv, by decide⟩, ⟨(sound_of_check (by decide)).inv, by decide⟩,
    ⟨(sound_of_check (by decide)).inv, by decide⟩, ⟨(sound_of_check (by decide)).inv, by decide⟩,
    ⟨(sound_of_check (by decide)).inv, by decide⟩, ⟨(sound_of_check (by decide)).inv, by decide⟩,
    ⟨(sound_of_check (by decide)).inv, by decide⟩, ⟨(sound_of_check (by decide)).inv, by decide⟩,
    fun _ h => nomatch h⟩

theorem witness_CommandFaultsKeepTheRest :
    sig7.phase.busy = true ∧ textPending.phase.busy = true ∧ idle.Inv ∧ ready.Inv ∧ done.Inv ∧
    answers (submit 0x00000012 idle) (fun t => t.phase == .error) = true ∧
    answers (submit 0x00000001 ready) (fun t => t.phase == .error) = true ∧
    answers (submit 0x00000002 done) (fun t => t.phase == .error) = true :=
  ⟨rfl, rfl, (sound_of_check (by decide)).inv, (sound_of_check (by decide)).inv,
    (sound_of_check (by decide)).inv, by decide, by decide, by decide⟩

theorem witness_ResetFromAnyState :
    (given textPending [.reset file 0]).inputs = .reset file 0 :: [] ∧
    done.phase = .done ∧ failed.phase = .error ∧ (given done [.source 1]).resetNext = false ∧
    answers (step (given done [.source 1])) (fun _ => true) = true := by decide

/-- READY after the signature, with `SIGOK` on the trace. -/
theorem witness_TraceAgrees : ready.TraceAgrees := by
  refine ⟨by decide, ⟨rfl, rfl, rfl, rfl⟩, by decide, ?_, ?_⟩
  · intro t
    cases t <;> decide
  · rw [if_neg (by decide)]
    decide

/-- A state at DONE whose registers agree with its trace. -/
theorem witness_DoneMeansNoFaultRecorded : done.TraceAgrees ∧ done.phase = .done := by
  refine ⟨⟨by decide, ⟨rfl, rfl, rfl, rfl⟩, by decide, ?_, ?_⟩, rfl⟩
  · intro t
    cases t <;> decide
  · rw [if_neg (by decide)]
    decide

/-- A state of every phase has the invariant, and a step of it answers a next state. -/
theorem witness_StepKeepsInv :
    (∀ s ∈ [idle, sig7, ready, lenOn file 3, typeOn file 2 3 0x744558, skipOn file, textOn file,
        textPending, crcOn file 3 0x010203, done, failed],
      (given s [.source 1]).Inv ∧ answers (step (given s [.source 1])) (fun _ => true) = true) := by
  simp only [List.forall_mem_cons]
  exact ⟨⟨(sound_of_check (by decide)).inv, by decide⟩, ⟨(sound_of_check (by decide)).inv, by decide⟩,
    ⟨(sound_of_check (by decide)).inv, by decide⟩, ⟨(sound_of_check (by decide)).inv, by decide⟩,
    ⟨(sound_of_check (by decide)).inv, by decide⟩, ⟨(sound_of_check (by decide)).inv, by decide⟩,
    ⟨(sound_of_check (by decide)).inv, by decide⟩, ⟨(sound_of_check (by decide)).inv, by decide⟩,
    ⟨(sound_of_check (by decide)).inv, by decide⟩, ⟨(sound_of_check (by decide)).inv, by decide⟩,
    ⟨(sound_of_check (by decide)).inv, by decide⟩, fun _ h => nomatch h⟩

theorem witness_ResetHasInv :
    ({ idle with host := { HostState.initial with vars := [(0, 1), (2, 5)] } } : State).host.wf = true := by
  decide

/-- The step that completes a record. -/
theorem witness_CursorAccounting :
    (given (crcOn file 3 0x010203) [.source 1]).Inv ∧
    (given (crcOn file 3 0x010203) [.source 1]).accounted ∧
    answers (step (given (crcOn file 3 0x010203) [.source 1]))
      (fun t => t.cursor == 8 + recordBytes t.trace) = true :=
  ⟨(sound_of_check (by decide)).inv, (by decide : (8 : Position) = 8 + recordBytes [.sigOk]), by decide⟩

theorem witness_StepKeepsTraceAgreement :
    ready.Inv ∧ ready.TraceAgrees ∧
    answers (step (given ready [commandInput 0x00000002])) (fun t => t.phase == .len) = true :=
  ⟨(sound_of_check (by decide)).inv, witness_TraceAgrees, by decide⟩

theorem witness_RecordAdvancesTwelvePlusLength :
    (given (crcOn file 3 0x010203) [.source 1]).Inv ∧
    (given (crcOn file 3 0x010203) [.source 1]).sourceNext = true ∧
    (crcOn file 3 0x010203).phase = .crc ∧ (crcOn file 3 0x010203).idx = 3 ∧
    (crcOn file 3 0x010203).memRead ≠ none :=
  ⟨(sound_of_check (by decide)).inv, by decide, rfl, rfl, by decide⟩

/-- The lowest and the highest reserved offset, an aligned offset, and the first past `CFG`. -/
theorem witness_RegisterMap :
    0x40 ≤ (0x40 : BitVec 8).toNat ∧ 0x40 ≤ (0xFC : BitVec 8).toNat ∧
    (0xFC : BitVec 8).toNat % 4 = 0 ∧ (0x08 : BitVec 8).toNat % 4 = 0 ∧ 8 ≤ (0x08 : BitVec 8).toNat := by
  decide

theorem witness_OtherAccessesRefused :
    (Access.wr .word 0xFC 0).width = .word ∧ (Access.wr .word 0xFC 0).offset.toNat % 4 = 0 ∧
    (Access.rd .half 0x08).width ≠ .word ∧ (Access.rd .word 0x01).width = .word ∧
    (Access.rd .word 0x01).offset.toNat % 4 ≠ 0 := by decide

theorem witness_CfgWriteAndSampling :
    ready.Inv ∧ ready.phase = .ready ∧ answers (exec .next ready) (fun _ => true) = true ∧
    (given sig7 [.access (.wr .word 0x04 1)]).resetNext = false ∧ sig7.phase.busy = true ∧
    answers (step (given sig7 [.access (.wr .word 0x04 1)])) (fun _ => true) = true :=
  ⟨(sound_of_check (by decide)).inv, rfl, by decide, by decide, rfl, by decide⟩

/-- The 3rd checksum byte: not the completing one. -/
theorem witness_RecordRegistersChangeOnlyAtCompletion :
    (given (crcOn file 2 0x0102) [.source 1]).resetNext = false ∧
    ¬ ((crcOn file 2 0x0102).idx = 3) ∧
    answers (step (given (crcOn file 2 0x0102) [.source 1])) (fun _ => true) = true := by decide

/-- A record that goes on and one that terminates. -/
theorem witness_RecordCompletion :
    (given (crcOn file 3 0x010203) [.source 1]).sourceNext = true ∧
    (crcOn file 3 0x010203).phase = .crc ∧ (crcOn file 3 0x010203).idx = 3 ∧
    (crcOn file 3 0x010203).memRead = some 4 ∧
    answers (step (given (crcOn file 3 0x010203) [.source 1])) (fun t => t.phase == .ready) = true ∧
    crcEnd.memRead = some 0 ∧
    answers (step (given crcEnd [.source 1])) (fun t => t.phase == .done) = true := by decide

/-- Acceptance, the 4th length byte, the 4th type byte, and a step of none of these. -/
theorem witness_CurrentFieldRegisters :
    (given ready [commandInput 0x00000002]).resetNext = false ∧
    answers (step (given ready [commandInput 0x00000002])) (fun t => t.phase == .len) = true ∧
    (given (lenOn file 3) [.source 1]).sourceNext = true ∧ (lenOn file 3).memRead = some 2 ∧
    answers (step (given (lenOn file 3) [.source 1])) (fun _ => true) = true ∧
    (typeOn file 2 3 0x744558).memRead = some 0x74 ∧
    answers (step (given (typeOn file 2 3 0x744558) [.source 1])) (fun _ => true) = true ∧
    (lenOn file 2).idx ≠ 3 ∧
    answers (step (given (lenOn file 2) [.source 1])) (fun _ => true) = true := by decide

/-- The three ways on: no payload, a payload to skip, a payload to materialise. -/
theorem witness_PayloadSelection :
    (given (typeOn file 0 3 0x744558) [.source 1]).sourceNext = true ∧
    (typeOn file 0 3 0x744558).memRead = some 0x74 ∧
    answers (step (given (typeOn file 0 3 0x744558) [.source 1])) (fun t => t.phase == .crc) = true ∧
    answers (step (given (typeOn file 2 3 0x744558) [.source 1])) (fun t => t.phase == .skip) = true ∧
    answers (step (given { typeOn file 2 3 0x744558 with textReq := true } [.source 1]))
      (fun t => t.phase == .text) = true := by decide

/-- A reset, a step of the host, an end of stream, a byte, and a skip of the whole payload. -/
theorem witness_CursorMoves :
    (given (skipOn file) [.source 2]).Sound ∧ (given (skipOn file) [.reset file 0]).resetNext = true ∧
    answers (step (given (skipOn file) [.reset file 0])) (fun _ => true) = true ∧
    (given (skipOn file) [.hostRun]).sourceNext = false ∧
    answers (step (given (skipOn file) [.hostRun])) (fun _ => true) = true ∧
    (given (lenOn file 0) [.source 1]).Sound ∧ (lenOn file 0).awaitsSource = true ∧
    (lenOn file 0).memRead ≠ none ∧ (skipOn file).awaitsSource = true ∧ (skipOn file).memRead ≠ none ∧
    answers (step (given (skipOn file) [.source 2])) (fun t => t.cursor == 18) = true :=
  ⟨sound_of_check (by decide), by decide, by decide, by decide, by decide,
    sound_of_check (by decide), by decide, by decide, by decide, by decide, by decide⟩

theorem witness_StreamAndParametersFixed :
    answers (step (given (skipOn file) [.source 1])) (fun _ => true) = true ∧
    (given (skipOn file) [.source 1]).resetNext = false := by decide

/-- The end of the stream at its last byte and one past it; a source that changed. -/
theorem witness_EndOfStreamIsPermanent :
    (Memory.ofBytes file).wf = true ∧ (Memory.ofBytes file).read 34 = none ∧
    (Memory.ofBytes file).read 33 = some 0 ∧ idle.stream.wf = true ∧
    (given idle [.streamIs signature]).inputs = .streamIs signature :: [] ∧
    idle.stream.bytes ≠ signature := by decide

/-- A step that emits and one that does not. -/
theorem witness_TextBytesArePayloadBytes :
    (given textPending [.sink]).Inv ∧ (given textPending [.sink]).resetNext = false ∧
    answers (step (given textPending [.sink])) (fun t => textOf t.trace == [0x48]) = true ∧
    answers (step (given textPending [.source 1])) (fun t => textOf t.trace == []) = true :=
  ⟨(sound_of_check (by decide)).inv, by decide, by decide, by decide⟩

theorem witness_EmptyPayloadGoesToChecksum :
    (given (typeOn file 0 3 0x744558) [.source 1]).Inv ∧
    (given (typeOn file 0 3 0x744558) [.source 1]).sourceNext = true ∧
    (typeOn file 0 3 0x744558).memRead ≠ none ∧ (typeOn file 0 3 0x744558).curLen = 0 ∧
    answers (step (given (typeOn file 0 3 0x744558) [.source 1])) (fun _ => true) = true :=
  ⟨(sound_of_check (by decide)).inv, by decide, by decide, rfl, by decide⟩

theorem witness_EngineHoldsUntilAnswered :
    textPending.Inv ∧ textPending.phase.busy = true ∧ ready.phase.busy = false ∧
    textPending.awaitsSource = false ∧ sig7.textOffered = none :=
  ⟨(sound_of_check (by decide)).inv, rfl, rfl, by decide, rfl⟩

/-- Two streams that differ in the payload and past the record. -/
theorem witness_SkippedBytesDoNotMatter :
    let m := Memory.ofBytes (signature ++ textRecord ++ [1])
    let n := Memory.ofBytes
      (signature ++ [0, 0, 0, 2, 0x74, 0x45, 0x58, 0x74, 0, 0, 1, 2, 3, 4] ++ [2])
    m.wf = true ∧ n.wf = true ∧ m.size = n.size ∧
    (∀ i : Fin 8, m.read (8 + i) = n.read (8 + i)) ∧ (m.be32At 8).toNat = 2 ∧
    (∀ i : Fin 4, m.read (18 + i) = n.read (18 + i)) ∧ m ≠ n ∧
    ¬ (m.be32At 12 = Config.defaults.textMarker.pack ∧ false = true) := by decide

/-- Accepted, and turned away. -/
theorem witness_CommandFrame :
    answers (exec .sigchk idle) (fun t => t.phase == .sig) = true ∧
    answers (exec .next ready) (fun t => t.phase == .len) = true ∧
    answers (exec .next textPending) (fun t => t.phase == .error) = true := by decide

theorem witness_MicroStepFrame :
    (given textPending [.sink]).inputs.head? = some .sink ∧ Input.serves .sink = true ∧
    answers (step (given textPending [.sink])) (fun _ => true) = true ∧
    (given ready [.source 1]).inputs.head? = some (.source 1) ∧ ready.phase = .ready ∧
    answers (step (given ready [.source 1])) (fun _ => true) = true := by decide

/-- A refused step of each of the four kinds. -/
theorem witness_StepStopsOnlyOutsideTheRules :
    refuses (step (given idle [.access (.rd .byte 0x08)])) .subWordAccess = true ∧
    refuses (step (given
      { idle with host := { HostState.initial with prog := [.rd 0 0x09] } } [.hostRun]))
      .misalignedAccess = true ∧
    refuses (step (given idle [.reset file 1])) .streamNotAtZero = true ∧
    refuses (step (given idle [.streamIs signature])) .streamChanged = true := by decide

/-- A program with a statement of every kind. -/
theorem witness_HostStatements :
    let p : List HostOp := [.rd 0 0x08, .branch .ne 0 .busy 0 0, .jump 3, .halt, .wr 0x04 1,
      .wr 0x00 0x00000012, .wr 0xFC 1]
    (given { idle with host := { HostState.initial with prog := p } } [.hostRun]).inputs
      = .hostRun :: [] ∧
    (0x08 : BitVec 8).toNat % 4 = 0 ∧ p[0]? = some (.rd 0 0x08) ∧
    p[1]? = some (.branch .ne 0 .busy 0 0) ∧ p[2]? = some (.jump 3) ∧ p[3]? = some .halt ∧
    p[4]? = some (.wr 0x04 1) ∧ (0x04 : BitVec 8).toNat % 4 = 0 ∧
    p[5]? = some (.wr 0x00 0x00000012) ∧ p[6]? = some (.wr 0xFC 1) ∧
    (0xFC : BitVec 8).toNat % 4 = 0 := by decide

theorem witness_HostVariables : varsWfFrom 0 [(0, 1), (2, 5)] = true := by decide

theorem witness_PseudoInstructionExpansions :
    expand [] [] 7 .decodeAll = some (decodeAllOps 7 0) ∧ (decodeAllOps 7 0).length = 6 := by decide

end Sys2Proof.Machine.Tests
end

section
/-! Proofs of the statements on the engine's scope: the order of the bytes of a field (R11), and
which bytes of the stream NEXT's result depends on (R135, R142). -/

namespace Sys2Proof.Machine

/-! ### Big-endian fields -/

/-- A byte appended below a bit vector is its next digit in base 2^8. -/
theorem toNat_append_byte {w : Nat} (x : BitVec w) (b : Byte) :
    (x ++ b).toNat = x.toNat * 2 ^ 8 + b.toNat := by
  rw [BitVec.toNat_append, ← Nat.shiftLeft_add_eq_or_of_lt b.isLt, Nat.shiftLeft_eq]

theorem be32_toNat (b0 b1 b2 b3 : Byte) :
    (be32 b0 b1 b2 b3).toNat =
      b0.toNat * 2 ^ 24 + b1.toNat * 2 ^ 16 + b2.toNat * 2 ^ 8 + b3.toNat := by
  simp only [be32, toNat_append_byte]
  omega

/-- While the accumulator's top byte is free, a shifted byte is its next digit in base 2^8. -/
theorem shiftIn_toNat {acc : Word} (h : acc.toNat < 2 ^ 24) (b : Byte) :
    (shiftIn acc b).toNat = acc.toNat * 2 ^ 8 + b.toNat := by
  have hb : b.toNat < 2 ^ 8 := b.isLt
  have hshift : acc.toNat <<< 8 % 2 ^ 32 = acc.toNat <<< 8 := by
    rw [Nat.shiftLeft_eq]
    omega
  rw [shiftIn, BitVec.toNat_or, BitVec.toNat_shiftLeft, hshift, BitVec.toNat_setWidth,
    Nat.mod_eq_of_lt (by omega), ← Nat.shiftLeft_add_eq_or_of_lt hb, Nat.shiftLeft_eq]

/-- Four bytes shifted into an empty accumulator are the field they spell (R122, R129). -/
theorem shiftIn_four_eq_be32 (b0 b1 b2 b3 : Byte) :
    shiftIn (shiftIn (shiftIn (shiftIn 0 b0) b1) b2) b3 = be32 b0 b1 b2 b3 := by
  have hb0 : b0.toNat < 2 ^ 8 := b0.isLt
  have hb1 : b1.toNat < 2 ^ 8 := b1.isLt
  have hb2 : b2.toNat < 2 ^ 8 := b2.isLt
  have h0 : (shiftIn 0 b0).toNat = b0.toNat := by
    rw [shiftIn_toNat (by decide)]
    simp
  have h1 := shiftIn_toNat (acc := shiftIn 0 b0) (by omega) b1
  have h2 := shiftIn_toNat (acc := shiftIn (shiftIn 0 b0) b1) (by omega) b2
  have h3 := shiftIn_toNat (acc := shiftIn (shiftIn (shiftIn 0 b0) b1) b2) (by omega) b3
  apply BitVec.eq_of_toNat_eq
  rw [be32_toNat, h3, h2, h1, h0]
  omega

/-- Settles O3: both sides of the second half are the same number in base 2^8. -/
theorem bigEndianAssembly : Obligations.BigEndianAssembly :=
  fun b0 b1 b2 b3 => ⟨be32_toNat b0 b1 b2 b3, shiftIn_four_eq_be32 b0 b1 b2 b3⟩

/-! ### The bytes NEXT's result depends on -/

/-- A field depends on its own four bytes only. -/
theorem be32At_congr {m n : Memory} {a : Nat}
    (h : ∀ i, a ≤ i → i < a + 4 → m.read i = n.read i) : m.be32At a = n.be32At a := by
  have hbyte : ∀ i, a ≤ i → i < a + 4 → m.byteAt i = n.byteAt i := fun i hlo hhi => by
    rw [Memory.byteAt, Memory.byteAt, h i hlo hhi]
  rw [Memory.be32At, Memory.be32At, hbyte a (by omega) (by omega),
    hbyte (a + 1) (by omega) (by omega), hbyte (a + 2) (by omega) (by omega),
    hbyte (a + 3) (by omega) (by omega)]

/-- When nothing is materialised, the stream enters `decodeNext` by its size and the three fields
only. -/
theorem decodeNext_congr {p : Config.Params} {m n : Memory} {c : Nat} {text : Bool}
    (hsize : m.size = n.size)
    (hlen : m.be32At c = n.be32At c)
    (htype : m.be32At (c + 4) = n.be32At (c + 4))
    (hcrc : m.be32At (c + 8 + (m.be32At c).toNat) = n.be32At (c + 8 + (m.be32At c).toNat))
    (hskip : ¬ (m.be32At (c + 4) = p.textMarker.pack ∧ text = true)) :
    decodeNext p m c text = decodeNext p n c text := by
  rw [htype] at hskip
  rw [hlen] at hcrc
  have hplain : (n.be32At (c + 4) == p.textMarker.pack && text) = false := by
    simpa using hskip
  simp only [decodeNext, hsize, hlen, htype, hcrc, hplain, Bool.false_eq_true, if_false]

/-- Settles O42: the two streams agree on the bytes of each field, so on the fields. -/
theorem skippedBytesDoNotMatter : Obligations.SkippedBytesDoNotMatter := by
  intro p m n c text _ _ hsize hhead htail hskip
  refine decodeNext_congr hsize ?len ?type ?crc hskip
  case len => exact be32At_congr fun i hlo hhi => hhead i hlo (by omega)
  case type => exact be32At_congr fun i hlo hhi => hhead i (by omega) (by omega)
  case crc => exact be32At_congr fun i hlo hhi => htail i hlo (by omega)

end Sys2Proof.Machine
end

section
/-! What a step that is no reset can do to the engine, as one relation: whose turn it is, what the
rule asks of the state, and the whole state it leaves (R88, R101 to R103, R121 to R134, R143). -/

namespace Sys2Proof.Machine

/-- Whose turn a step is (R14): the host's, whose bus may submit a command, the stream source's or the
text sink's. -/
inductive Agent where
  | host
  | source
  | sink

/-- A record's registers and its event are written, the accumulator and the index cleared (R133). -/
def State.recorded (s : State) (crc : Word) : State :=
  { s with
    recLen := s.curLen, recType := s.curType, recCrc := crc
    recFlags := recFlagsWord s.params.textMarker s.curType s.textReq
    count := s.count + 1, recStartLast := s.recStart
    trace := s.trace ++ [.record s.curLen (typeBytes s.curType) crc
      (recFlagsWord s.params.textMarker s.curType s.textReq)]
    acc := 0, idx := 0 }

/-- The engine's move from `s` in an agent's turn. -/
inductive Move (s : State) : Agent → State → Prop
  /-- The host submits no command, or the write is ignored in ERROR (R88). -/
  | noCommand : Move s .host s
  /-- CMD_BUSY, CMD_ILLEGAL or CMD_SEQ (R88). -/
  | commandFault (code : ErrCode) (hp : s.phase ≠ .error) (hc : code ≠ .none) :
      Move s .host (s.raise code)
  /-- `SIGCHK` is accepted (R101). -/
  | sigchk (hp : s.phase = .idle) :
      Move s .host { s with phase := .sig, idx := 0, sigBad := false }
  /-- `NEXT` is accepted (R121). -/
  | next (hp : s.phase = .ready) :
      Move s .host
        { s with recStart := s.cursor, curLen := 0, curType := 0, textReq := s.textEn,
                 acc := 0, idx := 0, phase := .len }
  /-- The source's answer is not awaited (R143). -/
  | unawaited (hw : s.awaitsSource = false) : Move s .source s
  /-- The stream ends in SIG, TYPE, TEXT or CRC (R102, R124, R127, R131). -/
  | endFault (code : ErrCode)
      (hp : s.phase = .sig ∨ s.phase = .type ∨ s.phase = .text ∨ s.phase = .crc)
      (hr : s.memRead = none) (hc : code ≠ .none) : Move s .source (s.raise code)
  /-- The stream ends in SKIP (R126). -/
  | skipFault (hp : s.phase = .skip) (hsize : s.stream.size ≤ s.cursor.toNat) :
      Move s .source (s.raise .truncPayload)
  /-- The stream ends inside the length field in strict mode (R123). -/
  | lenFault (hp : s.phase = .len) (hr : s.memRead = none) :
      Move s .source (({ s with eofResid := s.idx.setWidth 2 } : State).raise .truncLen)
  /-- The stream ends in the length field: the clean end (R123). -/
  | cleanEnd (hp : s.phase = .len) (hr : s.memRead = none) :
      Move s .source (({ s with eofResid := s.idx.setWidth 2 } : State).finish .cleanEof)
  /-- One of the first 7 signature bytes is read (R102). -/
  | sigByte (r : Byte) (bad : Bool) (hp : s.phase = .sig) (hr : s.memRead = some r)
      (hi : s.idx ≠ 7) : Move s .source { s.advance 1 with sigBad := bad, idx := s.idx + 1 }
  /-- The 8th signature byte is read and one of the 8 has differed (R103). -/
  | sigMismatch (r : Byte) (hp : s.phase = .sig) (hr : s.memRead = some r) (hi : s.idx = 7) :
      Move s .source (({ s.advance 1 with sigBad := true } : State).raise .sigMismatch)
  /-- The 8th signature byte is read and the signature validates (R103). -/
  | sigOk (r : Byte) (hp : s.phase = .sig) (hr : s.memRead = some r) (hi : s.idx = 7) :
      Move s .source
        (({ s.advance 1 with sigBad := false, sigOk := true, phase := .ready, idx := 0 } :
          State).log .sigOk)
  /-- One of the first 3 bytes of a field is read (R122, R124, R129). -/
  | fieldByte (r : Byte) (hp : s.phase = .len ∨ s.phase = .type ∨ s.phase = .crc)
      (hr : s.memRead = some r) (hi : s.idx ≠ 3) :
      Move s .source { s.advance 1 with acc := shiftIn s.acc r, idx := s.idx + 1 }
  /-- The 4th length byte is read (R122). -/
  | lenLast (r : Byte) (hp : s.phase = .len) (hr : s.memRead = some r) (hi : s.idx = 3) :
      Move s .source
        { s.advance 1 with curLen := shiftIn s.acc r, acc := 0, idx := 0, phase := .type }
  /-- The 4th type byte is read and the payload is empty (R125, R130). -/
  | typeEmpty (r : Byte) (hp : s.phase = .type) (hr : s.memRead = some r) (hi : s.idx = 3)
      (h0 : s.curLen = 0) :
      Move s .source
        { s.advance 1 with curType := shiftIn s.acc r, acc := 0, idx := 0, rem := 0,
                           phase := .crc }
  /-- The 4th type byte is read and the payload is materialised (R125). -/
  | typeText (r : Byte) (hp : s.phase = .type) (hr : s.memRead = some r) (hi : s.idx = 3)
      (h0 : s.curLen ≠ 0) (ht : shiftIn s.acc r = s.params.textMarker.pack)
      (hq : s.textReq = true) :
      Move s .source
        { s.advance 1 with curType := shiftIn s.acc r, acc := 0, idx := 0, rem := s.curLen,
                           phase := .text }
  /-- The 4th type byte is read and the payload is skipped (R125). -/
  | typeSkip (r : Byte) (hp : s.phase = .type) (hr : s.memRead = some r) (hi : s.idx = 3)
      (h0 : s.curLen ≠ 0)
      (ht : ¬ (shiftIn s.acc r = s.params.textMarker.pack ∧ s.textReq = true)) :
      Move s .source
        { s.advance 1 with curType := shiftIn s.acc r, acc := 0, idx := 0, rem := s.curLen,
                           phase := .skip }
  /-- A part of the payload is skipped (R126). -/
  | skip (n : Nat) (hp : s.phase = .skip) (h1 : 1 ≤ n) (hn : n ≤ s.rem.toNat)
      (ha : n ≤ s.available) (h0 : s.rem - BitVec.ofNat 32 n ≠ 0) :
      Move s .source { s.advance n with rem := s.rem - BitVec.ofNat 32 n }
  /-- The rest of the payload is skipped (R126). -/
  | skipLast (n : Nat) (hp : s.phase = .skip) (h1 : 1 ≤ n) (hn : n ≤ s.rem.toNat)
      (ha : n ≤ s.available) (h0 : s.rem - BitVec.ofNat 32 n = 0) :
      Move s .source
        { s.advance n with rem := s.rem - BitVec.ofNat 32 n, idx := 0, acc := 0, phase := .crc }
  /-- A payload byte is read to be offered to the sink (R127). -/
  | textRead (r : Byte) (hp : s.phase = .text) (hn : s.pendTxt = none)
      (hr : s.memRead = some r) : Move s .source { s.advance 1 with pendTxt := some r }
  /-- The 4th checksum byte completes a record that is not the terminal one (R133). -/
  | record (r : Byte) (crc : Word) (hp : s.phase = .crc) (hr : s.memRead = some r)
      (hi : s.idx = 3) : Move s .source { (s.advance 1).recorded crc with phase := .ready }
  /-- The 4th checksum byte completes the terminal record (R133, R134). -/
  | lastRecord (r : Byte) (crc : Word) (hp : s.phase = .crc) (hr : s.memRead = some r)
      (hi : s.idx = 3) : Move s .source (((s.advance 1).recorded crc).finish .iend)
  /-- No byte is offered to the sink (R143). -/
  | unoffered : Move s .sink s
  /-- The sink accepts a byte and the payload goes on (R128). -/
  | emit (b : Byte) (hp : s.phase = .text) (hb : s.pendTxt = some b) (h0 : s.rem - 1 ≠ 0) :
      Move s .sink (({ s with pendTxt := none, rem := s.rem - 1 } : State).log (.txt b))
  /-- The sink accepts the payload's last byte (R128). -/
  | emitLast (b : Byte) (hp : s.phase = .text) (hb : s.pendTxt = some b) (h0 : s.rem - 1 = 0) :
      Move s .sink
        { ({ s with pendTxt := none, rem := s.rem - 1 } : State).log (.txt b) with
          idx := 0, acc := 0, phase := .crc }

/-! ### The model's turns are moves -/

theorem submit_move {w : Word} {s t : State} (h : submit w s = .next t) : Move s .host t := by
  rcases submit_cases h with ⟨-, rfl⟩ | ⟨hb, rfl⟩ | ⟨hp, -, rfl⟩ | ⟨hp, -, rfl⟩ | ⟨hq, hf⟩
  · exact .noCommand
  · exact .commandFault _ (by rintro he; simp [he, Phase.busy] at hb) (by decide)
  · exact .sigchk hp
  · exact .next hp
  · have hp : s.phase ≠ .error := by rcases hq with hq | hq | hq <;> simp [hq]
    rcases hf with rfl | rfl
    · exact .commandFault _ hp (by decide)
    · exact .commandFault _ hp (by decide)

theorem sigStep_move {s : State} (hp : s.phase = .sig) : Move s .source (sigStep s) := by
  rcases sigStep_cases s with ⟨hr, e⟩ | ⟨r, hr, ⟨hi, -, e⟩ | ⟨hi, -, e⟩ | ⟨hi, e⟩⟩ <;> rw [e]
  · exact .endFault _ (.inl hp) hr (by decide)
  · exact .sigMismatch r hp hr hi
  · exact .sigOk r hp hr hi
  · exact .sigByte r _ hp hr hi

theorem lenStep_move {s : State} (hp : s.phase = .len) : Move s .source (lenStep s) := by
  rcases lenStep_cases s with ⟨hr, -, -, e⟩ | ⟨hr, -, e⟩ | ⟨r, hr, ⟨hi, e⟩ | ⟨hi, e⟩⟩ <;> rw [e]
  · exact .lenFault hp hr
  · exact .cleanEnd hp hr
  · exact .lenLast r hp hr hi
  · exact .fieldByte r (.inl hp) hr hi

theorem typeStep_move {s : State} (hp : s.phase = .type) : Move s .source (typeStep s) := by
  rcases typeStep_cases s with ⟨hr, e⟩ | ⟨r, hr, ⟨hi, e⟩ | ⟨hi, e⟩⟩ <;> rw [e]
  · exact .endFault _ (.inr (.inl hp)) hr (by decide)
  · rcases selectPayload_cases
      ({ s.advance 1 with curType := shiftIn s.acc r, acc := 0, idx := 0 } : State) with
      ⟨h0, e⟩ | ⟨h0, ht, hq, e⟩ | ⟨h0, ht, e⟩ <;> rw [e]
    · exact .typeEmpty r hp hr hi h0
    · exact .typeText r hp hr hi h0 ht hq
    · exact .typeSkip r hp hr hi h0 ht
  · exact .fieldByte r (.inr (.inl hp)) hr hi

theorem skipStep_move (k : Nat) {s : State} (hp : s.phase = .skip) :
    Move s .source (skipStep k s) := by
  rcases skipStep_cases k s with ⟨h0, e⟩ | ⟨-, hsize, e⟩ | ⟨-, -, n, h1, hn, ha, -, e⟩ <;> rw [e]
  · exact .unawaited (by simp [State.awaitsSource, hp, h0])
  · exact .skipFault hp hsize
  · rcases afterPayload_cases
      ({ s.advance n with rem := s.rem - BitVec.ofNat 32 n } : State) with ⟨h0, e⟩ | ⟨h0, e⟩ <;>
      rw [e]
    · exact .skipLast n hp h1 hn ha h0
    · exact .skip n hp h1 hn ha h0

theorem textReadStep_move {s : State} (hp : s.phase = .text) :
    Move s .source (textReadStep s) := by
  rcases textReadStep_cases s with ⟨hq, e⟩ | ⟨-, -, hr, e⟩ | ⟨-, hn, r, hr, e⟩ <;> rw [e]
  · exact .unawaited (by simpa [State.awaitsSource, hp, or_iff_not_imp_left] using hq)
  · exact .endFault _ (.inr (.inr (.inl hp))) hr (by decide)
  · exact .textRead r hp hn hr

theorem crcStep_move {s : State} (hp : s.phase = .crc) : Move s .source (crcStep s) := by
  rcases crcStep_cases s with ⟨hr, e⟩ | ⟨r, hr, ⟨hi, e⟩ | ⟨hi, e⟩⟩ <;> rw [e]
  · exact .endFault _ (.inr (.inr (.inr hp))) hr (by decide)
  · obtain ⟨t, rfl, ⟨-, e⟩ | ⟨-, e⟩⟩ := completeRecord_cases (shiftIn s.acc r)
      ({ s.advance 1 with acc := shiftIn s.acc r } : State) <;> rw [e]
    · exact .lastRecord r (shiftIn s.acc r) hp hr hi
    · exact .record r (shiftIn s.acc r) hp hr hi
  · exact .fieldByte r (.inr (.inr hp)) hr hi

theorem sourceStep_move (k : Nat) (s : State) : Move s .source (sourceStep k s) := by
  unfold sourceStep
  split <;> rename_i hp
  · exact sigStep_move hp
  · exact lenStep_move hp
  · exact typeStep_move hp
  · exact skipStep_move k hp
  · exact textReadStep_move hp
  · exact crcStep_move hp
  all_goals exact .unawaited (by simp [State.awaitsSource, hp])

theorem sinkStep_move (s : State) : Move s .sink (sinkStep s) := by
  unfold sinkStep
  split <;> rename_i hp
  · rcases textEmitStep_cases s with ⟨-, e⟩ | ⟨b, hb, e⟩ <;> rw [e]
    · exact .unoffered
    · rcases afterPayload_cases
        (({ s with pendTxt := none, rem := s.rem - 1 } : State).log (.txt b)) with
        ⟨h0, e⟩ | ⟨h0, e⟩ <;> rw [e]
      · exact .emitLast b hp hb h0
      · exact .emit b hp hb h0
  all_goals exact .unoffered

/-! ### A step is a move or a reset -/

/-- A step that is no reset is the engine's move in somebody's turn; besides it only `CFG` and the
host can change. -/
theorem step_move {s t : State} (h : step s = .next t) (hr : s.resetNext = false) :
    ∃ (a : Agent) (u : State) (c : Word) (k : HostState), Move s.popped a u ∧
      (a = .source ↔ s.sourceNext = true) ∧ (a = .sink → s.inputs.head? = some .sink) ∧
      (c = s.cfg ∨ ∃ v, c = cfgWritten v) ∧ (s.host.wf = true → k.wf = true) ∧
      t = { u with cfg := c, host := k } := by
  by_cases hs : s.sourceNext = true
  · obtain ⟨k, rfl⟩ := step_source h hs
    have same := sourceStep_same k s.popped
    refine ⟨.source, _, s.cfg, s.host, sourceStep_move k s.popped, by simp [hs], by simp, .inl rfl,
      id, ?_⟩
    rw [← show _ = s.cfg from same.cfg, ← show _ = s.host from same.host]
  · have hsrc : ∀ {a : Agent}, a = .host ∨ a = .sink → (a = .source ↔ s.sourceNext = true) := by
      rintro a (rfl | rfl) <;> simp [hs]
    rcases step_cases h with rfl | ⟨k, hk, -⟩ | ⟨hk, rfl⟩ | ⟨bytes, hk, -⟩ | ⟨k, hk, -, hc⟩
    · exact ⟨.host, s.popped, s.cfg, s.host, .noCommand, hsrc (.inl rfl), by simp, .inl rfl, id, rfl⟩
    · simp [State.sourceNext, hk] at hs
    · have same := sinkStep_same s.popped
      refine ⟨.sink, _, s.cfg, s.host, sinkStep_move s.popped, hsrc (.inr rfl), fun _ => hk,
        .inl rfl, id, ?_⟩
      rw [← show _ = s.cfg from same.cfg, ← show _ = s.host from same.host]
    · simp [State.resetNext, hk, Input.isReset] at hr
    · rcases hc with rfl | ⟨v, rfl⟩ | ⟨w, u, hu, rfl⟩
      · exact ⟨.host, s.popped, s.cfg, k, .noCommand, hsrc (.inl rfl), by simp, .inl rfl, hk, rfl⟩
      · exact ⟨.host, s.popped, cfgWritten v, k, .noCommand, hsrc (.inl rfl), by simp,
          .inr ⟨v, rfl⟩, hk, rfl⟩
      · have hcfg : u.cfg = s.cfg := by
          cases submit_move hu <;> rfl
        exact ⟨.host, u, s.cfg, k, submit_move hu, hsrc (.inl rfl), by simp, .inl rfl, hk,
          by rw [← hcfg]⟩

/-- A step whose next input is a reset leaves the state after reset (R190). -/
theorem step_reset {s t : State} (h : step s = .next t) (hr : s.resetNext = true) :
    ∃ bytes, t = s.popped.afterReset bytes := by
  cases hi : s.inputs with
  | nil => simp [State.resetNext, hi] at hr
  | cons i rest =>
    cases i with
    | reset bytes pos =>
      have h : resetInput bytes pos s.popped = .next t := by
        simpa [step, hi, State.popped, takeInput] using h
      unfold resetInput at h
      split at h
      · exact ⟨bytes, (Host.Outcome.next.inj h).symm⟩
      · cases h
    | access _ | hostRun | source _ | sink | streamIs _ =>
      simp [State.resetNext, hi, Input.isReset] at hr

end Sys2Proof.Machine
end

section
/-! Every step keeps the invariant: the part of it that holds in every phase alike, what each phase
adds, and one case for each move. -/

namespace Sys2Proof.Machine

/-! ### The place, phase by phase -/

section
variable {s : State}

theorem placeOk_idle (h : s.phase = .idle) :
    s.placeOk ↔ s.idx = 0 ∧ s.cursor = 0 ∧ s.sigOk = false := by
  simp only [State.placeOk, h]

theorem placeOk_sig (h : s.phase = .sig) :
    s.placeOk ↔ s.cursor = s.idx.setWidth 64 ∧ s.sigOk = false := by
  simp only [State.placeOk, h]

theorem placeOk_ready (h : s.phase = .ready) : s.placeOk ↔ s.idx = 0 ∧ s.sigOk = true := by
  simp only [State.placeOk, h]

theorem placeOk_len (h : s.phase = .len) :
    s.placeOk ↔ s.idx.toNat ≤ 3 ∧ s.sigOk = true ∧ s.curLen = 0 ∧ s.curType = 0 ∧
      s.cursor = s.recStart + s.idx.setWidth 64 := by
  simp only [State.placeOk, h]

theorem placeOk_type (h : s.phase = .type) :
    s.placeOk ↔ s.idx.toNat ≤ 3 ∧ s.sigOk = true ∧ s.curType = 0 ∧
      s.cursor = s.recStart + 4 + s.idx.setWidth 64 := by
  simp only [State.placeOk, h]

theorem placeOk_skip (h : s.phase = .skip) :
    s.placeOk ↔ s.idx = 0 ∧ s.sigOk = true ∧ s.rem ≠ 0 ∧
      ¬ (s.curType = s.params.textMarker.pack ∧ s.textReq = true) ∧
      s.cursor + s.rem.setWidth 64 = s.recStart + 8 + s.curLen.setWidth 64 := by
  simp only [State.placeOk, h]

theorem placeOk_text (h : s.phase = .text) :
    s.placeOk ↔ s.idx = 0 ∧ s.sigOk = true ∧ s.rem ≠ 0 ∧
      s.curType = s.params.textMarker.pack ∧ s.textReq = true ∧
      s.cursor + s.rem.setWidth 64 =
        s.recStart + 8 + s.curLen.setWidth 64 + (if s.pendTxt.isSome then 1 else 0) := by
  simp only [State.placeOk, h]

theorem placeOk_crc (h : s.phase = .crc) :
    s.placeOk ↔ s.idx.toNat ≤ 3 ∧ s.sigOk = true ∧
      s.cursor = s.recStart + 8 + s.curLen.setWidth 64 + s.idx.setWidth 64 := by
  simp only [State.placeOk, h]

theorem placeOk_done (h : s.phase = .done) :
    s.placeOk ↔ s.idx = 0 ∧ s.sigOk = true ∧ s.term ≠ .none := by
  simp only [State.placeOk, h]

theorem placeOk_error (h : s.phase = .error) : s.placeOk ↔ s.idx = 0 := by
  simp only [State.placeOk, h]

end

/-! ### The part of the invariant that does not depend on the phase -/

/-- The part of the invariant that no phase qualifies: the stream and the cursor in it, the reserved
bits, and the host. -/
structure State.Plain (s : State) : Prop where
  streamWf : s.stream.wf = true
  cursorLe : s.cursor.toNat ≤ s.stream.size
  cfgReserved : s.cfg &&& 0xFFFFFFFE = 0
  recFlagsReserved : s.recFlags &&& 0xFFFFFFF0 = 0
  hostWf : s.host.wf = true

theorem State.Inv.plain {s : State} (hi : s.Inv) : s.Plain :=
  ⟨hi.streamWf, hi.cursorLe, hi.cfgReserved, hi.recFlagsReserved, hi.hostWf⟩

/-- It depends on five fields only. -/
theorem State.Plain.congr {s t : State} (h : s.Plain)
    (e : (t.stream, t.cursor, t.cfg, t.recFlags, t.host) =
      (s.stream, s.cursor, s.cfg, s.recFlags, s.host)) : t.Plain := by
  simp only [Prod.mk.injEq] at e
  obtain ⟨hstream, hcursor, hcfg, hflags, hhost⟩ := e
  exact ⟨by rw [hstream, h.streamWf], by rw [hcursor, hstream]; exact h.cursorLe,
    by rw [hcfg, h.cfgReserved], by rw [hflags, h.recFlagsReserved], by rw [hhost, h.hostWf]⟩

/-- Reading the next byte keeps the phase-independent part. -/
theorem State.Inv.plain_advance {s : State} (hi : s.Inv) {r : Byte} (hr : s.memRead = some r) :
    (s.advance 1).Plain :=
  ⟨hi.streamWf, hi.cursor_succ_le hr, hi.cfgReserved, hi.recFlagsReserved, hi.hostWf⟩

/-- Skipping bytes that exist keeps the phase-independent part. -/
theorem State.Inv.plain_skip {s : State} (hi : s.Inv) {n : Nat} (hn : n ≤ s.available) :
    (s.advance n).Plain := by
  refine ⟨hi.streamWf, ?_, hi.cfgReserved, hi.recFlagsReserved, hi.hostWf⟩
  have hle := hi.cursorLe
  have hcur : (s.cursor + BitVec.ofNat 64 n).toNat ≤ s.cursor.toNat + n := by
    rw [BitVec.toNat_add, BitVec.toNat_ofNat]
    omega
  unfold State.available at hn
  exact hcur.trans (show _ ≤ s.stream.size by omega)

/-- Writing a record's registers keeps the phase-independent part (R30). -/
theorem State.Plain.recorded {s : State} (h : s.Plain) (crc : Word) : (s.recorded crc).Plain :=
  ⟨h.streamWf, h.cursorLe, h.cfgReserved, recFlagsWord_reserved _ _ _, h.hostWf⟩

/-- A raised fault completes the phase-independent part to the invariant (R166). -/
theorem State.Plain.raise_inv {s : State} (h : s.Plain) {code : ErrCode} (hc : code ≠ .none) :
    (s.raise code).Inv where
  streamWf := h.streamWf
  cursorLe := h.cursorLe
  place := (placeOk_error rfl).2 rfl
  cfgReserved := h.cfgReserved
  recFlagsReserved := h.recFlagsReserved
  termPlace _ := .inr rfl
  residPlace _ := .inr rfl
  errPlace := ⟨fun _ => rfl, fun _ => hc⟩
  errPosPlace hp := absurd rfl hp
  pending _ hb := nomatch hb
  hostWf := h.hostWf

/-- So does a termination (R134). -/
theorem State.Plain.finish_inv {s : State} (h : s.Plain) {r : Term} (hr : r ≠ .none)
    (hsig : s.sigOk = true) (hcode : s.errcode = .none) (hpos : s.errPos = 0)
    (hpend : s.pendTxt = none) : (s.finish r).Inv where
  streamWf := h.streamWf
  cursorLe := h.cursorLe
  place := (placeOk_done rfl).2 ⟨rfl, hsig, hr⟩
  cfgReserved := h.cfgReserved
  recFlagsReserved := h.recFlagsReserved
  termPlace _ := .inl rfl
  residPlace _ := .inl rfl
  errPlace := ⟨fun hne => absurd hcode hne, fun hp => nomatch hp⟩
  errPosPlace _ := hpos
  pending b hb := by simp [hpend] at hb
  hostWf := h.hostWf

/-- While a run goes on it shows neither a termination nor a fault; its place completes the
phase-independent part to the invariant. -/
theorem State.Plain.running_inv {s : State} (h : s.Plain)
    (hclear : s.term = .none ∧ s.eofResid = 0 ∧ s.errcode = .none ∧ s.errPos = 0)
    (hp : s.phase ≠ .error) (hplace : s.placeOk)
    (hpend : ∀ b, s.pendTxt = some b →
      s.phase = .text ∧ s.stream.read (s.cursor - 1).toNat = some b) : s.Inv := by
  obtain ⟨hterm, hresid, hcode, hpos⟩ := hclear
  exact
    { streamWf := h.streamWf
      cursorLe := h.cursorLe
      place := hplace
      cfgReserved := h.cfgReserved
      recFlagsReserved := h.recFlagsReserved
      termPlace := fun hne => absurd hterm hne
      residPlace := fun hne => absurd hresid hne
      errPlace := ⟨fun hne => absurd hcode hne, fun he => absurd he hp⟩
      errPosPlace := fun _ => hpos
      pending := hpend
      hostWf := h.hostWf }

/-- From a phase in which a run goes on without a pending text byte, a move that touches neither the
marks of an end nor the pending byte needs only the phase-independent part and its new place. -/
theorem State.Inv.goes_on {s t : State} (hi : s.Inv)
    (hq : s.phase ≠ .done ∧ s.phase ≠ .error ∧ s.phase ≠ .text) (h : t.Plain)
    (e : (t.term, t.eofResid, t.errcode, t.errPos, t.pendTxt) =
      (s.term, s.eofResid, s.errcode, s.errPos, s.pendTxt))
    (hp : t.phase ≠ .error) (hplace : t.placeOk) : t.Inv := by
  obtain ⟨hd, he, ht⟩ := hq
  obtain ⟨hterm, hresid, hcode, hpos⟩ := hi.clear hd he
  simp only [hterm, hresid, hcode, hpos, hi.pendTxt_eq_none ht, Prod.mk.injEq] at e
  obtain ⟨hterm, hresid, hcode, hpos, hpend⟩ := e
  exact h.running_inv ⟨hterm, hresid, hcode, hpos⟩ hp hplace (by simp [hpend])

/-! ### Arithmetic of the place -/

/-- Skipped bytes keep the place in the payload: the cursor goes up as the count goes down. -/
theorem skip_place {c e : Position} {rem : Word} {n : Nat} (hn : n ≤ rem.toNat)
    (h : c + rem.setWidth 64 = e) :
    c + BitVec.ofNat 64 n + (rem - BitVec.ofNat 32 n).setWidth 64 = e := by
  rw [setWidth_sub hn]
  grind

/-- A payload byte that is read and pending is counted once more than one that is not yet read. -/
theorem read_place {c e x : Position} (h : c + x = e + 0) : c + BitVec.ofNat 64 1 + x = e + 1 := by
  grind

/-- A byte that the sink accepts was counted twice while it was pending: as read and as remaining. -/
theorem emit_place {c e : Position} {rem : Word} (h0 : rem ≠ 0)
    (h : c + rem.setWidth 64 = e + 1) : c + (rem - 1).setWidth 64 = e := by
  have hn : 1 ≤ rem.toNat :=
    Nat.one_le_iff_ne_zero.2 fun hz => h0 (BitVec.eq_of_toNat_eq (by simpa using hz))
  rw [show (1 : Word) = BitVec.ofNat 32 1 from rfl, setWidth_sub hn]
  grind

/-! ### Every move keeps the invariant -/

/-- A byte of a field that is not its last keeps the field's place. -/
theorem fieldByte_place {s : State} (hi : s.Inv) {acc : Word}
    (hp : s.phase = .len ∨ s.phase = .type ∨ s.phase = .crc) (hidx : s.idx ≠ 3) :
    ({ s.advance 1 with acc := acc, idx := s.idx + 1 } : State).placeOk := by
  rcases hp with hp | hp | hp
  · obtain ⟨h3, hsig, hlen, htype, hcur⟩ := (placeOk_len hp).1 hi.place
    obtain ⟨hle, hw⟩ := idx_succ h3 hidx (by decide)
    refine Iff.mpr (placeOk_len hp) ⟨hle, hsig, hlen, htype, ?_⟩
    simp only [State.advance_cursor, State.advance_recStart, hcur, hw]
    grind
  · obtain ⟨h3, hsig, htype, hcur⟩ := (placeOk_type hp).1 hi.place
    obtain ⟨hle, hw⟩ := idx_succ h3 hidx (by decide)
    refine Iff.mpr (placeOk_type hp) ⟨hle, hsig, htype, ?_⟩
    simp only [State.advance_cursor, State.advance_recStart, hcur, hw]
    grind
  · obtain ⟨h3, hsig, hcur⟩ := (placeOk_crc hp).1 hi.place
    obtain ⟨hle, hw⟩ := idx_succ h3 hidx (by decide)
    refine Iff.mpr (placeOk_crc hp) ⟨hle, hsig, ?_⟩
    simp only [State.advance_cursor, State.advance_recStart, State.advance_curLen, hcur, hw]
    grind

/-- The last type byte brings the cursor to the payload, 8 bytes after the record's start. -/
theorem cursor_at_payload {s : State} (hi : s.Inv) (hp : s.phase = .type) (hidx : s.idx = 3) :
    s.cursor + 1 = s.recStart + 8 := by
  obtain ⟨-, -, -, hcur⟩ := (placeOk_type hp).1 hi.place
  rw [hcur, hidx, BitVec.add_assoc, BitVec.add_assoc]
  rfl

theorem Move.keeps_inv {s t : State} {a : Agent} (hm : Move s a t) (hi : s.Inv) : t.Inv := by
  cases hm with
  | noCommand | unawaited | unoffered => exact hi
  | commandFault _ _ hc | endFault _ _ _ hc => exact hi.plain.raise_inv hc
  | skipFault => exact hi.plain.raise_inv ErrCode.noConfusion
  | lenFault =>
    have hplain : ({ s with eofResid := s.idx.setWidth 2 } : State).Plain := hi.plain.congr rfl
    exact hplain.raise_inv ErrCode.noConfusion
  | cleanEnd hp =>
    obtain ⟨-, -, hcode, hpos⟩ := hi.clear (by simp [hp]) (by simp [hp])
    obtain ⟨-, hsig, -⟩ := (placeOk_len hp).1 hi.place
    have hplain : ({ s with eofResid := s.idx.setWidth 2 } : State).Plain := hi.plain.congr rfl
    exact hplain.finish_inv Term.noConfusion hsig hcode hpos (hi.pendTxt_eq_none (by simp [hp]))
  | sigchk hp =>
    obtain ⟨-, hcur, hsig⟩ := (placeOk_idle hp).1 hi.place
    exact hi.goes_on (by simp [hp]) (hi.plain.congr rfl) rfl (by simp)
      ((placeOk_sig rfl).2 ⟨hcur, hsig⟩)
  | next hp =>
    obtain ⟨-, hsig⟩ := (placeOk_ready hp).1 hi.place
    exact hi.goes_on (by simp [hp]) (hi.plain.congr rfl) rfl (by simp)
      ((placeOk_len rfl).2 ⟨by simp, hsig, rfl, rfl, by simp⟩)
  | sigByte r bad hp hr hidx =>
    obtain ⟨hcur, hsig⟩ := (placeOk_sig hp).1 hi.place
    obtain ⟨-, hw⟩ := idx_succ (n := 7) (by omega) hidx (by decide)
    refine hi.goes_on (by simp [hp]) ((hi.plain_advance hr).congr rfl) rfl (by simp [hp])
      (Iff.mpr (placeOk_sig hp) ⟨?_, hsig⟩)
    rw [hw, State.advance_cursor, hcur]
  | sigMismatch r hp hr =>
    have hplain : ({ s.advance 1 with sigBad := true } : State).Plain :=
      (hi.plain_advance hr).congr rfl
    exact hplain.raise_inv ErrCode.noConfusion
  | sigOk r hp hr =>
    exact hi.goes_on (by simp [hp]) ((hi.plain_advance hr).congr rfl) rfl (by simp)
      ((placeOk_ready rfl).2 ⟨rfl, rfl⟩)
  | fieldByte r hp hr hidx =>
    have hq : s.phase ≠ .done ∧ s.phase ≠ .error ∧ s.phase ≠ .text := by
      rcases hp with hp | hp | hp <;> simp [hp]
    exact hi.goes_on hq ((hi.plain_advance hr).congr rfl) rfl hq.2.1 (fieldByte_place hi hp hidx)
  | lenLast r hp hr hidx =>
    obtain ⟨-, hsig, -, htype, hcur⟩ := (placeOk_len hp).1 hi.place
    refine hi.goes_on (by simp [hp]) ((hi.plain_advance hr).congr rfl) rfl (by simp)
      ((placeOk_type rfl).2 ⟨by simp, hsig, htype, ?_⟩)
    rw [State.advance_cursor, hcur, hidx, BitVec.add_assoc]
    simp
  | typeEmpty r hp hr hidx h0 =>
    obtain ⟨-, hsig, -⟩ := (placeOk_type hp).1 hi.place
    refine hi.goes_on (by simp [hp]) ((hi.plain_advance hr).congr rfl) rfl (by simp)
      ((placeOk_crc rfl).2 ⟨by simp, hsig, ?_⟩)
    simpa [h0] using cursor_at_payload hi hp hidx
  | typeText r hp hr hidx h0 ht hq =>
    obtain ⟨-, hsig, -⟩ := (placeOk_type hp).1 hi.place
    refine hi.goes_on (by simp [hp]) ((hi.plain_advance hr).congr rfl) rfl (by simp)
      ((placeOk_text rfl).2 ⟨rfl, hsig, h0, ht, hq, ?_⟩)
    simpa [hi.pendTxt_eq_none (by simp [hp] : s.phase ≠ .text)] using cursor_at_payload hi hp hidx
  | typeSkip r hp hr hidx h0 ht =>
    obtain ⟨-, hsig, -⟩ := (placeOk_type hp).1 hi.place
    refine hi.goes_on (by simp [hp]) ((hi.plain_advance hr).congr rfl) rfl (by simp)
      ((placeOk_skip rfl).2 ⟨rfl, hsig, h0, ht, ?_⟩)
    simpa using cursor_at_payload hi hp hidx
  | skip n hp h1 hn ha h0 =>
    obtain ⟨hidx, hsig, -, ht, hcur⟩ := (placeOk_skip hp).1 hi.place
    exact hi.goes_on (by simp [hp]) ((hi.plain_skip ha).congr rfl) rfl (by simp [hp])
      (Iff.mpr (placeOk_skip hp) ⟨hidx, hsig, h0, ht, skip_place hn hcur⟩)
  | skipLast n hp h1 hn ha h0 =>
    obtain ⟨-, hsig, -, -, hcur⟩ := (placeOk_skip hp).1 hi.place
    refine hi.goes_on (by simp [hp]) ((hi.plain_skip ha).congr rfl) rfl (by simp)
      ((placeOk_crc rfl).2 ⟨by simp, hsig, ?_⟩)
    simpa [h0] using skip_place hn hcur
  | textRead r hp hn hr =>
    obtain ⟨hidx, hsig, h0, ht, hq, hcur⟩ := (placeOk_text hp).1 hi.place
    refine State.Plain.running_inv ((hi.plain_advance hr).congr rfl)
      (hi.clear (by simp [hp]) (by simp [hp])) (by simp [hp])
      (Iff.mpr (placeOk_text hp) ⟨hidx, hsig, h0, ht, hq, ?_⟩) ?_
    · rw [hn] at hcur
      exact read_place hcur
    · rintro b ⟨⟩
      exact ⟨hp, by simpa [State.memRead] using hr⟩
  | record r crc hp hr =>
    obtain ⟨-, hsig, -⟩ := (placeOk_crc hp).1 hi.place
    exact hi.goes_on (by simp [hp]) (((hi.plain_advance hr).recorded crc).congr rfl) rfl (by simp)
      ((placeOk_ready rfl).2 ⟨rfl, hsig⟩)
  | lastRecord r crc hp hr =>
    obtain ⟨-, -, hcode, hpos⟩ := hi.clear (by simp [hp]) (by simp [hp])
    obtain ⟨-, hsig, -⟩ := (placeOk_crc hp).1 hi.place
    exact ((hi.plain_advance hr).recorded crc).finish_inv Term.noConfusion hsig hcode hpos
      (hi.pendTxt_eq_none (by simp [hp]))
  | emit b hp hb h0 =>
    obtain ⟨hidx, hsig, hrem, ht, hq, hcur⟩ := (placeOk_text hp).1 hi.place
    refine State.Plain.running_inv (hi.plain.congr rfl) (hi.clear (by simp [hp]) (by simp [hp]))
      (by simp [hp]) (Iff.mpr (placeOk_text hp) ⟨hidx, hsig, h0, ht, hq, ?_⟩) (by simp)
    simpa using emit_place hrem (by simpa [hb] using hcur)
  | emitLast b hp hb h0 =>
    obtain ⟨-, hsig, hrem, -, -, hcur⟩ := (placeOk_text hp).1 hi.place
    refine State.Plain.running_inv (hi.plain.congr rfl) (hi.clear (by simp [hp]) (by simp [hp]))
      (by simp) ((placeOk_crc rfl).2 ⟨by simp, hsig, ?_⟩) (by simp)
    have hcur := emit_place hrem (by simpa [hb] using hcur)
    rw [h0] at hcur
    simpa using hcur

/-- The invariant does not read what happens next, and of `CFG` and the host only their canonical
forms. -/
theorem State.Inv.with_outside {s : State} (hi : s.Inv) {c : Word} {k : HostState}
    (hc : c &&& 0xFFFFFFFE = 0) (hk : k.wf = true) (xs : List Input) :
    ({ s with cfg := c, host := k, inputs := xs } : State).Inv :=
  { hi with place := hi.place, cfgReserved := hc, hostWf := hk }

/-- A write leaves the reserved bits of `CFG` 0 (R27). -/
theorem cfgWritten_reserved (v : Word) : cfgWritten v &&& 0xFFFFFFFE = 0 := by
  rw [cfgWritten, BitVec.and_assoc, show (0x00000001 &&& 0xFFFFFFFE : Word) = 0 by decide]
  exact BitVec.and_zero

/-- Reset gives the invariant, whatever stream is attached (R44, R190). -/
theorem State.afterReset_inv (s : State) (bytes : List Byte) (hk : s.host.wf = true) :
    (s.afterReset bytes).Inv :=
  State.Plain.running_inv ⟨Memory.wf_ofBytes bytes, Nat.zero_le _, BitVec.zero_and, BitVec.zero_and, hk⟩
    ⟨rfl, rfl, rfl, rfl⟩ Phase.noConfusion ((placeOk_idle rfl).2 ⟨rfl, rfl, rfl⟩)
    (fun _ hb => nomatch hb)

/-- Settles O23: a move keeps the invariant, what else a step changes is outside it, and reset
gives it. -/
theorem stepKeepsInv : Obligations.StepKeepsInv := by
  intro s t hi h
  cases hr : s.resetNext with
  | true =>
    obtain ⟨bytes, rfl⟩ := step_reset h hr
    exact s.popped.afterReset_inv bytes hi.hostWf
  | false =>
    obtain ⟨a, u, c, k, hm, -, -, hc, hk, rfl⟩ := step_move h hr
    have hreserved : c &&& 0xFFFFFFFE = 0 := by
      rcases hc with rfl | ⟨v, rfl⟩
      · exact hi.cfgReserved
      · exact cfgWritten_reserved v
    have hpopped : s.popped.Inv := hi.with_outside hi.cfgReserved hi.hostWf _
    exact (hm.keeps_inv hpopped).with_outside hreserved (hk hi.hostWf) _

end Sys2Proof.Machine
end

section
/-! The trace and the registers (R45): one lemma for each event that is logged, one case for each
move, and the state after reset. -/

namespace Sys2Proof.Machine

/-! ### What keeps the agreement -/

/-- Outside ERROR no fault is on the trace. -/
theorem State.TraceAgrees.noFault {s : State} (ha : s.TraceAgrees) (hp : s.phase ≠ .error) :
    ∀ e ∈ s.trace, e.isFault = false := by
  simpa [hp] using ha.fault

/-- A move between phases other than ERROR that touches neither the trace nor the registers it
names. -/
theorem State.TraceAgrees.goes_on {s t : State} (ha : s.TraceAgrees) (hs : s.phase ≠ .error)
    (e : (t.trace, t.count, t.recLen, t.recType, t.recCrc, t.recFlags, t.sigOk, t.term) =
      (s.trace, s.count, s.recLen, s.recType, s.recCrc, s.recFlags, s.sigOk, s.term))
    (ht : t.phase ≠ .error) : t.TraceAgrees := by
  simp only [Prod.mk.injEq] at e
  obtain ⟨htrace, hcount, hlen, htype, hcrc, hflags, hsig, hterm⟩ := e
  constructor
  case count => rw [hcount, htrace]; exact ha.count
  case last => rw [hlen, htype, hcrc, hflags, htrace]; exact ha.last
  case sigOk => rw [hsig, htrace]; exact ha.sigOk
  case term => rw [hterm, htrace]; exact ha.term
  case fault => rw [if_neg ht, htrace]; exact ha.noFault hs

/-- The agreement reads neither `CFG` nor the host nor what happens next. -/
theorem State.TraceAgrees.with_outside {s : State} (ha : s.TraceAgrees) (c : Word)
    (k : HostState) (xs : List Input) :
    ({ s with cfg := c, host := k, inputs := xs } : State).TraceAgrees :=
  ⟨ha.count, ha.last, ha.sigOk, ha.term, ha.fault⟩

/-- A fault raised outside ERROR is the one fault on the trace, and the last event (R166). -/
theorem State.TraceAgrees.raise {s : State} (ha : s.TraceAgrees) (hp : s.phase ≠ .error)
    (code : ErrCode) : (s.raise code).TraceAgrees where
  count := by simpa [recordsOf_append, recordsOf] using ha.count
  last := by simpa [recordsOf_append, recordsOf] using ha.last
  sigOk := by simpa using ha.sigOk
  term := by simpa using ha.term
  fault := ⟨s.trace, rfl, ha.noFault hp⟩

/-- The first termination is the one `END` event (R134). -/
theorem State.TraceAgrees.finish {s : State} (ha : s.TraceAgrees) (hp : s.phase ≠ .error)
    (hterm : s.term = .none) {r : Term} (hr : r ≠ .none) : (s.finish r).TraceAgrees where
  count := by simpa [recordsOf_append, recordsOf] using ha.count
  last := by simpa [recordsOf_append, recordsOf] using ha.last
  sigOk := by simpa using ha.sigOk
  term t := by
    have hbefore : Event.ended t ∉ s.trace := fun hmem => by
      obtain ⟨rfl, hne⟩ := (ha.term t).1 hmem
      exact hne hterm
    simp only [State.finish_trace, State.finish_term, List.mem_append, hbefore, false_or,
      List.mem_singleton, Event.ended.injEq]
    constructor
    · rintro rfl
      exact ⟨rfl, hr⟩
    · rintro ⟨rfl, -⟩
      rfl
  fault := by
    simpa [Event.isFault, or_imp, forall_and] using ha.noFault hp

/-- A text byte is neither a record nor an end (R128). -/
theorem State.TraceAgrees.log_txt {s : State} (ha : s.TraceAgrees) (hp : s.phase ≠ .error)
    (b : Byte) : (s.log (.txt b)).TraceAgrees where
  count := by simpa [recordsOf_append, recordsOf] using ha.count
  last := by simpa [recordsOf_append, recordsOf] using ha.last
  sigOk := by simpa using ha.sigOk
  term := by simpa using ha.term
  fault := by
    simpa [hp, Event.isFault, or_imp, forall_and] using ha.noFault hp

/-- The signature validates (R103). -/
theorem State.TraceAgrees.log_sigOk {s : State} (ha : s.TraceAgrees) (hp : s.phase ≠ .error) :
    (({ s with sigOk := true } : State).log .sigOk).TraceAgrees where
  count := by simpa [recordsOf_append, recordsOf] using ha.count
  last := by simpa [recordsOf_append, recordsOf] using ha.last
  sigOk := by simp
  term := by simpa using ha.term
  fault := by
    simpa [hp, Event.isFault, or_imp, forall_and] using ha.noFault hp

/-- A completed record is counted and is the last one (R33, R133). -/
theorem State.TraceAgrees.recorded {s : State} (ha : s.TraceAgrees) (hp : s.phase ≠ .error)
    (crc : Word) : (s.recorded crc).TraceAgrees where
  count := by
    simp [State.recorded, recordsOf_append, recordsOf, ha.count, BitVec.ofNat_add]
  last := by simp [State.recorded, recordsOf_append, recordsOf]
  sigOk := by simpa [State.recorded] using ha.sigOk
  term := by simpa [State.recorded] using ha.term
  fault := by
    simpa [State.recorded, hp, Event.isFault, or_imp, forall_and] using ha.noFault hp

/-- With no event and no register written there is nothing to agree on (R44). -/
theorem State.afterReset_traceAgrees (s : State) (bytes : List Byte) :
    (s.afterReset bytes).TraceAgrees where
  count := rfl
  last := ⟨rfl, rfl, rfl, rfl⟩
  sigOk := by simp [State.afterReset, State.reset]
  term t := by
    simp only [State.afterReset, State.reset, List.not_mem_nil, false_iff]
    rintro ⟨rfl, hne⟩
    exact hne rfl
  fault := by simp [State.afterReset, State.reset]

/-! ### Every move keeps the agreement -/

theorem Move.keeps_traceAgrees {s t : State} {a : Agent} (hm : Move s a t) (hi : s.Inv)
    (ha : s.TraceAgrees) : t.TraceAgrees := by
  cases hm with
  | noCommand | unawaited | unoffered => exact ha
  | commandFault code hp => exact ha.raise hp code
  | endFault code hp =>
    exact ha.raise (by rcases hp with hp | hp | hp | hp <;> simp [hp]) code
  | skipFault hp => exact ha.raise (by simp [hp]) _
  | lenFault hp =>
    have h : ({ s with eofResid := s.idx.setWidth 2 } : State).TraceAgrees :=
      ha.goes_on (by simp [hp]) rfl (by simp [hp])
    exact h.raise (by simp [hp]) _
  | cleanEnd hp =>
    have h : ({ s with eofResid := s.idx.setWidth 2 } : State).TraceAgrees :=
      ha.goes_on (by simp [hp]) rfl (by simp [hp])
    have hterm := (hi.clear (by simp [hp]) (by simp [hp])).1
    exact h.finish (by simp [hp]) hterm (by simp)
  | sigMismatch r hp =>
    have h : ({ s.advance 1 with sigBad := true } : State).TraceAgrees :=
      ha.goes_on (by simp [hp]) rfl (by simp [hp])
    exact h.raise (by simp [hp]) _
  | sigOk r hp =>
    have hs : s.phase ≠ .error := by simp [hp]
    exact (ha.log_sigOk hs).goes_on hs rfl (by simp)
  | fieldByte r hp =>
    have hs : s.phase ≠ .error := by rcases hp with hp | hp | hp <;> simp [hp]
    exact ha.goes_on hs rfl hs
  | sigchk hp | next hp | lenLast _ hp | typeEmpty _ hp | typeText _ hp | typeSkip _ hp
  | skipLast _ hp =>
    exact ha.goes_on (by simp [hp]) rfl (by simp)
  | sigByte _ _ hp | skip _ hp | textRead _ hp =>
    exact ha.goes_on (by simp [hp]) rfl (by simp [hp])
  | record r crc hp =>
    have hs : s.phase ≠ .error := by simp [hp]
    have h : (s.advance 1).TraceAgrees := ha.goes_on hs rfl hs
    exact (h.recorded hs crc).goes_on hs rfl (by simp)
  | lastRecord r crc hp =>
    have hs : s.phase ≠ .error := by simp [hp]
    have h : (s.advance 1).TraceAgrees := ha.goes_on hs rfl hs
    have hterm := (hi.clear (by simp [hp]) hs).1
    exact (h.recorded hs crc).finish hs hterm (by simp)
  | emit b hp =>
    have hs : s.phase ≠ .error := by simp [hp]
    exact (ha.log_txt hs b).goes_on hs rfl hs
  | emitLast b hp =>
    have hs : s.phase ≠ .error := by simp [hp]
    exact (ha.log_txt hs b).goes_on hs rfl (by simp)

/-- Settles O26: a move keeps the agreement, what else a step changes is outside it, and reset
gives it. -/
theorem stepKeepsTraceAgreement : Obligations.StepKeepsTraceAgreement := by
  refine ⟨State.reset.afterReset_traceAgrees [], fun s t hi ha h => ?_⟩
  cases hr : s.resetNext with
  | true =>
    obtain ⟨bytes, rfl⟩ := step_reset h hr
    exact s.popped.afterReset_traceAgrees bytes
  | false =>
    obtain ⟨a, u, c, k, hm, -, -, -, -, rfl⟩ := step_move h hr
    have hpopped : s.popped.Inv := hi.with_outside hi.cfgReserved hi.hostWf _
    exact (hm.keeps_traceAgrees hpopped (ha.with_outside _ _ _)).with_outside _ _ _

/-- Settles O24: `State.reset` is its own reset without a stream. -/
theorem resetHasInv : Obligations.ResetHasInv :=
  ⟨State.reset.afterReset_inv [] rfl,
    fun s bytes hk => ⟨s.afterReset_inv bytes hk, rfl, s.afterReset_traceAgrees bytes⟩⟩

end Sys2Proof.Machine
end

section
/-! The register map and `STATUS`: what every offset reads and what a write to it does (R25 to R37,
R81), and the fields of `STATUS` (R28). -/

namespace Sys2Proof.Machine

/-! ### Fields of `STATUS` -/

/-- The word of `STATUS` cut at the bounds of its fields. -/
theorem statusWord_fields (s : State) :
    s.statusWord.extractLsb' 0 1 = BitVec.ofBool s.phase.busy ∧
    s.statusWord.extractLsb' 1 1 = BitVec.ofBool s.sigOk ∧
    s.statusWord.extractLsb' 2 1 = BitVec.ofBool (s.phase == .done) ∧
    s.statusWord.extractLsb' 3 1 = BitVec.ofBool (s.phase == .error) ∧
    s.statusWord.extractLsb' 4 2 = s.term.code ∧
    s.statusWord.extractLsb' 6 2 = 0 ∧
    s.statusWord.extractLsb' 8 4 = s.phase.code ∧
    s.statusWord.extractLsb' 12 4 = s.errcode.code ∧
    s.statusWord.extractLsb' 16 2 = s.eofResid ∧
    s.statusWord.extractLsb' 18 14 = 0 := by
  unfold State.statusWord
  simp (disch := decide) only [BitVec.extractLsb'_append_eq_of_le,
    BitVec.extractLsb'_append_eq_of_add_le, BitVec.extractLsb'_eq_self, Nat.reduceSub, and_self]

/-- A field of one bit that holds a truth value. -/
theorem flag_eq_one_iff {x : BitVec 1} {b : Bool} (h : x = BitVec.ofBool b) :
    x = 1 ↔ b = true := by
  subst h
  cases b <;> decide

theorem busy_iff (p : Phase) :
    p.busy = true ↔ p = .sig ∨ p = .len ∨ p = .type ∨ p = .skip ∨ p = .text ∨ p = .crc := by
  cases p <;> simp [Phase.busy]

/-- Settles O28: each field is cut out of `STATUS`, and its code is read off by cases. -/
theorem statusFields : Obligations.StatusFields := by
  intro s
  obtain ⟨hbusy, hsig, hdone, herr, hterm, hlow, hphase, hcode, hresid, hhigh⟩ :=
    statusWord_fields s
  refine ⟨?busy, ?sig, ?done, ?err, ?term, hlow, ?phase, ?code, hresid, hhigh⟩
  case busy => exact (flag_eq_one_iff hbusy).trans (busy_iff _)
  case sig => exact flag_eq_one_iff hsig
  case done => exact (flag_eq_one_iff hdone).trans beq_iff_eq
  case err => exact (flag_eq_one_iff herr).trans beq_iff_eq
  case term => exact hterm.trans (by cases s.term <;> rfl)
  case phase => exact hphase.trans (by cases s.phase <;> rfl)
  case code => exact hcode.trans (by cases s.errcode <;> rfl)

/-! ### Offsets -/

theorem offset_eq_of_regAt {off : BitVec 8} {r : Reg} (h : regAt off = some r) :
    r.offset = off := by
  simpa using List.find?_some h

theorem Reg.offset_toNat_lt (r : Reg) : r.offset.toNat < 0x40 := by
  cases r <;> decide

/-- The reserved offsets hold no register (R25). -/
theorem regAt_eq_none {off : BitVec 8} (h : 0x40 ≤ off.toNat) : regAt off = none := by
  cases hr : regAt off with
  | none => rfl
  | some r =>
    have := r.offset_toNat_lt
    rw [offset_eq_of_regAt hr] at this
    omega

theorem readOffset_reserved (s : State) {off : BitVec 8} (h : 0x40 ≤ off.toNat) :
    s.readOffset off = 0 := by
  rw [State.readOffset, regAt_eq_none h]

/-- After reset every register holds 0 (R44). -/
theorem reset_readReg (r : Reg) : State.reset.readReg r = 0 := by
  cases r <;> rfl

theorem reset_readOffset (off : BitVec 8) : State.reset.readOffset off = 0 := by
  unfold State.readOffset
  split
  · exact reset_readReg _
  · rfl

/-- From `STATUS` on, no register can be written (R25). -/
theorem writeOffset_readOnly (s : State) {off : BitVec 8} (h : 8 ≤ off.toNat) (v : Word) :
    writeOffset off v s = .next s := by
  unfold writeOffset
  split <;> rename_i hr
  · rw [← offset_eq_of_regAt hr] at h
    exact absurd h (by decide)
  · rw [← offset_eq_of_regAt hr] at h
    exact absurd h (by decide)
  all_goals rfl

/-! ### Word accesses at a multiple of 4 -/

section
variable (s : State) {off : BitVec 8} (h4 : off.toNat % 4 = 0)
include h4

theorem access_rd_word :
    access (.rd .word off) s =
      .next { s with host := { s.host with rdata := s.readOffset off } } := by
  simp [access, Access.wordWide, Access.width, Access.aligned, Access.offset, h4, admittedAccess]

theorem access_wr_word (v : Word) : access (.wr .word off v) s = writeOffset off v s := by
  simp [access, Access.wordWide, Access.width, Access.aligned, Access.offset, h4, admittedAccess]

end

/-- A write to `CFG` (R27, R81). -/
theorem access_wr_cfg (s : State) (v : Word) :
    access (.wr .word 0x04 v) s = .next { s with cfg := v &&& 0x00000001 } :=
  access_wr_word s (by decide) v

/-- Settles O29: the offsets of R25 one by one, then the reserved ones and the writes. -/
theorem registerMap : Obligations.RegisterMap := by
  intro s
  refine ⟨rfl, rfl, rfl, rfl, rfl, rfl, rfl, rfl, rfl, rfl, rfl, rfl, rfl, rfl, rfl, rfl,
    fun _ h => readOffset_reserved s h, fun w => access_wr_word s (by decide) w,
    access_wr_cfg s, reset_readOffset, fun off h4 => ⟨access_rd_word s h4, fun h8 v => ?_⟩⟩
  rw [access_wr_word s h4, writeOffset_readOnly s h8]

end Sys2Proof.Machine
end

section
/-! What single moves do to the registers, the cursor and the text, and what follows for every step
(R27, R29 to R36, R44, R128). -/

namespace Sys2Proof.Machine

/-! ### Reset, and the ends of a run -/

/-- In DONE and ERROR the only moves are to do nothing and to raise a command fault (R134, R168). -/
theorem Move.stays_ended {s t : State} {a : Agent} (hm : Move s a t)
    (hp : s.phase = .done ∨ s.phase = .error) : t.phase = .done ∨ t.phase = .error := by
  cases hm with
  | noCommand | unawaited | unoffered => exact hp
  | commandFault => exact .inr rfl
  | endFault | skipFault | lenFault | sigMismatch => exact .inr rfl
  | cleanEnd | lastRecord => exact .inl rfl
  | fieldByte _ h => rcases h with h | h | h <;> simp [h] at hp
  | sigchk h | next h | sigByte _ _ h | sigOk _ h | lenLast _ h | typeEmpty _ h | typeText _ h
  | typeSkip _ h | skip _ h | skipLast _ h | textRead _ h | record _ _ h | emit _ h
  | emitLast _ h => simp [h] at hp

/-- Settles O21: the state after reset is written out, and moves stay in DONE and ERROR. -/
theorem resetFromAnyState : Obligations.ResetFromAnyState := by
  refine ⟨fun s bytes rest hi => ?_, fun s t hp h hr => ?_⟩
  · have hstep : step s = .next (({ s with inputs := rest } : State).afterReset bytes) := by
      rw [step, hi]
      rfl
    exact ⟨_, hstep, rfl, rfl, rfl, rfl, rfl, rfl, rfl, rfl, rfl, rfl, rfl, rfl, rfl, rfl, rfl, rfl,
      rfl, rfl, rfl, rfl, rfl, rfl, rfl, rfl, reset_readReg .status, rfl, rfl, rfl,
      Memory.read_ofBytes bytes⟩
  · obtain ⟨a, u, c, k, hm, -, -, -, -, rfl⟩ := step_move h hr
    exact hm.stays_ended hp

/-! ### `CFG` and the sampled request -/

/-- The lowest bit as a field and as a truth value. -/
theorem extractLsb_zero_eq_one_iff (w : Word) : w.extractLsb 0 0 = 1 ↔ w.getLsbD 0 = true := by
  constructor
  · intro h
    simpa using congrArg (fun x => x.getLsbD 0) h
  · intro h
    apply BitVec.eq_of_getLsbD_eq
    intro i hi
    obtain rfl : i = 0 := by omega
    simpa using h

/-- With the bits that R27 reserves all 0, the field above bit 0 is 0. -/
theorem extractLsb_high_eq_zero {w : Word} (h : w &&& 0xFFFFFFFE = 0) :
    w.extractLsb 31 1 = 0 := by
  calc w.extractLsb 31 1
      = (w &&& 0xFFFFFFFE).extractLsb 31 1 := by
        rw [BitVec.extractLsb_and, show (0xFFFFFFFE : Word).extractLsb 31 1 = BitVec.allOnes _ by
          decide, BitVec.and_allOnes]
    _ = 0 := by
        rw [h]
        rfl

/-- A busy engine's request stays the sampled one (R200). -/
theorem Move.keeps_textReq {s t : State} {a : Agent} (hm : Move s a t)
    (hb : s.phase.busy = true) : t.textReq = s.textReq := by
  cases hm with
  | next hp => simp [hp, Phase.busy] at hb
  | _ => rfl

/-- Settles O31: the write and the sampling are the model's own equations, and no move of a busy
engine samples again. -/
theorem cfgWriteAndSampling : Obligations.CfgWriteAndSampling := by
  refine fun s => ⟨access_wr_cfg s, fun hi => extractLsb_high_eq_zero hi.cfgReserved,
    fun t hp h => ?_, fun t h hb hr => ?_⟩
  · have ht : acceptNext s = t := by
      simpa [exec, execNext, State.gate, hp, Phase.busy] using h
    rw [← ht, acceptNext, if_pos hp, extractLsb_zero_eq_one_iff]
    rfl
  · obtain ⟨a, u, c, k, hm, -, -, -, -, rfl⟩ := step_move h hr
    exact hm.keeps_textReq hb

/-! ### Record registers -/

/-- Only the 4th checksum byte writes the record registers (R133). -/
theorem Move.keeps_records {s t : State} {a : Agent} (hm : Move s a t)
    (hno : ¬ (a = .source ∧ s.phase = .crc ∧ s.idx = 3 ∧ s.memRead ≠ none)) :
    t.recLen = s.recLen ∧ t.recType = s.recType ∧ t.recCrc = s.recCrc ∧
      t.recFlags = s.recFlags ∧ t.count = s.count ∧ t.recStartLast = s.recStartLast ∧
      recordsOf t.trace = recordsOf s.trace := by
  cases hm with
  | record r crc hp hr hi | lastRecord r crc hp hr hi =>
    exact absurd ⟨rfl, hp, hi, by simp [hr]⟩ hno
  | _ => exact ⟨rfl, rfl, rfl, rfl, rfl, rfl, by simp [recordsOf_append, recordsOf]⟩

/-- Settles O32: every other move leaves them, and what else a step changes is outside them. -/
theorem recordRegistersChangeOnlyAtCompletion :
    Obligations.RecordRegistersChangeOnlyAtCompletion := by
  intro s t h hr hno
  obtain ⟨a, u, c, k, hm, hsource, -, -, -, rfl⟩ := step_move h hr
  exact hm.keeps_records fun ⟨ha, hrest⟩ => hno ⟨hsource.1 ha, hrest⟩

/-! ### `CUR_LEN` and `CUR_TYPE` -/

/-- From READY to LEN there is only the acceptance of NEXT (R121). -/
theorem Move.clears_current {s t : State} {a : Agent} (hm : Move s a t) (hp : s.phase = .ready)
    (ht : t.phase = .len) : t.curLen = 0 ∧ t.curType = 0 := by
  cases hm with
  | next => exact ⟨rfl, rfl⟩
  | noCommand | unawaited | unoffered => simp [hp] at ht
  | commandFault | endFault | skipFault | lenFault | sigMismatch => simp at ht
  | cleanEnd | lastRecord => simp at ht
  | fieldByte _ h => simp [hp] at h
  | sigchk h | sigByte _ _ h | sigOk _ h | lenLast _ h | typeEmpty _ h | typeText _ h
  | typeSkip _ h | skip _ h | skipLast _ h | textRead _ h | record _ _ h | emit _ h
  | emitLast _ h => simp [hp] at h

/-- Only the acceptance of NEXT and the 4th byte of the length or the type write them (R36). -/
theorem Move.keeps_current {s t : State} {a : Agent} (hm : Move s a t)
    (haccept : ¬ (s.phase = .ready ∧ t.phase = .len))
    (hload : ¬ (a = .source ∧ (s.phase = .len ∨ s.phase = .type) ∧ s.idx = 3 ∧
      s.memRead ≠ none)) :
    t.curLen = s.curLen ∧ t.curType = s.curType := by
  cases hm with
  | next hp => exact absurd ⟨hp, rfl⟩ haccept
  | lenLast r hp hr hi => exact absurd ⟨rfl, .inl hp, hi, by simp [hr]⟩ hload
  | typeEmpty r hp hr hi | typeText r hp hr hi | typeSkip r hp hr hi =>
    exact absurd ⟨rfl, .inr hp, hi, by simp [hr]⟩ hload
  | _ => exact ⟨rfl, rfl⟩

/-- The 4th length byte loads `CUR_LEN` (R122). -/
theorem lenStep_last {s : State} {r : Byte} (hi : s.idx = 3) (hr : s.memRead = some r) :
    lenStep s =
      { s.advance 1 with curLen := shiftIn s.acc r, acc := 0, idx := 0, phase := .type } := by
  simp only [lenStep, hr, hi, if_true]

/-- The 4th type byte loads `CUR_TYPE` (R124). -/
theorem typeStep_last {s : State} {r : Byte} (hi : s.idx = 3) (hr : s.memRead = some r) :
    (typeStep s).curType = shiftIn s.acc r ∧ (typeStep s).curLen = s.curLen := by
  have e : typeStep s =
      selectPayload { s.advance 1 with curType := shiftIn s.acc r, acc := 0, idx := 0 } := by
    simp only [typeStep, hr, hi, if_true]
  rw [e]
  rcases selectPayload_cases
    ({ s.advance 1 with curType := shiftIn s.acc r, acc := 0, idx := 0 } : State) with
    ⟨-, e⟩ | ⟨-, -, -, e⟩ | ⟨-, -, e⟩ <;> rw [e] <;> exact ⟨rfl, rfl⟩

/-- Settles O34: the loads are the two micro-steps' own equations, the rest holds of every move. -/
theorem currentFieldRegisters : Obligations.CurrentFieldRegisters := by
  intro s t h hr
  refine ⟨rfl, rfl, ?accept, ?len, ?type, ?keep⟩
  case len =>
    intro r hs hp hi hread
    obtain ⟨k, rfl⟩ := step_source h hs
    have e : sourceStep k s.popped = lenStep s.popped := by simp [sourceStep, hp]
    rw [e, lenStep_last (s := s.popped) hi hread]
    exact ⟨rfl, rfl⟩
  case type =>
    intro r hs hp hi hread
    obtain ⟨k, rfl⟩ := step_source h hs
    have e : sourceStep k s.popped = typeStep s.popped := by simp [sourceStep, hp]
    rw [e]
    exact typeStep_last (s := s.popped) hi hread
  case accept =>
    intro hp ht
    obtain ⟨a, u, c, k, hm, -, -, -, -, rfl⟩ := step_move h hr
    exact hm.clears_current hp ht
  case keep =>
    intro haccept hload
    obtain ⟨a, u, c, k, hm, hsource, -, -, -, rfl⟩ := step_move h hr
    exact hm.keeps_current haccept fun ⟨ha, hrest⟩ => hload ⟨hsource.1 ha, hrest⟩

/-! ### The cursor -/

/-- The move in the source's turn consumes something: it is awaited and the stream has a byte. -/
def State.consumes (s : State) (a : Agent) : Prop :=
  a = .source ∧ s.awaitsSource = true ∧ s.memRead ≠ none

/-- What a move does to the cursor: nothing, or one byte read, or some bytes skipped (R35, R66). -/
theorem Move.cursor_cases {s t : State} {a : Agent} (hm : Move s a t) (hi : s.Inv) :
    (¬ s.consumes a ∧ t.cursor = s.cursor) ∨
    (s.consumes a ∧ s.phase ≠ .skip ∧ t.cursor = s.cursor + BitVec.ofNat 64 1) ∨
    (s.consumes a ∧ s.phase = .skip ∧ ∃ n, 1 ≤ n ∧ n ≤ s.rem.toNat ∧ n ≤ s.available ∧
      t.cursor = s.cursor + BitVec.ofNat 64 n ∧ t.rem = s.rem - BitVec.ofNat 32 n) := by
  have hskip : s.stream.size ≤ s.cursor.toNat → s.memRead = none :=
    (Memory.read_eq_none_iff hi.streamWf _).2
  cases hm with
  | noCommand | commandFault | sigchk | next | unoffered | emit | emitLast =>
    exact .inl ⟨by simp [State.consumes], rfl⟩
  | unawaited hw => exact .inl ⟨by simp [State.consumes, hw], rfl⟩
  | endFault _ _ hr | lenFault _ hr | cleanEnd _ hr =>
    exact .inl ⟨by simp [State.consumes, hr], rfl⟩
  | skipFault _ hsize => exact .inl ⟨by simp [State.consumes, hskip hsize], rfl⟩
  | fieldByte r hp hr =>
    refine .inr (.inl ⟨⟨rfl, ?_, by simp [hr]⟩, ?_, rfl⟩) <;>
      rcases hp with hp | hp | hp <;> simp [State.awaitsSource, hp]
  | sigByte r _ hp hr | sigMismatch r hp hr | sigOk r hp hr | lenLast r hp hr | typeEmpty r hp hr
  | typeText r hp hr | typeSkip r hp hr | record r _ hp hr | lastRecord r _ hp hr =>
    exact .inr (.inl ⟨⟨rfl, by simp [State.awaitsSource, hp], by simp [hr]⟩, by simp [hp], rfl⟩)
  | textRead r hp hn hr =>
    obtain ⟨-, -, hrem, -⟩ := (placeOk_text hp).1 hi.place
    exact .inr (.inl ⟨⟨rfl, by simpa [State.awaitsSource, hp, hn] using hrem, by simp [hr]⟩,
      by simp [hp], rfl⟩)
  | skip n hp h1 hn ha | skipLast n hp h1 hn ha =>
    obtain ⟨-, -, hrem, -⟩ := (placeOk_skip hp).1 hi.place
    have hread : s.memRead ≠ none := fun hend => by
      have hle := (Memory.read_eq_none_iff hi.streamWf _).1 hend
      unfold State.available at ha
      omega
    exact .inr (.inr ⟨⟨rfl, by simpa [State.awaitsSource, hp] using hrem, hread⟩, hp, n, h1, hn, ha,
      rfl, rfl⟩)

/-- In a stream below 2^64 bytes, passing bytes that exist does not wrap the cursor (R70). -/
theorem State.Sound.cursor_add_toNat {s : State} (hs : s.Sound) {n : Nat} (hn : n ≤ s.available) :
    (s.cursor + BitVec.ofNat 64 n).toNat = s.cursor.toNat + n := by
  have hle := hs.inv.cursorLe
  have hshort := hs.short
  unfold State.available at hn
  rw [BitVec.toNat_add, BitVec.toNat_ofNat]
  omega

/-- The payload count goes down by a number it holds. -/
theorem toNat_sub_ofNat {r : Word} {n : Nat} (h : n ≤ r.toNat) :
    (r - BitVec.ofNat 32 n).toNat = r.toNat - n := by
  have hr := r.isLt
  have hn : (BitVec.ofNat 32 n).toNat = n := by
    rw [BitVec.toNat_ofNat]
    omega
  rw [BitVec.toNat_sub_of_le (by rw [BitVec.le_def, hn]; exact h), hn]

/-- A byte that can be read is available. -/
theorem State.Inv.one_le_available {s : State} (hi : s.Inv) (h : s.memRead ≠ none) :
    1 ≤ s.available := by
  have hlt : ¬ s.stream.size ≤ s.cursor.toNat :=
    fun hle => h ((Memory.read_eq_none_iff hi.streamWf _).2 hle)
  unfold State.available
  omega

/-- What a step that is no reset does to the cursor, as a number (R35, R66, R70). -/
theorem step_cursor_cases {s t : State} (hs : s.Sound) (h : step s = .next t)
    (hr : s.resetNext = false) :
    (¬ (s.sourceNext = true ∧ s.awaitsSource = true ∧ s.memRead ≠ none) ∧
      t.cursor = s.cursor) ∨
    (s.sourceNext = true ∧ s.awaitsSource = true ∧ s.memRead ≠ none ∧ s.phase ≠ .skip ∧
      t.cursor.toNat = s.cursor.toNat + 1) ∨
    (s.sourceNext = true ∧ s.awaitsSource = true ∧ s.memRead ≠ none ∧ s.phase = .skip ∧
      ∃ k, 1 ≤ k ∧ k ≤ min s.rem.toNat s.available ∧ t.cursor.toNat = s.cursor.toNat + k ∧
        t.rem.toNat = s.rem.toNat - k) := by
  obtain ⟨a, u, c, k, hm, hsource, -, -, -, rfl⟩ := step_move h hr
  have hpopped : s.popped.Inv := hs.inv.with_outside hs.inv.cfgReserved hs.inv.hostWf _
  rcases hm.cursor_cases hpopped with
    ⟨hno, hcur⟩ | ⟨⟨ha, hw, hread⟩, hp, hcur⟩ | ⟨⟨ha, hw, hread⟩, hp, n, h1, hn, hav, hcur, hrem⟩
  · exact .inl ⟨fun ⟨hsrc, hw, hread⟩ => hno ⟨hsource.2 hsrc, hw, hread⟩, hcur⟩
  · exact .inr (.inl ⟨hsource.1 ha, hw, hread, hp,
      (congrArg BitVec.toNat hcur).trans (hs.cursor_add_toNat (hs.inv.one_le_available hread))⟩)
  · exact .inr (.inr ⟨hsource.1 ha, hw, hread, hp, n, h1, le_min hn hav,
      (congrArg BitVec.toNat hcur).trans (hs.cursor_add_toNat hav),
      (congrArg BitVec.toNat hrem).trans (toNat_sub_ofNat hn)⟩)

theorem resetNext_of_sourceNext {s : State} (h : s.sourceNext = true) : s.resetNext = false := by
  unfold State.sourceNext at h
  split at h
  · rename_i k hk
    simp [State.resetNext, hk, Input.isReset]
  · cases h

/-- Settles O36: of the three things a step does to the cursor, each clause picks its own. -/
theorem cursorMoves : Obligations.CursorMoves := by
  refine ⟨fun s => ⟨rfl, rfl⟩, fun s t hs h => ⟨?reset, ?grows, ?stays, ?read, ?skip⟩⟩
  case reset =>
    intro hr
    obtain ⟨bytes, rfl⟩ := step_reset h hr
    rfl
  case grows =>
    intro hr
    rcases step_cursor_cases hs h hr with
      ⟨-, hcur⟩ | ⟨-, -, -, -, hcur⟩ | ⟨-, -, -, -, k, -, -, hcur, -⟩
    · rw [hcur]
    · omega
    · omega
  case stays =>
    intro hr hquiet
    rcases step_cursor_cases hs h hr with
      ⟨-, hcur⟩ | ⟨hsrc, hw, hread, -⟩ | ⟨hsrc, hw, hread, -⟩
    · exact hcur
    · simp [hsrc, hw, hread] at hquiet
    · simp [hsrc, hw, hread] at hquiet
  case read =>
    intro hsrc hw hread hp
    rcases step_cursor_cases hs h (resetNext_of_sourceNext hsrc) with
      ⟨hno, -⟩ | ⟨-, -, -, -, hcur⟩ | ⟨-, -, -, hskip, -⟩
    · exact absurd ⟨hsrc, hw, hread⟩ hno
    · exact hcur
    · exact absurd hskip hp
  case skip =>
    intro hsrc hw hread hp
    rcases step_cursor_cases hs h (resetNext_of_sourceNext hsrc) with
      ⟨hno, -⟩ | ⟨-, -, -, hskip, -⟩ | ⟨-, -, -, -, hcur⟩
    · exact absurd ⟨hsrc, hw, hread⟩ hno
    · exact absurd hp hskip
    · exact hcur

/-! ### The text port -/

/-- Only an accepted byte comes on the text, and it is the payload byte that was pending (R128). -/
theorem Move.text_cases {s t : State} {a : Agent} (hm : Move s a t) (hi : s.Inv) :
    textOf t.trace = textOf s.trace ∨
    ∃ b, textOf t.trace = textOf s.trace ++ [b] ∧ a = .sink ∧ s.phase = .text ∧
      s.curType = s.params.textMarker.pack ∧ s.textReq = true ∧
      s.stream.read (s.cursor - 1).toNat = some b ∧ t.cursor = s.cursor ∧ t.rem = s.rem - 1 := by
  cases hm with
  | emit b hp hb | emitLast b hp hb =>
    obtain ⟨-, -, -, htype, hreq, -⟩ := (placeOk_text hp).1 hi.place
    exact .inr ⟨b, by simp [textOf_append, textOf], rfl, hp, htype, hreq, (hi.pending b hb).2, rfl,
      rfl⟩
  | _ => exact .inl (by simp [State.recorded, textOf_append, textOf])

/-- Settles O39: the text grows only in the sink's moves, which leave the byte before the cursor. -/
theorem textBytesArePayloadBytes : Obligations.TextBytesArePayloadBytes := by
  intro s t hi h hr
  obtain ⟨a, u, c, k, hm, -, hsink, -, -, rfl⟩ := step_move h hr
  have hpopped : s.popped.Inv := hi.with_outside hi.cfgReserved hi.hostWf _
  rcases hm.text_cases hpopped with hsame | ⟨b, htext, ha, hrest⟩
  · exact .inl hsame
  · exact .inr ⟨b, htext, hsink ha, hrest⟩

end Sys2Proof.Machine
end

section
/-! The stream and its bounds: which host accesses are admitted (R64), what a step leaves of the stream
and the parameters (R61, R62, R193), what stops a step, and where a completed record leaves the cursor
(R70, R145). -/

namespace Sys2Proof.Machine

/-! ### Host accesses -/

/-- An admitted access always leaves a next state (R81). -/
theorem admittedAccess_answers_next (a : Access) (s : State) :
    ∃ t, admittedAccess a s = .next t := by
  cases a with
  | rd => exact ⟨_, rfl⟩
  | wr width off v =>
    simp only [admittedAccess, writeOffset]
    split
    · exact submit_answers_next v s
    all_goals exact ⟨_, rfl⟩

theorem access_of_wf {a : Access} (h : a.wf = true) (s : State) :
    access a s = admittedAccess a s := by
  obtain ⟨hword, haligned⟩ := (Bool.and_eq_true _ _).mp h
  rw [access, if_neg (by simp [hword]), if_neg (by simp [haligned])]

/-- Only an access that is not admitted is refused (R64). -/
theorem wf_eq_false_of_access_refused {a : Access} {s : State} {r : Refusal}
    (h : access a s = .refused r) : a.wf = false := by
  by_contra hwf
  obtain ⟨t, ht⟩ := admittedAccess_answers_next a s
  rw [access_of_wf (by simpa using hwf), ht] at h
  cases h

theorem wordWide_eq_true_iff (a : Access) : a.wordWide = true ↔ a.width = .word := beq_iff_eq

theorem aligned_eq_true_iff (a : Access) : a.aligned = true ↔ a.offset.toNat % 4 = 0 := beq_iff_eq

/-- Settles O30: the two tests of `access` are the two conditions of R64. -/
theorem otherAccessesRefused : Obligations.OtherAccessesRefused := by
  intro a s
  rw [← aligned_eq_true_iff, ne_eq, ne_eq, ← aligned_eq_true_iff, ← wordWide_eq_true_iff]
  refine ⟨fun hword haligned => ?_, fun hword => ?_, fun hword haligned => ?_⟩
  · rw [access_of_wf (by simp [Access.wf, hword, haligned])]
    exact admittedAccess_answers_next a s
  · exact if_pos (Bool.eq_false_of_not_eq_true hword)
  · rw [access, if_neg (by simp [hword])]
    exact if_pos (Bool.eq_false_of_not_eq_true haligned)

/-! ### What stops a step -/

/-- A host statement is refused only for a misaligned access; its accesses are all word wide (R94). -/
theorem hostOp_refused {op : HostOp} {s : State} {r : Refusal} (h : hostOp op s = .refused r) :
    ∃ off : BitVec 8, off.toNat % 4 ≠ 0 ∧ ((∃ v, op = .rd v off) ∨ ∃ v, op = .wr off v) := by
  have misaligned : ∀ {a : Access} {f : State → State}, a.width = .word →
      thenHost f (access a s) = .refused r → a.offset.toNat % 4 ≠ 0 := by
    intro a f hword h
    rw [ne_eq, ← aligned_eq_true_iff]
    intro haligned
    obtain ⟨t, ht⟩ := admittedAccess_answers_next a s
    have hwf : a.wf = true := by simp [Access.wf, haligned, (wordWide_eq_true_iff a).2 hword]
    rw [access_of_wf hwf, ht] at h
    cases h
  cases op with
  | rd v off => exact ⟨off, misaligned (a := .rd .word off) rfl h, .inl ⟨v, rfl⟩⟩
  | wr off v => exact ⟨off, misaligned (a := .wr .word off v) rfl h, .inr ⟨v, rfl⟩⟩
  | branch | jump | halt => cases h

/-- Settles O45: input by input, with the refusals of the bus, the host, the reset and the source. -/
theorem stepStopsOnlyOutsideTheRules : Obligations.StepStopsOnlyOutsideTheRules := by
  refine fun s => ⟨fun r => (nomatch r), fun bytes pos rest hi hpos => ?_, fun r h => ?_⟩
  · have hlaunch : ¬ WellFormed.launchPosition pos = true := by
      simpa [WellFormed.launchPosition] using hpos
    rw [step, hi]
    exact if_neg hlaunch
  · unfold step at h
    split at h
    · cases h
    · rename_i i rest hi
      cases i with
      | access a => exact .inl ⟨a, rest, hi, wf_eq_false_of_access_refused h⟩
      | hostRun =>
        simp only [takeInput, hostStep] at h
        split at h
        · rename_i op hop
          exact .inr (.inl ⟨rest, op, hi, hop, hostOp_refused h⟩)
        · cases h
      | source | sink => cases h
      | reset bytes pos =>
        refine .inr (.inr (.inl ⟨bytes, pos, rest, hi, ?_⟩))
        rintro rfl
        cases h
      | streamIs bytes =>
        refine .inr (.inr (.inr ⟨bytes, rest, hi, fun heq => ?_⟩))
        simp only [takeInput, streamInput, if_pos heq] at h
        cases h

/-! ### The stream and the parameters -/

/-- The engine reads its stream and its parameters and writes neither (R61, R193). -/
theorem Move.keeps_stream_params {s t : State} {a : Agent} (hm : Move s a t) :
    t.stream = s.stream ∧ t.params = s.params := by
  cases hm <;> exact ⟨rfl, rfl⟩

theorem step_keeps_stream {s t : State} (h : step s = .next t) (hr : s.resetNext = false) :
    t.stream = s.stream := by
  obtain ⟨a, u, c, k, hm, -, -, -, -, rfl⟩ := step_move h hr
  exact hm.keeps_stream_params.1

theorem step_keeps_params {s t : State} (h : step s = .next t) : t.params = s.params := by
  cases hr : s.resetNext with
  | true =>
    obtain ⟨bytes, rfl⟩ := step_reset h hr
    rfl
  | false =>
    obtain ⟨a, u, c, k, hm, -, -, -, -, rfl⟩ := step_move h hr
    exact hm.keeps_stream_params.2

/-- Settles O37: no move writes either, and a reset keeps the parameters. -/
theorem streamAndParametersFixed : Obligations.StreamAndParametersFixed :=
  fun _ _ h => ⟨step_keeps_params h, fun hr a => by rw [step_keeps_stream h hr]⟩

/-- Settles O38: `EOF` is an order on addresses, a step keeps the stream, and attaching other bytes
gives another stream. -/
theorem endOfStreamIsPermanent : Obligations.EndOfStreamIsPermanent := by
  refine ⟨fun m a b hwf => ⟨Memory.read_eq_none_iff hwf a, fun hend hle => ?_⟩,
    fun s t h hr => ?_, fun s bytes rest _ hi hne => ?_⟩
  · exact (Memory.read_eq_none_iff hwf b).2 (((Memory.read_eq_none_iff hwf a).1 hend).trans hle)
  · rw [step_keeps_stream h hr]
    exact ⟨rfl, fun _ => rfl⟩
  · have hother : Memory.ofBytes bytes ≠ s.stream := fun heq =>
      hne (by rw [← heq, Memory.bytes_ofBytes])
    rw [step, hi]
    exact if_neg hother

/-! ### The end of a record -/

/-- The 4th checksum byte completes the record it ends (R129, R133). -/
theorem crcStep_last {s : State} {r : Byte} (hi : s.idx = 3) (hr : s.memRead = some r) :
    crcStep s = completeRecord (shiftIn s.acc r) { s.advance 1 with acc := shiftIn s.acc r } := by
  simp only [crcStep, hr, hi, if_true]

/-- A completed record takes over the registers in progress and reads nothing more (R133). -/
theorem completeRecord_position (crc : Word) (s : State) :
    (completeRecord crc s).recStartLast = s.recStart ∧
      (completeRecord crc s).recLen = s.curLen ∧ (completeRecord crc s).cursor = s.cursor := by
  obtain ⟨t, rfl, ⟨-, e⟩ | ⟨-, e⟩⟩ := completeRecord_cases crc s <;> rw [e] <;>
    exact ⟨rfl, rfl, rfl⟩

/-- Settles O27: at the 4th checksum byte the place is 11 bytes and the payload past the start. -/
theorem recordAdvancesTwelvePlusLength : Obligations.RecordAdvancesTwelvePlusLength := by
  intro s t hi h hs hp hidx hread
  obtain ⟨r, hr⟩ := Option.ne_none_iff_exists'.1 hread
  obtain ⟨k, rfl⟩ := step_source h hs
  have e : sourceStep k s.popped = crcStep s.popped := by simp [sourceStep, hp]
  rw [e, crcStep_last (s := s.popped) hidx hr]
  obtain ⟨hstart, hlen, hcur⟩ := completeRecord_position (shiftIn s.acc r)
    ({ s.popped.advance 1 with acc := shiftIn s.acc r } : State)
  obtain ⟨-, -, hplace⟩ := (placeOk_crc hp).1 hi.place
  refine ⟨hstart, hlen, ?_⟩
  rw [hstart, hlen, hcur]
  show s.cursor + BitVec.ofNat 64 1 = s.recStart + 12 + s.curLen.setWidth 64
  rw [hplace, hidx, show (3 : BitVec 3).setWidth 64 = (3 : Position) from rfl]
  grind

end Sys2Proof.Machine
end

section
/-! Runs that the host leaves undisturbed (R74, R144): the micro-steps read the engine's own state
only, and what they and quiet accesses keep holds at the run's end. -/

namespace Sys2Proof.Machine

/-! ### Micro-steps act on the engine's own state -/

/-- A choice of two states, seen by the engine. -/
theorem engine_ite (p : Prop) [Decidable p] (s t : State) :
    (if p then s else t).engine = if p then s.engine else t.engine :=
  apply_ite State.engine p s t

theorem sigStep_engine (s : State) : (sigStep s).engine = sigStep s.engine := by
  unfold sigStep
  rw [show s.engine.memRead = s.memRead from rfl]
  cases s.memRead with
  | none => rfl
  | some r =>
    refine (engine_ite ..).trans (if_congr Iff.rfl ?_ rfl)
    exact engine_ite ..

theorem lenStep_engine (s : State) : (lenStep s).engine = lenStep s.engine := by
  unfold lenStep
  rw [show s.engine.memRead = s.memRead from rfl]
  cases s.memRead with
  | none => exact engine_ite ..
  | some r => exact engine_ite ..

theorem selectPayload_engine (s : State) :
    (selectPayload s).engine = selectPayload s.engine :=
  (engine_ite ..).trans (if_congr Iff.rfl rfl (engine_ite ..))

theorem typeStep_engine (s : State) : (typeStep s).engine = typeStep s.engine := by
  unfold typeStep
  rw [show s.engine.memRead = s.memRead from rfl]
  cases s.memRead with
  | none => rfl
  | some r => exact (engine_ite ..).trans (if_congr Iff.rfl (selectPayload_engine _) rfl)

theorem afterPayload_engine (s : State) : (afterPayload s).engine = afterPayload s.engine :=
  engine_ite ..

theorem skipStep_engine (k : Nat) (s : State) : (skipStep k s).engine = skipStep k s.engine :=
  (engine_ite ..).trans (if_congr Iff.rfl rfl
    ((engine_ite ..).trans (if_congr Iff.rfl rfl (afterPayload_engine _))))

theorem textReadStep_engine (s : State) : (textReadStep s).engine = textReadStep s.engine := by
  unfold textReadStep
  rw [show s.engine.memRead = s.memRead from rfl]
  refine (engine_ite ..).trans (if_congr Iff.rfl rfl ?_)
  cases s.memRead <;> rfl

theorem textEmitStep_engine (s : State) : (textEmitStep s).engine = textEmitStep s.engine := by
  unfold textEmitStep
  rw [show s.engine.pendTxt = s.pendTxt from rfl]
  cases s.pendTxt with
  | none => rfl
  | some b => exact afterPayload_engine _

theorem completeRecord_engine (crc : Word) (s : State) :
    (completeRecord crc s).engine = completeRecord crc s.engine :=
  engine_ite ..

theorem crcStep_engine (s : State) : (crcStep s).engine = crcStep s.engine := by
  unfold crcStep
  rw [show s.engine.memRead = s.memRead from rfl]
  cases s.memRead with
  | none => rfl
  | some r => exact (engine_ite ..).trans (if_congr Iff.rfl (completeRecord_engine _ _) rfl)

/-- An answer of the source reads nothing of the host's side. -/
theorem sourceStep_engine (k : Nat) (s : State) :
    (sourceStep k s).engine = sourceStep k s.engine := by
  unfold sourceStep
  rw [show s.engine.phase = s.phase from rfl]
  cases s.phase with
  | sig => exact sigStep_engine s
  | len => exact lenStep_engine s
  | type => exact typeStep_engine s
  | skip => exact skipStep_engine k s
  | text => exact textReadStep_engine s
  | crc => exact crcStep_engine s
  | idle | ready | done | error => rfl

/-- An acceptance of the sink reads nothing of the host's side. -/
theorem sinkStep_engine (s : State) : (sinkStep s).engine = sinkStep s.engine := by
  unfold sinkStep
  rw [show s.engine.phase = s.phase from rfl]
  cases s.phase with
  | text => exact textEmitStep_engine s
  | idle | sig | ready | len | type | skip | crc | done | error => rfl

/-! ### What an undisturbed run keeps -/

/-- What an engine keeps that is served and otherwise left alone. -/
structure KeptByService (P : State → Prop) : Prop where
  source : ∀ k e, P e → P (sourceStep k e)
  sink : ∀ e, P e → P (sinkStep e)

/-- A quiet step serves the engine or leaves it as it is (R74). -/
theorem KeptByService.step {P : State → Prop} (hP : KeptByService P) {s t : State}
    (hq : s.quietNext = true) (h : step s = .next t) (hs : P s.engine) :
    P t.engine ∧ t.inputs = s.inputs.tail := by
  rcases step_quiet hq with ⟨k, -, e⟩ | ⟨-, e⟩ | ⟨c, k, -, -, e⟩ <;>
    obtain rfl := Host.Outcome.next.inj (h.symm.trans e)
  · rw [sourceStep_engine]
    exact ⟨hP.source k _ hs, (sourceStep_same k s.popped).inputs⟩
  · rw [sinkStep_engine]
    exact ⟨hP.sink _ hs, (sinkStep_same s.popped).inputs⟩
  · exact ⟨hs, rfl⟩

/-- An undisturbed run takes all its inputs and keeps what service keeps. -/
theorem KeptByService.run {P : State → Prop} (hP : KeptByService P) {t : State} :
    ∀ (xs : List Input) (s : State), s.inputs = xs → undisturbed xs.length s = true →
      runSteps xs.length s = .next t → P s.engine → P t.engine ∧ t.inputs = []
  | [], s, hxs, _, h, hs => by
    obtain rfl : s = t := Host.Outcome.next.inj h
    exact ⟨hs, hxs⟩
  | _ :: rest, s, hxs, hu, h, hs => by
    obtain ⟨hq, u, hstep, hu⟩ := undisturbed_succ hu
    obtain ⟨hkept, hinputs⟩ := hP.step hq hstep hs
    exact hP.run rest u (by rw [hinputs, hxs, List.tail_cons]) hu
      ((runSteps_next _ hstep).symm.trans h) hkept

/-- Source and sink leave `CFG` and the host alone. -/
theorem step_serves {s t : State} {i : Input} {rest : List Input} (hi : s.inputs = i :: rest)
    (hserves : i.serves = true) (h : step s = .next t) :
    t.cfg = s.cfg ∧ t.host = s.host ∧ t.inputs = rest := by
  unfold step at h
  rw [hi] at h
  cases i with
  | source k =>
    obtain rfl := Host.Outcome.next.inj h
    have same := sourceStep_same k { s with inputs := rest }
    exact ⟨same.cfg, same.host, same.inputs⟩
  | sink =>
    obtain rfl := Host.Outcome.next.inj h
    have same := sinkStep_same { s with inputs := rest }
    exact ⟨same.cfg, same.host, same.inputs⟩
  | access | hostRun | reset | streamIs => cases hserves

/-- Where only source and sink act, `CFG` and the host stay. -/
theorem runSteps_serves {t : State} :
    ∀ (xs : List Input) (s : State), s.inputs = xs → xs.all Input.serves = true →
      runSteps xs.length s = .next t → t.cfg = s.cfg ∧ t.host = s.host
  | [], s, _, _, h => by
    obtain rfl : s = t := Host.Outcome.next.inj h
    exact ⟨rfl, rfl⟩
  | i :: rest, s, hxs, hall, h => by
    obtain ⟨hi, hrest⟩ := (Bool.and_eq_true _ _).mp hall
    cases hstep : step s with
    | next u =>
      obtain ⟨hcfg, hhost, hinputs⟩ := step_serves hxs hi hstep
      rw [← hcfg, ← hhost]
      exact runSteps_serves rest u hinputs hrest ((runSteps_next _ hstep).symm.trans h)
    | fault r => exact nomatch r
    | refused r => exact nomatch (runSteps_refused _ hstep).symm.trans h

/-- The host's next bus access submits this word (R81). -/
theorem step_commandInput (s : State) (w : Word) (xs : List Input) :
    step { s with inputs := commandInput w :: xs } = submit w { s with inputs := xs } :=
  access_wr_word (off := Reg.cmd.offset) { s with inputs := xs } (by decide) w

/-- An engine that is not busy takes no answer of the source (R143). -/
theorem sourceStep_not_busy {s : State} (hb : s.phase.busy = false) (k : Nat) :
    sourceStep k s = s := by
  refine sourceStep_quiet k ?_
  unfold State.awaitsSource
  cases hp : s.phase with
  | idle | ready | done | error => rfl
  | sig | len | type | skip | text | crc => simp [hp, Phase.busy] at hb

/-- An engine that is not busy offers the sink nothing (R143). -/
theorem sinkStep_not_busy {s : State} (hb : s.phase.busy = false) : sinkStep s = s := by
  refine sinkStep_quiet ?_
  unfold State.textOffered
  cases hp : s.phase with
  | idle | ready | done | error => rfl
  | sig | len | type | skip | text | crc => simp [hp, Phase.busy] at hb

end Sys2Proof.Machine
end

section
/-! NEXT refines `decodeNext` (R135, R136, R144): the engine states NEXT passes through, written out
by the bytes it has consumed; each micro-step leads from one to the next, and the last leaves what
`nextResult` gives. -/

namespace Sys2Proof.Machine

/-! ### Reading the stream -/

/-- `i` bytes from `a` on, shifted into an empty accumulator (R122, R124, R129). -/
def Memory.shifted (m : Memory) (a : Nat) : Nat → Word
  | 0 => 0
  | i + 1 => shiftIn (m.shifted a i) (m.byteAt (a + i))

/-- Four shifted bytes are the field (R11). -/
theorem Memory.shifted_four (m : Memory) (a : Nat) : m.shifted a 4 = m.be32At a :=
  shiftIn_four_eq_be32 ..

/-- One byte more of a slice. -/
theorem Memory.slice_succ {m : Memory} (hwf : m.wf = true) {a n : Nat} (h : a + n < m.size) :
    m.slice a (n + 1) = m.slice a n ++ [m.byteAt (a + n)] := by
  have hlt : a + n < m.bytes.length := by rwa [Memory.length_bytes]
  have hbyte : m.byteAt (a + n) = m.bytes[a + n] := by
    rw [Memory.byteAt, Memory.read_eq_getElem? hwf, List.getElem?_eq_getElem hlt, Option.getD_some]
  rw [Memory.slice, Memory.slice, hbyte, List.take_add_one, List.getElem?_drop,
    List.getElem?_eq_getElem hlt, Option.toList_some]

/-- Slices that reach the end of the stream are the same. -/
theorem Memory.slice_of_size_le {m : Memory} {a n k : Nat} (hn : m.size ≤ a + n)
    (hk : m.size ≤ a + k) : m.slice a n = m.slice a k := by
  have hlen : (m.bytes.drop a).length = m.size - a := by
    rw [List.length_drop, Memory.length_bytes]
  rw [Memory.slice, Memory.slice, List.take_of_length_le (by omega),
    List.take_of_length_le (by omega)]

section
variable {s e : State} (hs : s.Sound) {p : Nat} (hp : p ≤ s.stream.size)
  (he : (e.stream, e.cursor) = (s.stream, BitVec.ofNat 64 p))
include hs hp he

/-- Below 2^64 bytes the cursor's number is the address (R70). -/
theorem State.Sound.cursor_toNat : e.cursor.toNat = p := by
  have hshort := hs.short
  obtain ⟨-, hcur⟩ := Prod.mk.inj he
  rw [hcur, BitVec.toNat_ofNat]
  omega

/-- What remains from the address on (R66). -/
theorem State.Sound.available_eq : e.available = s.stream.size - p := by
  obtain ⟨hstream, -⟩ := Prod.mk.inj he
  rw [State.available, hs.cursor_toNat hp he, hstream]

/-- `EOF` is met at `N` only (R62). -/
theorem State.Sound.eq_size_of_eof (hr : e.memRead = none) : p = s.stream.size := by
  obtain ⟨hstream, -⟩ := Prod.mk.inj he
  rw [State.memRead, hs.cursor_toNat hp he, hstream, Memory.read_eq_none_iff hs.inv.streamWf] at hr
  omega

/-- A byte that is read is the stream's byte at the address (R62). -/
theorem State.Sound.byte_of_read {r : Byte} (hr : e.memRead = some r) :
    p < s.stream.size ∧ s.stream.byteAt p = r := by
  obtain ⟨hstream, -⟩ := Prod.mk.inj he
  rw [State.memRead, hs.cursor_toNat hp he, hstream] at hr
  refine ⟨(Memory.read_isSome_iff hs.inv.streamWf p).1 (by rw [hr]; rfl), ?_⟩
  rw [Memory.byteAt, hr, Option.getD_some]

end

/-! ### Numbers -/

/-- The byte index is at the last byte of a field. -/
theorem ofNat_three_eq_iff {i : Nat} (hi : i < 4) : BitVec.ofNat 3 i = 3 ↔ i = 3 := by
  interval_cases i <;> decide

/-- The byte index is at the first byte of a field. -/
theorem ofNat_three_eq_zero_iff {i : Nat} (hi : i < 4) : BitVec.ofNat 3 i = 0 ↔ i = 0 := by
  interval_cases i <;> decide

/-- The payload count runs out when as many bytes have passed as the length says. -/
theorem sub_ofNat_eq_zero_iff {r : Word} {k : Nat} (h : k ≤ r.toNat) :
    r - BitVec.ofNat 32 k = 0 ↔ k = r.toNat := by
  rw [← BitVec.toNat_inj, toNat_sub_ofNat h, show (0 : Word).toNat = 0 from rfl]
  omega

theorem sub_ofNat_add (r : Word) (k n : Nat) :
    r - BitVec.ofNat 32 k - BitVec.ofNat 32 n = r - BitVec.ofNat 32 (k + n) := by
  rw [BitVec.ofNat_add]
  grind

theorem toNat_pos_of_ne_zero {r : Word} (h : r ≠ 0) : 0 < r.toNat :=
  Nat.pos_of_ne_zero fun h0 => h (BitVec.eq_of_toNat_eq h0)

/-! ### What `decodeNext` comes to -/

/-- The length of the record at the cursor (R90). -/
abbrev State.nextLen (s : State) : Word := s.stream.be32At s.cursor.toNat

/-- The type of the record at the cursor (R91). -/
abbrev State.nextType (s : State) : Word := s.stream.be32At (s.cursor.toNat + 4)

/-- The record at the cursor is textual and its text is requested (R125). -/
def State.nextTextual (s : State) : Bool := s.nextType == s.params.textMarker.pack && s.textEn

/-- What of the record at the cursor goes to the text port (R135). -/
def State.nextText (s : State) : List Byte :=
  if s.nextTextual then s.stream.slice (s.cursor.toNat + 8) s.nextLen.toNat else []

/-- The result of NEXT by the number of bytes available (R135). -/
theorem nextResult_eq (s : State) :
    nextResult s = NextResult.apply s
      (if s.available < 4 then
        if s.params.strictLenEof && decide (0 < s.available) then
          .truncLen s.stream.size s.available
        else .cleanEnd s.stream.size s.available
      else if s.available < 8 then .truncType s.stream.size s.nextLen
      else if s.available < 8 + s.nextLen.toNat then
        .truncPayload s.stream.size s.nextLen s.nextType s.nextText
      else if s.available < 12 + s.nextLen.toNat then
        .truncCrc s.stream.size s.nextLen s.nextType s.nextText
      else
        .record (s.cursor.toNat + 12 + s.nextLen.toNat) s.nextLen s.nextType
          (s.stream.be32At (s.cursor.toNat + 8 + s.nextLen.toNat))
          (recFlagsWord s.params.textMarker s.nextType s.textEn) s.nextText
          (s.nextType == iendType)) := rfl

/-- A stream that ends in the length field. -/
theorem nextResult_len_end {s : State} {i : Nat} (hi : i < 4)
    (hend : s.cursor.toNat + i = s.stream.size) :
    nextResult s = NextResult.apply s
      (if s.params.strictLenEof && decide (0 < i) then .truncLen s.stream.size i
      else .cleanEnd s.stream.size i) := by
  obtain rfl : s.available = i := by unfold State.available; omega
  rw [nextResult_eq, if_pos hi]

/-- A stream that ends in the type field. -/
theorem nextResult_type_end {s : State} {i : Nat} (hi : i < 4)
    (hend : s.cursor.toNat + 4 + i = s.stream.size) :
    nextResult s = (s.started s.nextLen 0 [] s.stream.size).raise .truncType := by
  have ha : s.available = 4 + i := by unfold State.available; omega
  rw [nextResult_eq, if_neg (by omega), if_pos (by omega)]
  rfl

/-- A stream that ends in the payload. -/
theorem nextResult_payload_end {s : State} {k : Nat} (hk : k < s.nextLen.toNat)
    (hend : s.cursor.toNat + 8 + k = s.stream.size) :
    nextResult s =
      (s.started s.nextLen s.nextType s.nextText s.stream.size).raise .truncPayload := by
  have ha : s.available = 8 + k := by unfold State.available; omega
  rw [nextResult_eq, if_neg (by omega), if_neg (by omega), if_pos (by omega)]
  rfl

/-- A stream that ends in the checksum field. -/
theorem nextResult_crc_end {s : State} {i : Nat} (hi : i < 4)
    (hend : s.cursor.toNat + 8 + s.nextLen.toNat + i = s.stream.size) :
    nextResult s =
      (s.started s.nextLen s.nextType s.nextText s.stream.size).raise .truncCrc := by
  have ha : s.available = 8 + s.nextLen.toNat + i := by unfold State.available; omega
  rw [nextResult_eq, if_neg (by omega), if_neg (by omega), if_neg (by omega), if_pos (by omega)]
  rfl

/-- A stream that holds the whole record: its completion, but for the accumulator (R133). -/
theorem nextResult_record {s : State}
    (hfits : s.cursor.toNat + 12 + s.nextLen.toNat ≤ s.stream.size) :
    (nextResult s).settled =
      (completeRecord (s.stream.be32At (s.cursor.toNat + 8 + s.nextLen.toNat))
        (s.started s.nextLen s.nextType s.nextText
          (s.cursor.toNat + 12 + s.nextLen.toNat))).settled := by
  have ha : 12 + s.nextLen.toNat ≤ s.available := by unfold State.available; omega
  rw [nextResult_eq, if_neg (by omega), if_neg (by omega), if_neg (by omega), if_neg (by omega)]
  obtain ⟨t, rfl, ⟨ht, e⟩ | ⟨ht, e⟩⟩ := completeRecord_cases
    (s.stream.be32At (s.cursor.toNat + 8 + s.nextLen.toNat))
    (s.started s.nextLen s.nextType s.nextText (s.cursor.toNat + 12 + s.nextLen.toNat)) <;> rw [e]
  · rw [show (s.nextType == iendType) = true from beq_iff_eq.2 ht]
    rfl
  · rw [show (s.nextType == iendType) = false from beq_eq_false_iff_ne.2 ht]
    rfl

/-! ### What goes to the text port -/

theorem nextText_of_textual {s : State} (ht : s.nextTextual = true) :
    s.nextText = s.stream.slice (s.cursor.toNat + 8) s.nextLen.toNat := by
  rw [State.nextText, if_pos ht]

theorem nextText_of_not_textual {s : State} (ht : s.nextTextual = false) : s.nextText = [] := by
  rw [State.nextText, ht]
  rfl

/-- An empty payload gives no text (R130). -/
theorem nextText_of_empty {s : State} (h0 : s.nextLen = 0) : s.nextText = [] := by
  unfold State.nextText
  rw [h0]
  split
  · exact List.take_zero
  · rfl

theorem nextTextual_iff (s : State) :
    s.nextTextual = true ↔ s.nextType = s.params.textMarker.pack ∧ s.textEn = true := by
  rw [State.nextTextual, Bool.and_eq_true, beq_iff_eq]

/-! ### The states NEXT passes through -/

/-- The engine with NEXT in progress, of which no text byte is pending: what acceptance wrote, and
what the micro-steps have consumed and emitted since. -/
def State.midway (s : State) (len type : Word) (text : List Byte) (cursor : Nat) : State :=
  { (s.started len type text cursor).engine with pendTxt := none }

theorem State.midway_advance (s : State) (len type : Word) (text : List Byte) (p n : Nat) :
    (s.midway len type text p).advance n = s.midway len type text (p + n) := by
  simp only [State.advance, State.midway, State.started, State.engine, BitVec.ofNat_add]

theorem State.midway_log (s : State) (len type : Word) (text : List Byte) (p : Nat) (b : Byte) :
    (s.midway len type text p).log (.txt b) = s.midway len type (text ++ [b]) p := by
  simp only [State.log, State.midway, State.started, State.engine, List.map_append, List.map_cons,
    List.map_nil, List.append_assoc]

/-- The engine's states from the acceptance of NEXT in `s` on, by the bytes consumed. -/
inductive During (s : State) : State → Prop
  /-- `i` bytes of the length are read (R122). -/
  | len (i : Nat) (hi : i < 4) (hp : s.cursor.toNat + i ≤ s.stream.size) :
      During s
        { s.midway 0 0 [] (s.cursor.toNat + i) with
          phase := .len, idx := BitVec.ofNat 3 i, acc := s.stream.shifted s.cursor.toNat i }
  /-- `i` bytes of the type are read (R124). -/
  | type (i : Nat) (hi : i < 4) (hp : s.cursor.toNat + 4 + i ≤ s.stream.size) :
      During s
        { s.midway s.nextLen 0 [] (s.cursor.toNat + 4 + i) with
          phase := .type, idx := BitVec.ofNat 3 i
          acc := s.stream.shifted (s.cursor.toNat + 4) i }
  /-- `k` bytes of the payload are skipped, and some remain (R126). -/
  | skip (k : Nat) (ht : s.nextTextual = false) (hk : k < s.nextLen.toNat)
      (hp : s.cursor.toNat + 8 + k ≤ s.stream.size) :
      During s
        { s.midway s.nextLen s.nextType [] (s.cursor.toNat + 8 + k) with
          phase := .skip, idx := 0, acc := 0, rem := s.nextLen - BitVec.ofNat 32 k }
  /-- `k` bytes of the payload are emitted, and some remain (R127). -/
  | text (k : Nat) (ht : s.nextTextual = true) (hk : k < s.nextLen.toNat)
      (hp : s.cursor.toNat + 8 + k ≤ s.stream.size) :
      During s
        { s.midway s.nextLen s.nextType (s.stream.slice (s.cursor.toNat + 8) k)
            (s.cursor.toNat + 8 + k) with
          phase := .text, idx := 0, acc := 0, rem := s.nextLen - BitVec.ofNat 32 k }
  /-- `k` bytes of the payload are emitted, and the next one is offered (R128). -/
  | offered (k : Nat) (ht : s.nextTextual = true) (hk : k < s.nextLen.toNat)
      (hp : s.cursor.toNat + 8 + k < s.stream.size) :
      During s
        { s.midway s.nextLen s.nextType (s.stream.slice (s.cursor.toNat + 8) k)
            (s.cursor.toNat + 8 + k + 1) with
          phase := .text, idx := 0, acc := 0, rem := s.nextLen - BitVec.ofNat 32 k
          pendTxt := some (s.stream.byteAt (s.cursor.toNat + 8 + k)) }
  /-- `i` bytes of the checksum are read (R129). -/
  | crc (i : Nat) (hi : i < 4)
      (hp : s.cursor.toNat + 8 + s.nextLen.toNat + i ≤ s.stream.size) :
      During s
        { s.midway s.nextLen s.nextType s.nextText
            (s.cursor.toNat + 8 + s.nextLen.toNat + i) with
          phase := .crc, idx := BitVec.ofNat 3 i, rem := 0
          acc := s.stream.shifted (s.cursor.toNat + 8 + s.nextLen.toNat) i }
  /-- The command is over (R136). -/
  | ended (e : State) (hb : e.phase.busy = false)
      (he : e.settled = (nextResult s).settled.engine) : During s e

/-! ### Each micro-step leads from one of these states to the next -/

/-- Without a pending text byte the engine in progress is what acceptance and the bytes make it. -/
theorem midway_eq {s : State} (hpend : s.pendTxt = none) (len type : Word) (text : List Byte)
    (p : Nat) : s.midway len type text p = (s.started len type text p).engine := by
  rw [State.midway, ← hpend]
  rfl

section
variable {s : State}

/-- The whole payload has passed (R126, R128, R130). -/
theorem during_checksum {text : List Byte} {k : Nat} {rem : Word} (hx : s.nextText = text)
    (hk : k = s.nextLen.toNat) (h0 : rem = 0) (hp : s.cursor.toNat + 8 + k ≤ s.stream.size) :
    During s
      { s.midway s.nextLen s.nextType text (s.cursor.toNat + 8 + k) with
        phase := .crc, idx := 0, rem := rem, acc := 0 } := by
  subst hx hk h0
  exact .crc 0 (by decide) hp

/-- The payload is selected where it begins (R125). -/
theorem during_selectPayload (hp : s.cursor.toNat + 8 ≤ s.stream.size) :
    During s (selectPayload
      { s.midway s.nextLen s.nextType [] (s.cursor.toNat + 8) with
        phase := .type, idx := 0, acc := 0 }) := by
  rcases selectPayload_cases _ with ⟨h0, e⟩ | ⟨h0, ht, hq, e⟩ | ⟨h0, ht, e⟩ <;> rw [e]
  · have h := during_checksum (nextText_of_empty h0) (congrArg BitVec.toNat h0).symm rfl hp
    exact h
  · have h := During.text 0 ((nextTextual_iff s).2 ⟨ht, hq⟩) (toNat_pos_of_ne_zero h0) hp
    rwa [BitVec.sub_zero] at h
  · have hplain : s.nextTextual = false :=
      Bool.eq_false_of_not_eq_true fun h => ht ((nextTextual_iff s).1 h)
    have h := During.skip 0 hplain (toNat_pos_of_ne_zero h0) hp
    rwa [BitVec.sub_zero] at h

/-- After some skipped bytes more are skipped, or the checksum follows (R126). -/
theorem during_afterSkip {k : Nat} (ht : s.nextTextual = false) (hk : k ≤ s.nextLen.toNat)
    (hp : s.cursor.toNat + 8 + k ≤ s.stream.size) :
    During s (afterPayload
      { s.midway s.nextLen s.nextType [] (s.cursor.toNat + 8 + k) with
        phase := .skip, idx := 0, acc := 0, rem := s.nextLen - BitVec.ofNat 32 k }) := by
  rcases afterPayload_cases _ with ⟨h0, e⟩ | ⟨h0, e⟩ <;> rw [e]
  · have h := during_checksum (nextText_of_not_textual ht) ((sub_ofNat_eq_zero_iff hk).1 h0) h0 hp
    exact h
  · exact .skip k ht (lt_of_le_of_ne hk fun h => h0 ((sub_ofNat_eq_zero_iff hk).2 h)) hp

/-- After some emitted bytes more are emitted, or the checksum follows (R128). -/
theorem during_afterText {k : Nat} (ht : s.nextTextual = true) (hk : k ≤ s.nextLen.toNat)
    (hp : s.cursor.toNat + 8 + k ≤ s.stream.size) :
    During s (afterPayload
      { s.midway s.nextLen s.nextType (s.stream.slice (s.cursor.toNat + 8) k)
          (s.cursor.toNat + 8 + k) with
        phase := .text, idx := 0, acc := 0, rem := s.nextLen - BitVec.ofNat 32 k }) := by
  rcases afterPayload_cases _ with ⟨h0, e⟩ | ⟨h0, e⟩ <;> rw [e]
  · have hlast := (sub_ofNat_eq_zero_iff hk).1 h0
    have h := during_checksum (hlast ▸ nextText_of_textual ht) hlast h0 hp
    exact h
  · exact .text k ht (lt_of_le_of_ne hk fun h => h0 ((sub_ofNat_eq_zero_iff hk).2 h)) hp

/-- A record's completion does not read what the sequencer is at. -/
theorem completeRecord_settled (crc : Word) (e : State) (phase : Phase) (idx : BitVec 3)
    (acc rem : Word) :
    (completeRecord crc { e with phase := phase, idx := idx, acc := acc, rem := rem }).settled =
      (completeRecord crc e).settled := by
  simp only [completeRecord, apply_ite State.settled]
  rfl

theorem completeRecord_not_busy (crc : Word) (e : State) :
    (completeRecord crc e).phase.busy = false := by
  obtain ⟨t, rfl, ⟨-, h⟩ | ⟨-, h⟩⟩ := completeRecord_cases crc e <;> rw [h] <;> rfl

/-- The 4th checksum byte completes the record that `decodeNext` gives (R133, R136). -/
theorem during_completeRecord (hpend : s.pendTxt = none) {crc acc : Word} {phase : Phase}
    {idx : BitVec 3} (hlt : s.cursor.toNat + 8 + s.nextLen.toNat + 3 < s.stream.size)
    (hcrc : crc = s.stream.be32At (s.cursor.toNat + 8 + s.nextLen.toNat)) :
    During s (completeRecord crc
      { (s.midway s.nextLen s.nextType s.nextText
          (s.cursor.toNat + 8 + s.nextLen.toNat + 3)).advance 1 with
        phase := phase, idx := idx, acc := acc, rem := 0 }) := by
  have hend : s.cursor.toNat + 8 + s.nextLen.toNat + 3 + 1 =
      s.cursor.toNat + 12 + s.nextLen.toNat := by omega
  refine .ended _ (completeRecord_not_busy ..) ?_
  rw [completeRecord_settled, State.midway_advance, midway_eq hpend, hend,
    ← completeRecord_engine, hcrc]
  exact congrArg State.engine (nextResult_record (by omega)).symm

variable (hs : s.Sound)
include hs

/-- A length byte, or the end of the stream: the clean end or TRUNC_LEN (R122, R123). -/
theorem during_lenStep (hpend : s.pendTxt = none) {i : Nat} (hi : i < 4)
    (hp : s.cursor.toNat + i ≤ s.stream.size) :
    During s (lenStep
      { s.midway 0 0 [] (s.cursor.toNat + i) with
        phase := .len, idx := BitVec.ofNat 3 i
        acc := s.stream.shifted s.cursor.toNat i }) := by
  rcases lenStep_cases _ with
    ⟨hr, hstrict, h0, e⟩ | ⟨hr, hclean, e⟩ | ⟨r, hr, ⟨h3, e⟩ | ⟨h3, e⟩⟩ <;> rw [e]
  · have hend := hs.eq_size_of_eof hp rfl hr
    have hfault : (s.params.strictLenEof && decide (0 < i)) = true := by
      have hne : i ≠ 0 := fun h => h0 ((ofNat_three_eq_zero_iff hi).2 h)
      simpa using ⟨hstrict, Nat.pos_of_ne_zero hne⟩
    refine .ended _ rfl ?_
    rw [nextResult_len_end hi hend, if_pos hfault, ← hend, BitVec.setWidth_ofNat_of_le (by decide)]
    rfl
  · have hend := hs.eq_size_of_eof hp rfl hr
    have hclean : s.params.strictLenEof = true → i = 0 :=
      fun h => (ofNat_three_eq_zero_iff hi).1 (hclean h)
    have hlenient : ¬ (s.params.strictLenEof && decide (0 < i)) = true := by
      simpa using hclean
    refine .ended _ rfl ?_
    rw [nextResult_len_end hi hend, if_neg hlenient, ← hend, midway_eq hpend,
      BitVec.setWidth_ofNat_of_le (by decide)]
    rfl
  · obtain ⟨hlt, rfl⟩ := hs.byte_of_read hp rfl hr
    obtain rfl := (ofNat_three_eq_iff hi).1 h3
    have h := During.type (s := s) 0 (by decide) hlt
    rw [State.nextLen, ← s.stream.shifted_four, Nat.add_zero, ← Nat.add_assoc s.cursor.toNat 3 1,
      ← State.midway_advance] at h
    exact h
  · obtain ⟨hlt, rfl⟩ := hs.byte_of_read hp rfl hr
    have hne : i ≠ 3 := fun h => h3 ((ofNat_three_eq_iff hi).2 h)
    have h := During.len (s := s) (i + 1) (by omega) hlt
    rw [← Nat.add_assoc, ← State.midway_advance, BitVec.ofNat_add] at h
    exact h

/-- A type byte, or the end of the stream (R124). -/
theorem during_typeStep {i : Nat} (hi : i < 4) (hp : s.cursor.toNat + 4 + i ≤ s.stream.size) :
    During s (typeStep
      { s.midway s.nextLen 0 [] (s.cursor.toNat + 4 + i) with
        phase := .type, idx := BitVec.ofNat 3 i
        acc := s.stream.shifted (s.cursor.toNat + 4) i }) := by
  rcases typeStep_cases _ with ⟨hr, e⟩ | ⟨r, hr, ⟨h3, e⟩ | ⟨h3, e⟩⟩ <;> rw [e]
  · have hend := hs.eq_size_of_eof hp rfl hr
    refine .ended _ rfl ?_
    rw [nextResult_type_end hi hend, ← hend]
    rfl
  · obtain ⟨hlt, rfl⟩ := hs.byte_of_read hp rfl hr
    obtain rfl := (ofNat_three_eq_iff hi).1 h3
    have h := during_selectPayload (s := s) hlt
    rw [State.nextType, ← s.stream.shifted_four, ← Nat.add_assoc (s.cursor.toNat + 4) 3 1,
      ← State.midway_advance] at h
    exact h
  · obtain ⟨hlt, rfl⟩ := hs.byte_of_read hp rfl hr
    have hne : i ≠ 3 := fun h => h3 ((ofNat_three_eq_iff hi).2 h)
    have h := During.type (s := s) (i + 1) (by omega) hlt
    rw [← Nat.add_assoc, ← State.midway_advance, BitVec.ofNat_add] at h
    exact h

/-- Some payload bytes are skipped, whatever size is drawn, or the stream ends (R126). -/
theorem during_skipStep (n : Nat) {k : Nat} (ht : s.nextTextual = false) (hk : k < s.nextLen.toNat)
    (hp : s.cursor.toNat + 8 + k ≤ s.stream.size) :
    During s (skipStep n
      { s.midway s.nextLen s.nextType [] (s.cursor.toNat + 8 + k) with
        phase := .skip, idx := 0, acc := 0, rem := s.nextLen - BitVec.ofNat 32 k }) := by
  rcases skipStep_cases n _ with ⟨-, e⟩ | ⟨-, hsize, e⟩ | ⟨-, -, n, -, hn, ha, -, e⟩ <;> rw [e]
  · exact .skip k ht hk hp
  · have hend := Nat.le_antisymm hp (hsize.trans_eq (hs.cursor_toNat hp rfl))
    refine .ended _ rfl ?_
    rw [nextResult_payload_end hk hend, nextText_of_not_textual ht, ← hend]
    rfl
  · have hn := hn.trans_eq (toNat_sub_ofNat hk.le)
    have ha := ha.trans_eq (hs.available_eq hp rfl)
    have h := during_afterSkip (k := k + n) ht (by omega) (by omega)
    rw [← Nat.add_assoc, ← State.midway_advance, ← sub_ofNat_add] at h
    exact h

/-- A payload byte is read, or the stream ends (R127). -/
theorem during_textReadStep {k : Nat} (ht : s.nextTextual = true) (hk : k < s.nextLen.toNat)
    (hp : s.cursor.toNat + 8 + k ≤ s.stream.size) :
    During s (textReadStep
      { s.midway s.nextLen s.nextType (s.stream.slice (s.cursor.toNat + 8) k)
          (s.cursor.toNat + 8 + k) with
        phase := .text, idx := 0, acc := 0, rem := s.nextLen - BitVec.ofNat 32 k }) := by
  rcases textReadStep_cases _ with ⟨-, e⟩ | ⟨-, -, hr, e⟩ | ⟨-, -, r, hr, e⟩ <;> rw [e]
  · exact .text k ht hk hp
  · have hend := hs.eq_size_of_eof hp rfl hr
    have htext : s.nextText = s.stream.slice (s.cursor.toNat + 8) k :=
      (nextText_of_textual ht).trans (Memory.slice_of_size_le (by omega) (by omega))
    refine .ended _ rfl ?_
    rw [nextResult_payload_end hk hend, htext, ← hend]
    rfl
  · obtain ⟨hlt, rfl⟩ := hs.byte_of_read hp rfl hr
    have h := During.offered k ht hk hlt
    rw [← State.midway_advance] at h
    exact h

omit hs in
/-- While a byte is offered no other is read (R127). -/
theorem during_textReadStep_pending {k : Nat} (ht : s.nextTextual = true)
    (hk : k < s.nextLen.toNat) (hp : s.cursor.toNat + 8 + k < s.stream.size) :
    During s (textReadStep
      { s.midway s.nextLen s.nextType (s.stream.slice (s.cursor.toNat + 8) k)
          (s.cursor.toNat + 8 + k + 1) with
        phase := .text, idx := 0, acc := 0, rem := s.nextLen - BitVec.ofNat 32 k
        pendTxt := some (s.stream.byteAt (s.cursor.toNat + 8 + k)) }) := by
  rw [textReadStep, if_pos (.inr rfl)]
  exact .offered k ht hk hp

/-- The offered byte is accepted (R128). -/
theorem during_textEmitStep {k : Nat} (ht : s.nextTextual = true) (hk : k < s.nextLen.toNat)
    (hp : s.cursor.toNat + 8 + k < s.stream.size) :
    During s (textEmitStep
      { s.midway s.nextLen s.nextType (s.stream.slice (s.cursor.toNat + 8) k)
          (s.cursor.toNat + 8 + k + 1) with
        phase := .text, idx := 0, acc := 0, rem := s.nextLen - BitVec.ofNat 32 k
        pendTxt := some (s.stream.byteAt (s.cursor.toNat + 8 + k)) }) := by
  have h := during_afterText (k := k + 1) ht hk hp
  rw [Memory.slice_succ hs.inv.streamWf hp, ← State.midway_log, ← sub_ofNat_add] at h
  exact h

/-- A checksum byte, or the end of the stream (R129, R131). -/
theorem during_crcStep (hpend : s.pendTxt = none) {i : Nat} (hi : i < 4)
    (hp : s.cursor.toNat + 8 + s.nextLen.toNat + i ≤ s.stream.size) :
    During s (crcStep
      { s.midway s.nextLen s.nextType s.nextText (s.cursor.toNat + 8 + s.nextLen.toNat + i) with
        phase := .crc, idx := BitVec.ofNat 3 i, rem := 0
        acc := s.stream.shifted (s.cursor.toNat + 8 + s.nextLen.toNat) i }) := by
  rcases crcStep_cases _ with ⟨hr, e⟩ | ⟨r, hr, ⟨h3, e⟩ | ⟨h3, e⟩⟩ <;> rw [e]
  · have hend := hs.eq_size_of_eof hp rfl hr
    refine .ended _ rfl ?_
    rw [nextResult_crc_end hi hend, ← hend]
    rfl
  · obtain ⟨hlt, rfl⟩ := hs.byte_of_read hp rfl hr
    obtain rfl := (ofNat_three_eq_iff hi).1 h3
    exact during_completeRecord hpend hlt (s.stream.shifted_four _)
  · obtain ⟨hlt, rfl⟩ := hs.byte_of_read hp rfl hr
    have hne : i ≠ 3 := fun h => h3 ((ofNat_three_eq_iff hi).2 h)
    have h := During.crc (s := s) (i + 1) (by omega) hlt
    rw [← Nat.add_assoc, ← State.midway_advance, BitVec.ofNat_add] at h
    exact h

/-- Service leads through these states (R143). -/
theorem during_keptByService (hpend : s.pendTxt = none) : KeptByService (During s) where
  source k e h := by
    cases h with
    | len i hi hp => exact during_lenStep hs hpend hi hp
    | type i hi hp => exact during_typeStep hs hi hp
    | skip n ht hn hp => exact during_skipStep hs k ht hn hp
    | text n ht hn hp => exact during_textReadStep hs ht hn hp
    | offered n ht hn hp => exact during_textReadStep_pending ht hn hp
    | crc i hi hp => exact during_crcStep hs hpend hi hp
    | ended _ hb he => rw [sourceStep_not_busy hb]; exact .ended e hb he
  sink e h := by
    cases h with
    | offered n ht hn hp => exact during_textEmitStep hs ht hn hp
    | text n ht hn hp => exact .text n ht hn hp
    | len i hi hp => exact .len i hi hp
    | type i hi hp => exact .type i hi hp
    | skip n ht hn hp => exact .skip n ht hn hp
    | crc i hi hp => exact .crc i hi hp
    | ended _ hb he => rw [sinkStep_not_busy hb]; exact .ended e hb he

end

/-! ### From acceptance to the result -/

/-- A `CMD` write of NEXT in READY is accepted (R88, R121). -/
theorem submit_next {s : State} (hp : s.phase = .ready) :
    submit 0x00000002 s = .next
      { s with recStart := s.cursor, curLen := 0, curType := 0, textReq := s.textEn, acc := 0,
               idx := 0, phase := .len } := by
  have hexec : submit 0x00000002 s = .next (s.gate (acceptNext s)) := rfl
  rw [hexec, State.gate, acceptNext, if_neg (by simp [hp]), if_neg (by simp [hp, Phase.busy]),
    if_pos hp]

/-- At acceptance nothing is consumed. -/
theorem started_nothing (s : State) :
    s.started 0 0 [] s.cursor.toNat =
      { s with recStart := s.cursor, curLen := 0, curType := 0, textReq := s.textEn } := by
  simp only [State.started, BitVec.ofNat_toNat, BitVec.setWidth_eq, List.map_nil, List.append_nil]

/-- The accepted command has read no byte yet (R121). -/
theorem during_accepted {s : State} (hs : s.Sound) (hpend : s.pendTxt = none) (xs : List Input) :
    During s ({ s with recStart := s.cursor, curLen := 0, curType := 0, textReq := s.textEn,
                       acc := 0, idx := 0, phase := .len, inputs := xs } : State).engine := by
  have h := During.len (s := s) 0 (by decide) hs.inv.cursorLe
  rw [Nat.add_zero, midway_eq hpend, started_nothing] at h
  exact h

/-- Of the states NEXT passes through only the last is not busy. -/
theorem During.result {s e : State} (h : During s e) (hb : e.phase.busy = false) :
    e.settled = (nextResult s).settled.engine := by
  cases h with
  | ended _ _ he => exact he
  | len | type | skip | text | offered | crc => cases hb

/-- Settles O13: acceptance begins the states NEXT passes through, service leads through them, and
the one that is not busy is the result. -/
theorem nextOutcomeIsDecodeNext : Obligations.NextOutcomeIsDecodeNext := by
  intro s u t xs hs hp hstep hu hrun hb
  have hpend := hs.inv.pendTxt_eq_none (by simp [hp])
  rw [step_commandInput, submit_next (s := { s with inputs := xs }) hp] at hstep
  have haccepted := Host.Outcome.next.inj hstep
  have hxs : u.inputs = xs := by rw [← haccepted]
  have hfirst : During s u.engine := haccepted ▸ during_accepted hs hpend xs
  obtain ⟨hduring, hinputs⟩ := (during_keptByService hs hpend).run xs u hxs hu hrun hfirst
  refine ⟨hinputs, fun hserves => ?_, hduring.result hb⟩
  obtain ⟨hcfg, hhost⟩ := runSteps_serves xs u hxs hserves hrun
  rw [hcfg, hhost, ← haccepted]
  exact ⟨rfl, rfl⟩

end Sys2Proof.Machine
end

section
/-! Proofs of the statements on encodings: the packed type (R86), and a record put on a stream (R87). -/

namespace Sys2Proof.Machine

/-! ### The packed type -/

/-- A packed type is cut into its bytes again, each a digit of its number in base 2^8 (R86). -/
theorem typeBytes_pack (t : TypeBytes) : typeBytes t.pack = t := by
  obtain ⟨t0, t1, t2, t3⟩ := t
  have hpack : (TypeBytes.mk t0 t1 t2 t3).pack.toNat =
      t0.toNat * 2 ^ 24 + t1.toNat * 2 ^ 16 + t2.toNat * 2 ^ 8 + t3.toNat := be32_toNat ..
  rw [typeBytes, TypeBytes.mk.injEq]
  refine ⟨?_, ?_, ?_, ?_⟩ <;>
  · apply BitVec.eq_of_toNat_eq
    rw [BitVec.extractLsb_toNat, hpack, Nat.shiftRight_eq_div_pow]
    omega

theorem pack_injective : Function.Injective TypeBytes.pack :=
  Function.LeftInverse.injective typeBytes_pack

/-- Settles O4: unpacking is a left inverse of packing, so packing is injective. -/
theorem typePacking : Obligations.TypePacking :=
  ⟨fun t => ⟨rfl, be32_toNat .., rfl, typeBytes_pack t⟩, fun _ _ => pack_injective.eq_iff.symm,
    by decide, by decide⟩

/-! ### A record on a stream -/

/-- A field is assembled from its four bytes (R11). -/
theorem be32_bytes (w : Word) :
    be32 (w.extractLsb 31 24) (w.extractLsb 23 16) (w.extractLsb 15 8) (w.extractLsb 7 0) = w := by
  apply BitVec.eq_of_toNat_eq
  simp only [be32_toNat, BitVec.extractLsb_toNat, Nat.shiftRight_eq_div_pow]
  omega

theorem length_be32Bytes (w : Word) : (be32Bytes w).length = 4 := rfl

theorem WireRecord.length_encode (r : WireRecord) :
    r.encode.length = 12 + r.payload.length := by
  simp only [WireRecord.encode, List.length_append, length_be32Bytes]
  omega

/-- The length field of a record that fits it holds the payload's length (R90). -/
theorem WireRecord.length_toNat {r : WireRecord} (h : r.wf = true) :
    r.length.toNat = r.payload.length := by
  rw [WireRecord.length, BitVec.toNat_ofNat]
  exact Nat.mod_eq_of_lt (of_decide_eq_true h)

/-- A byte of an attached stream is a byte of what follows its first bytes. -/
theorem byteAt_ofBytes_append (before l : List Byte) (i : Nat) :
    (Memory.ofBytes (before ++ l)).byteAt (before.length + i) = l[i]?.getD 0 := by
  rw [Memory.byteAt, Memory.read_ofBytes, List.getElem?_append_right (Nat.le_add_right ..),
    Nat.add_sub_cancel_left]

/-- A field encoded at an address is read there (R11, R90, R92). -/
theorem be32At_be32Bytes {m : List Byte} {a : Nat} {w : Word} (before after : List Byte)
    (hm : m = before ++ (be32Bytes w ++ after)) (ha : a = before.length) :
    (Memory.ofBytes m).be32At a = w := by
  subst hm ha
  have hfirst := byteAt_ofBytes_append before (be32Bytes w ++ after) 0
  rw [Nat.add_zero] at hfirst
  rw [Memory.be32At, hfirst]
  simp only [byteAt_ofBytes_append]
  exact be32_bytes w

/-- The bytes that stand at an address are the slice there. -/
theorem slice_ofBytes {m l : List Byte} {a n : Nat} (before after : List Byte)
    (hm : m = before ++ (l ++ after)) (ha : a = before.length) (hn : n = l.length) :
    (Memory.ofBytes m).slice a n = l := by
  subst hm ha hn
  rw [Memory.slice, Memory.bytes_ofBytes, List.drop_left, List.take_left]

/-- `decodeNext` on a stream that holds the whole record (R135). -/
theorem decodeNext_record {p : Config.Params} {m : Memory} {c : Nat} {text : Bool}
    (h : 12 + (m.be32At c).toNat ≤ m.size - c) :
    decodeNext p m c text =
      .record (c + 12 + (m.be32At c).toNat) (m.be32At c) (m.be32At (c + 4))
        (m.be32At (c + 8 + (m.be32At c).toNat))
        (recFlagsWord p.textMarker (m.be32At (c + 4)) text)
        (if m.be32At (c + 4) == p.textMarker.pack && text then
          m.slice (c + 8) (m.be32At c).toNat else [])
        (m.be32At (c + 4) == iendType) := by
  unfold decodeNext
  rw [if_neg (by omega), if_neg (by omega), if_neg (by omega), if_neg (by omega)]

/-- Packed types compare as the types do (R86). -/
theorem pack_beq (t u : TypeBytes) : (t.pack == u.pack) = (t == u) := by
  rw [beq_eq_decide, beq_eq_decide, decide_eq_decide]
  exact pack_injective.eq_iff

/-- Settles O5: the stream is cut at each field of the record, and `decodeNext` reads the fields
where the cuts are. -/
theorem wireRecordRoundTrip : Obligations.WireRecordRoundTrip := by
  intro p r before after text hwf
  generalize hm : before ++ r.encode ++ after = m
  have hwhole : 12 + r.payload.length ≤ (Memory.ofBytes m).size - before.length := by
    simp only [← hm, Memory.size_ofBytes, List.length_append, r.length_encode]
    omega
  simp only [WireRecord.encode, List.append_assoc] at hm
  have hlen : (Memory.ofBytes m).be32At before.length = r.length :=
    be32At_be32Bytes before _ hm.symm rfl
  have htype : (Memory.ofBytes m).be32At (before.length + 4) = r.type.pack :=
    be32At_be32Bytes (before ++ be32Bytes r.length) (r.payload ++ (be32Bytes r.crc ++ after))
      (by simp only [← hm, List.append_assoc]) (by simp only [List.length_append, length_be32Bytes])
  have htext : (Memory.ofBytes m).slice (before.length + 8) r.payload.length = r.payload :=
    slice_ofBytes (before ++ be32Bytes r.length ++ be32Bytes r.type.pack) (be32Bytes r.crc ++ after)
      (by simp only [← hm, List.append_assoc]) (by simp only [List.length_append, length_be32Bytes])
      rfl
  have hcrc : (Memory.ofBytes m).be32At (before.length + 8 + r.payload.length) = r.crc :=
    be32At_be32Bytes (before ++ be32Bytes r.length ++ be32Bytes r.type.pack ++ r.payload) after
      (by simp only [← hm, List.append_assoc]) (by simp only [List.length_append, length_be32Bytes])
  rw [decodeNext_record (by rwa [hlen, r.length_toNat hwf])]
  simp only [hlen, htype, r.length_toNat hwf, htext, hcrc, WireRecord.terminal, iendType, pack_beq,
    Bool.and_eq_true, beq_iff_eq]

end Sys2Proof.Machine
end

section
/-! Proofs of the statements on the commands: which words are commands (R84, R85), and what a write
to `CMD` does with each of them (R81, R88). -/

namespace Sys2Proof.Machine

/-! ### Words -/

/-- Settles O1: the decoder run on each word. -/
theorem commandWordsDecode : Obligations.CommandWordsDecode :=
  ⟨rfl, rfl, rfl, rfl, rfl, rfl, rfl⟩

/-- All 32 bits of a word are compared (R84). -/
theorem decode_eq_ok_iff_masked (w : Word) (i : Instr) :
    decode w = .ok i ↔ w &&& 0xFFFFFFFF = encode i := by
  rw [decode_eq_ok_iff, show (0xFFFFFFFF : Word) = BitVec.allOnes 32 from rfl, BitVec.and_allOnes]

/-- The four ways a word is decoded, by its fields (R84, R85). -/
theorem decode_cases (w : Word) :
    (w.extractLsb 31 4 ≠ 0 ∧ decode w = .error .reservedBits) ∨
    (w.extractLsb 31 4 = 0 ∧ w.extractLsb 3 0 = 0x1 ∧ decode w = .ok .sigchk) ∨
    (w.extractLsb 31 4 = 0 ∧ w.extractLsb 3 0 = 0x2 ∧ decode w = .ok .next) ∨
    (w.extractLsb 31 4 = 0 ∧ w.extractLsb 3 0 ≠ 0x1 ∧ w.extractLsb 3 0 ≠ 0x2 ∧
      decode w = .error .reservedOpcode) := by
  unfold decode rsvField opField
  by_cases hrsv : w.extractLsb 31 4 = 0
  · rw [if_neg (not_not.2 hrsv)]
    by_cases h1 : w.extractLsb 3 0 = 0x1
    · exact .inr (.inl ⟨hrsv, h1, if_pos h1⟩)
    · rw [if_neg h1]
      by_cases h2 : w.extractLsb 3 0 = 0x2
      · exact .inr (.inr (.inl ⟨hrsv, h2, if_pos h2⟩))
      · exact .inr (.inr (.inr ⟨hrsv, h1, h2, if_neg h2⟩))
  · exact .inl ⟨hrsv, if_pos hrsv⟩

/-- Which words are illegal (R85). -/
theorem decode_eq_error_iff_fields (w : Word) :
    (∃ e, decode w = .error e) ↔
      w.extractLsb 31 4 ≠ 0 ∨ (w.extractLsb 3 0 ≠ 0x1 ∧ w.extractLsb 3 0 ≠ 0x2) := by
  rcases decode_cases w with ⟨hrsv, hd⟩ | ⟨hrsv, hop, hd⟩ | ⟨hrsv, hop, hd⟩ | ⟨hrsv, h1, h2, hd⟩
  · exact iff_of_true ⟨_, hd⟩ (.inl hrsv)
  · simp [hd, hrsv, hop]
  · simp [hd, hrsv, hop]
  · exact iff_of_true ⟨_, hd⟩ (.inr ⟨h1, h2⟩)

/-! ### Submission -/

theorem submit_of_decode_ok {w : Word} {i : Instr} (h : decode w = .ok i) (s : State) :
    submit w s = exec i s := by
  rw [submit, h]

theorem submit_of_decode_error {w : Word} {e : Reject} (h : decode w = .error e) (s : State) :
    submit w s = .next (s.gate (s.raise .cmdIllegal)) := by
  rw [submit, h]

/-- Outside ERROR and BUSY a command word is accepted (R88). -/
theorem gate_of_accepting {s : State} (he : s.phase ≠ .error) (hb : s.phase.busy = false)
    (accepted : State) : s.gate accepted = accepted := by
  rw [State.gate, if_neg he, if_neg (by simp [hb])]

/-- Settles O2: a word is a command exactly when it is that command's encoding, and a word that
passes the gate is accepted. -/
theorem onlyTwoWordsAreCommands : Obligations.OnlyTwoWordsAreCommands := by
  refine fun w => ⟨decode_eq_ok_iff_masked w .sigchk, decode_eq_ok_iff_masked w .next,
    decode_eq_ok_iff w, decode_eq_error_iff_fields w, ?_⟩
  rintro s ⟨e, hd⟩ he hb
  rw [submit_of_decode_error hd, gate_of_accepting he hb]

/-- What a submitted word does, by its fields (R85, R88): a function of the word behind one gate. -/
theorem submit_eq_gate (w : Word) (s : State) :
    submit w s = .next (s.gate
      (if w.extractLsb 31 4 ≠ 0 ∨ ¬ (w.extractLsb 3 0 = 0x1 ∨ w.extractLsb 3 0 = 0x2) then
        s.raise .cmdIllegal
      else if w.extractLsb 3 0 = 0x1 then acceptSigchk s
      else acceptNext s)) := by
  rcases decode_cases w with ⟨hrsv, hd⟩ | ⟨hrsv, hop, hd⟩ | ⟨hrsv, hop, hd⟩ | ⟨hrsv, h1, h2, hd⟩
  · rw [submit_of_decode_error hd, if_pos (.inl hrsv)]
  · rw [submit_of_decode_ok hd, if_neg (by simp [hrsv, hop]), if_pos hop]
    rfl
  · rw [submit_of_decode_ok hd, if_neg (by simp [hrsv, hop]), if_neg (by simp [hop])]
    rfl
  · rw [submit_of_decode_error hd, if_pos (.inr (not_or.2 ⟨h1, h2⟩))]

/-- `STATUS.BUSY` is set in the busy phases (R28). -/
theorem busy_of_statusWord_eq_one_iff (s : State) :
    Field.busy.of s.statusWord = 1 ↔ s.phase.busy = true := by
  obtain ⟨hbusy, -⟩ := statusWord_fields s
  rw [Field.of, show s.statusWord.extractLsb' Field.busy.low Field.busy.bits = _ from hbusy]
  cases s.phase.busy <;> decide

/-- The host's next bus access submits this word (R81). -/
theorem step_of_commandInput {s : State} {w : Word} {rest : List Input}
    (h : s.inputs = commandInput w :: rest) : step s = submit w { s with inputs := rest } := by
  rw [← step_commandInput, ← h]

/-- Settles O6: the gate's two tests are the first two lines of R88, and what passes it is the rest. -/
theorem commandWriteFirstMatchingLine : Obligations.CommandWriteFirstMatchingLine := by
  intro s w rest h
  simp only [busy_of_statusWord_eq_one_iff]
  rw [step_of_commandInput h, submit_eq_gate, State.gate]

end Sys2Proof.Machine
end

section
/-! Proofs of the statements on the host's programs: its statements (R94), its variables, and what
the pseudo-instructions assemble to (R95). -/

namespace Sys2Proof.Machine

/-! ### Statements -/

/-- The host executes the statement it is at (R94). -/
theorem step_of_hostRun {s : State} {rest : List Input} {op : HostOp}
    (h : s.inputs = .hostRun :: rest) (hop : s.host.prog[s.host.pc]? = some op) :
    step s = hostOp op { s with inputs := rest } := by
  have hstep : step s = hostStep { s with inputs := rest } := by rw [step, h]; rfl
  rw [hstep, hostStep, hop]

/-- A `WR` to `CMD` submits the word (R81, R94). -/
theorem hostOp_wr_cmd (w : Word) (s : State) :
    hostOp (.wr 0x00 w) s = thenHost (fun t => t.hostAt (s.host.pc + 1)) (submit w s) :=
  congrArg (thenHost _) (access_wr_word (off := Reg.cmd.offset) s (by decide) w)

/-- Settles O7: each of the three steps submits the word, and a submitted command is executed. -/
theorem stepRunsDecodedCommand : Obligations.StepRunsDecodedCommand := by
  refine fun s w i hd => ⟨fun rest h => ?bus, fun rest h hop => ?program, ?fetch⟩
  case bus => rw [step_of_commandInput h, submit_of_decode_ok hd]
  case program => rw [step_of_hostRun h hop, hostOp_wr_cmd, submit_of_decode_ok hd]
  case fetch =>
    have hword : BitVec.ofNat 32 (w.toNat % 2 ^ 32) = w := by
      rw [Nat.mod_eq_of_lt w.isLt, BitVec.ofNat_toNat, BitVec.setWidth_eq]
    rw [State.withFetchWord, hword, step_commandInput, submit_of_decode_ok hd]

/-- A word write at a multiple of 4 always leaves a next state (R64, R81). -/
theorem access_wr_answers_next {off : BitVec 8} (h4 : off.toNat % 4 = 0) (v : Word) (s : State) :
    ∃ t, access (.wr .word off v) s = .next t := by
  rw [access_wr_word s h4]
  exact admittedAccess_answers_next (.wr .word off v) s

theorem Cond.holds_iff (c : Cond) (field imm : Word) :
    c.holds field imm = true ↔ (field = imm ↔ c = .eq) := by
  cases c <;> simp [Cond.holds]

/-- Settles O46: the statement the host is at, kind by kind. -/
theorem hostStatements : Obligations.HostStatements := by
  refine fun s rest h => ⟨fun v off h4 hop => ?rd, fun off v h4 hop => ?wr,
    fun c v f imm target hop => ?branch, fun target hop => ?jump, fun hop => ?halt⟩
  all_goals rw [step_of_hostRun h hop]
  case rd =>
    rw [hostOp, access_rd_word _ h4]
    rfl
  case wr =>
    obtain ⟨t, ht⟩ := access_wr_answers_next h4 v { s with inputs := rest }
    refine ⟨t, ht, ?_⟩
    rw [hostOp, ht]
    rfl
  case branch =>
    simp only [hostOp, Cond.holds_iff]
    rfl
  case jump => rfl
  case halt => rfl

/-! ### Variables -/

/-- What a variable holds after a store, in any list of variables: the induction stops where the
store does. -/
theorem getVar_setVar (v u : Nat) (w : Word) (l : List (Nat × Word)) :
    getVar (setVar v w l) u = if u = v then w else getVar l u := by
  induction l with
  | nil => simp only [setVar, getVar, eq_comm]
  | cons c l ih =>
    obtain ⟨n, x⟩ := c
    rw [setVar]
    by_cases hlt : v < n
    · rw [if_pos hlt, getVar]
      simp only [eq_comm]
    · rw [if_neg hlt]
      by_cases hvn : v = n
      · subst hvn
        rw [if_pos rfl, getVar, getVar]
        by_cases hu : u = v
        · rw [if_pos hu, if_pos hu.symm]
        · rw [if_neg hu, if_neg (Ne.symm hu), if_neg (Ne.symm hu)]
      · rw [if_neg hvn, getVar, getVar, ih]
        by_cases hu : n = u
        · rw [if_pos hu, if_pos hu, if_neg (fun huv => hvn (huv.symm.trans hu.symm))]
        · rw [if_neg hu, if_neg hu]

/-- Settles O47: the law of a store needs no canonical form. -/
theorem hostVariables : Obligations.HostVariables :=
  fun l v u w _ => getVar_setVar v u w l

/-! ### Expansions -/

/-- An expansion is as long as the assembler counts (R95). -/
theorem length_of_expand {labels : List (String × Nat)} {vars : List String} {b : Nat} {st : Stmt}
    {ops : List HostOp} (h : expand labels vars b st = some ops) : ops.length = st.size := by
  cases st with
  | branch c v f imm l =>
    obtain ⟨a, -, rfl⟩ := Option.map_eq_some_iff.1 h
    rfl
  | jump l =>
    obtain ⟨a, -, rfl⟩ := Option.map_eq_some_iff.1 h
    rfl
  | sigchk | next | wr | rd | halt | textOn | textOff | wait | decodeAll =>
    obtain rfl := Option.some.inj h
    rfl

/-- Settles O48: the expansions are the table's, and their lengths follow statement by statement. -/
theorem pseudoInstructionExpansions : Obligations.PseudoInstructionExpansions :=
  fun _ _ _ => ⟨rfl, rfl, rfl, rfl, rfl, rfl, fun _ _ => length_of_expand⟩

end Sys2Proof.Machine
end

section
/-! Proofs of the statements on SIGCHK: its acceptance (R101), and what the stream's first 8 bytes make
of it (R100 to R105): the states it passes through, written out by the bytes read. -/

namespace Sys2Proof.Machine

/-! ### The gate and the acceptance -/

/-- In ERROR a command word is ignored (R88). -/
theorem gate_of_error {s : State} (he : s.phase = .error) (accepted : State) :
    s.gate accepted = s := by
  rw [State.gate, if_pos he]

/-- While BUSY a command word is a fault (R88). -/
theorem gate_of_busy {s : State} (hb : s.phase.busy = true) (accepted : State) :
    s.gate accepted = s.raise .cmdBusy := by
  have he : s.phase ≠ .error := by rintro he; simp [he, Phase.busy] at hb
  rw [State.gate, if_neg he, if_pos hb]

theorem exec_sigchk (s : State) : exec .sigchk s = .next (s.gate (acceptSigchk s)) := rfl

/-- In IDLE `SIGCHK` starts (R101). -/
theorem exec_sigchk_idle {s : State} (hp : s.phase = .idle) :
    exec .sigchk s = .next { s with phase := .sig, idx := 0, sigBad := false } := by
  rw [exec_sigchk, gate_of_accepting (by simp [hp]) (by simp [hp, Phase.busy]), acceptSigchk,
    if_pos hp]

/-- Once the signature is validated `SIGCHK` is out of order (R101). -/
theorem exec_sigchk_out_of_order {s : State} (hp : s.phase = .ready ∨ s.phase = .done) :
    exec .sigchk s = .next (s.raise .cmdSeq) := by
  have hidle : s.phase ≠ .idle := by rcases hp with hp | hp <;> simp [hp]
  have he : s.phase ≠ .error := by rcases hp with hp | hp <;> simp [hp]
  have hb : s.phase.busy = false := by rcases hp with hp | hp <;> simp [hp, Phase.busy]
  rw [exec_sigchk, gate_of_accepting he hb, acceptSigchk, if_neg hidle]

/-- Settles O8: the gate's two lines for BUSY and ERROR, the acceptance for the other phases. -/
theorem sigchkAcceptance : Obligations.SigchkAcceptance := by
  refine fun s => ⟨exec_sigchk_idle, exec_sigchk_out_of_order, fun hb => ?busy, fun he => ?error⟩
  case busy =>
    rw [exec_sigchk, gate_of_busy hb]
    rfl
  case error => rw [exec_sigchk, gate_of_error he]

/-! ### The signature's bytes -/

/-- The first `n` bytes of the stream are not those of the signature (R102, R103). -/
def Memory.sigDiffers (m : Memory) (n : Nat) : Bool := m.bytes.take n != signature.take n

theorem Memory.sigDiffers_eight (m : Memory) :
    m.sigDiffers 8 = true ↔ m.bytes.take 8 ≠ signature := bne_iff_ne

theorem signature_take_succ :
    ∀ n < 8, signature.take (n + 1) = signature.take n ++ [sigByte (BitVec.ofNat 3 n)] := by
  decide

/-- One byte more differs, or one before it (R102). -/
theorem Memory.sigDiffers_succ {m : Memory} {n : Nat} {r : Byte} (hn : n < 8)
    (hr : m.bytes[n]? = some r) :
    m.sigDiffers (n + 1) = (m.sigDiffers n || r != sigByte (BitVec.ofNat 3 n)) := by
  have htake : m.bytes.take (n + 1) = m.bytes.take n ++ [r] := by
    rw [List.take_add_one, hr, Option.toList_some]
  rw [sigDiffers, htake, signature_take_succ n hn, Bool.eq_iff_iff, Bool.or_eq_true, bne_iff_ne,
    sigDiffers, bne_iff_ne, bne_iff_ne, Ne, List.append_singleton_inj, not_and_or]

/-! ### The states SIGCHK passes through -/

/-- SIGCHK with the first `n` bytes of the stream read (R102). -/
def State.sigRead (s : State) (n : Nat) : State :=
  { s with
    phase := .sig, idx := BitVec.ofNat 3 n, cursor := BitVec.ofNat 64 n
    sigBad := s.stream.sigDiffers n }

/-- At its acceptance no byte is read (R101). -/
theorem exec_sigchk_sigRead {s : State} (hp : s.phase = .idle) (hcursor : s.cursor = 0) :
    exec .sigchk s = .next (s.sigRead 0) := by
  have hzero : BitVec.ofNat 64 0 = s.cursor := hcursor.symm
  rw [exec_sigchk_idle hp, State.sigRead, hzero]
  rfl

section
variable {s : State} (hwf : s.stream.wf = true) {n : Nat} (hn : n < 8)
include hwf hn

theorem sigRead_memRead : (s.sigRead n).memRead = s.stream.bytes[n]? := by
  have hcursor : (s.sigRead n).cursor.toNat = n := Nat.mod_eq_of_lt (by omega)
  rw [State.memRead, hcursor, ← Memory.read_eq_getElem? hwf]
  rfl

/-- The stream ends among the 8 bytes: SIG_SHORT, whatever was read (R104). -/
theorem sigStep_sigRead_end (hend : s.stream.size = n) :
    sigStep (s.sigRead n) = (s.sigRead n).raise .sigShort := by
  have hr : (s.sigRead n).memRead = none := by
    rw [sigRead_memRead hwf hn, List.getElem?_eq_none_iff, Memory.length_bytes, hend]
  rw [sigStep, hr]

/-- A byte is read, and the 8th completes the command (R102, R103). -/
theorem sigStep_sigRead_byte (hlt : n < s.stream.size) :
    sigStep (s.sigRead n) =
      if n = 7 then completeSigchk (s.sigRead 8) else s.sigRead (n + 1) := by
  obtain ⟨r, hr⟩ : ∃ r, s.stream.bytes[n]? = some r :=
    ⟨_, List.getElem?_eq_getElem (by rwa [Memory.length_bytes])⟩
  have hread : (s.sigRead n).memRead = some r := (sigRead_memRead hwf hn).trans hr
  have hlast : (s.sigRead n).idx = 7 ↔ n = 7 := by
    have : ∀ n < 8, BitVec.ofNat 3 n = 7 ↔ n = 7 := by decide
    exact this n hn
  have hnext : ({ (s.sigRead n).advance 1 with
      sigBad := (s.sigRead n).sigBad || r != sigByte (s.sigRead n).idx
      idx := (s.sigRead n).idx + 1 } : State) = s.sigRead (n + 1) := by
    rw [State.sigRead, State.sigRead, Memory.sigDiffers_succ hn hr, BitVec.ofNat_add,
      BitVec.ofNat_add]
    rfl
  rw [sigStep, hread]
  refine if_ctx_congr hlast (fun h7 => ?_) fun _ => hnext
  calc completeSigchk _
      = completeSigchk (s.sigRead (n + 1)) := by
        rw [← hnext]
        rfl
    _ = completeSigchk (s.sigRead 8) := by rw [h7]

end

/-- Whatever sizes the source's answers draw, the 8th completes the command (R103). -/
theorem runSteps_sigRead {s : State} (hwf : s.stream.wf = true) (hsize : 8 ≤ s.stream.size) :
    ∀ (ks : List Nat) (n : Nat), n < 8 → n + ks.length = 8 →
      runSteps ks.length (State.sigRead { s with inputs := ks.map .source } n) =
        .next (completeSigchk (State.sigRead { s with inputs := [] } 8))
  | [], n, hn, hlen => absurd hlen hn.ne
  | k :: ks, n, hn, hlen => by
    have hstep : step (State.sigRead { s with inputs := (k :: ks).map .source } n) =
        .next (sigStep (State.sigRead { s with inputs := ks.map .source } n)) := rfl
    rw [sigStep_sigRead_byte (s := { s with inputs := ks.map .source }) hwf hn
      (hn.trans_le hsize)] at hstep
    rw [List.length_cons] at hlen
    refine (runSteps_next _ hstep).trans ?_
    by_cases h7 : n = 7
    · obtain rfl : ks = [] := List.eq_nil_of_length_eq_zero (by omega)
      rw [if_pos h7]
      rfl
    · rw [if_neg h7]
      exact runSteps_sigRead hwf hsize ks (n + 1) (by omega) (by omega)

/-- What completion does of the signature's bytes (R103). -/
theorem completeSigchk_differs {s : State} (h : s.stream.bytes.take 8 ≠ signature) :
    completeSigchk (s.sigRead 8) = (s.sigRead 8).raise .sigMismatch :=
  if_pos (s.stream.sigDiffers_eight.2 h)

theorem completeSigchk_validates {s : State} (h : s.stream.bytes.take 8 = signature) :
    completeSigchk (s.sigRead 8) =
      { s with phase := .ready, idx := 0, sigBad := false, sigOk := true, cursor := 8,
               trace := s.trace ++ [.sigOk] } := by
  have hsame : s.stream.sigDiffers 8 = false := by
    rw [← Bool.not_eq_true, Memory.sigDiffers_eight, not_not]
    exact h
  have hok : ¬ (s.sigRead 8).sigBad = true := ne_true_of_eq_false hsame
  rw [completeSigchk, if_neg hok, State.sigRead, hsame]
  rfl

/-- Settles O10: the answers read the 8 bytes, and the completion finds none that differs. -/
theorem sigchkCompletes : Obligations.SigchkCompletes := by
  intro s ks hs hp hsize hsig hlen
  obtain ⟨-, hcursor, -⟩ := (placeOk_idle hp).1 hs.inv.place
  refine ⟨_, exec_sigchk_sigRead hp hcursor, ?_⟩
  calc runSteps 8 (State.sigRead { s with inputs := ks.map .source } 0)
      = .next (completeSigchk (State.sigRead { s with inputs := [] } 8)) :=
        hlen ▸ runSteps_sigRead hs.inv.streamWf hsize ks 0 (by decide) (by omega)
    _ = _ := congrArg Host.Outcome.next
        (completeSigchk_validates (s := { s with inputs := [] }) hsig)

/-! ### From acceptance to the result -/

/-- The engine's states from the acceptance of SIGCHK in `s` on, by the bytes read. -/
inductive DuringSigchk (s : State) : State → Prop
  /-- `n` bytes of the signature are read, and some remain (R102). -/
  | reading (n : Nat) (hn : n < 8) (hle : n ≤ s.stream.size) :
      DuringSigchk s (s.sigRead n).engine
  /-- The stream has ended among them (R104). -/
  | short (hlt : s.stream.size < 8) :
      DuringSigchk s ((s.sigRead s.stream.size).raise .sigShort).engine
  /-- All 8 are read (R103). -/
  | complete (hsize : 8 ≤ s.stream.size) : DuringSigchk s (completeSigchk (s.sigRead 8)).engine

theorem duringSigchk_sigStep {s : State} (hwf : s.stream.wf = true) {n : Nat} (hn : n < 8)
    (hle : n ≤ s.stream.size) : DuringSigchk s (sigStep (s.sigRead n)).engine := by
  rcases hle.eq_or_lt with hend | hlt
  · rw [sigStep_sigRead_end hwf hn hend.symm, hend]
    exact .short (hend ▸ hn)
  · rw [sigStep_sigRead_byte hwf hn hlt]
    by_cases h7 : n = 7
    · rw [if_pos h7]
      exact .complete (by omega)
    · rw [if_neg h7]
      exact .reading (n + 1) (by omega) hlt

theorem completeSigchk_not_busy (s : State) : (completeSigchk s).phase.busy = false := by
  unfold completeSigchk
  cases s.sigBad <;> rfl

/-- Service leads through these states (R143). -/
theorem duringSigchk_keptByService {s : State} (hwf : s.stream.wf = true) :
    KeptByService (DuringSigchk s) where
  source k e h := by
    cases h with
    | reading n hn hle =>
      rw [← sourceStep_engine]
      exact duringSigchk_sigStep hwf hn hle
    | short hlt => exact .short hlt
    | complete hsize =>
      rw [← sourceStep_engine, sourceStep_not_busy (completeSigchk_not_busy (s.sigRead 8))]
      exact .complete hsize
  sink e h := by
    cases h with
    | reading n hn hle => exact .reading n hn hle
    | short hlt => exact .short hlt
    | complete hsize =>
      rw [← sinkStep_engine, sinkStep_not_busy (completeSigchk_not_busy (s.sigRead 8))]
      exact .complete hsize

/-- Of the states SIGCHK passes through only the last is not busy. -/
theorem DuringSigchk.result {s e : State} (h : DuringSigchk s e) (hb : e.phase.busy = false) :
    (s.stream.size < 8 ∧ e = ((s.sigRead s.stream.size).raise .sigShort).engine) ∨
    (8 ≤ s.stream.size ∧ e = (completeSigchk (s.sigRead 8)).engine) := by
  cases h with
  | reading => cases hb
  | short hlt => exact .inl ⟨hlt, rfl⟩
  | complete hsize => exact .inr ⟨hsize, rfl⟩

/-- `STATUS` where the signature has been validated and nothing else has happened (R105). -/
theorem statusWord_validated {s : State} (hp : s.phase = .ready) (hok : s.sigOk = true)
    (hterm : s.term = .none) (hresid : s.eofResid = 0) (hcode : s.errcode = .none) :
    s.statusWord = 0x00000202 := by
  rw [State.statusWord, hp, hok, hterm, hresid, hcode]
  rfl

/-- Settles O11: acceptance begins the states SIGCHK passes through, service leads through them, and
the one that is not busy is the end of the stream or the completion. -/
theorem sigchkOutcome : Obligations.SigchkOutcome := by
  intro s u t xs hs hp hstep hu hrun hb
  obtain ⟨-, hcursor, -⟩ := (placeOk_idle hp).1 hs.inv.place
  rw [step_commandInput, submit_of_decode_ok (i := .sigchk) rfl,
    exec_sigchk_sigRead (s := { s with inputs := xs }) hp hcursor] at hstep
  have haccepted := Host.Outcome.next.inj hstep
  have hxs : u.inputs = xs := by rw [← haccepted]; rfl
  have hfirst : DuringSigchk s u.engine := haccepted ▸ .reading 0 (by decide) (Nat.zero_le _)
  obtain ⟨hduring, hinputs⟩ :=
    (duringSigchk_keptByService hs.inv.streamWf).run xs u hxs hu hrun hfirst
  refine ⟨hinputs, fun hserves => ?_, ?_⟩
  · obtain ⟨hcfg, hhost⟩ := runSteps_serves xs u hxs hserves hrun
    rw [hcfg, hhost, ← haccepted]
    exact ⟨rfl, rfl⟩
  · rcases hduring.result hb with ⟨hlt, he⟩ | ⟨hsize, he⟩
    · exact ⟨fun _ => congrArg State.settled he, fun h => absurd h hlt.not_ge,
        fun h => absurd h hlt.not_ge⟩
    · refine ⟨fun h => absurd hsize h.not_ge, fun _ hne => ?_, fun _ hsame => ?_⟩
      · rw [completeSigchk_differs hne] at he
        exact congrArg State.settled he
      · rw [completeSigchk_validates hsame] at he
        obtain ⟨hterm, hresid, hcode, -⟩ := hs.inv.clear (by simp [hp]) (by simp [hp])
        have hstatus := congrArg State.statusWord he
        exact ⟨congrArg State.settled he,
          hstatus.trans (statusWord_validated rfl rfl hterm hresid hcode)⟩

end Sys2Proof.Machine
end

section
/-! Proofs of the statements on frames: what the commands leave unchanged at their submission (R101,
R121, R166), and what the micro-steps leave (R102, R122, R143). -/

namespace Sys2Proof.Machine

/-! ### Commands -/

theorem decode_encode (i : Instr) : decode (encode i) = .ok i := (decode_eq_ok_iff _ i).2 rfl

theorem encode_injective : Function.Injective encode := fun i j h =>
  Except.ok.inj ((decode_encode i).symm.trans (h ▸ decode_encode j))

/-- What a command can do at its submission (R88, R101, R121). -/
theorem exec_cases {i : Instr} {s t : State} (h : exec i s = .next t) :
    t = s ∨ (∃ c, t = s.raise c) ∨
    (i = .sigchk ∧ t = { s with phase := .sig, idx := 0, sigBad := false }) ∨
    (i = .next ∧
      t = { s with recStart := s.cursor, curLen := 0, curType := 0, textReq := s.textEn,
                   acc := 0, idx := 0, phase := .len }) := by
  rw [← submit_of_decode_ok (decode_encode i)] at h
  rcases submit_cases h with ⟨-, ht⟩ | ⟨-, ht⟩ | ⟨-, hw, ht⟩ | ⟨-, hw, ht⟩ | ⟨-, ht | ht⟩
  · exact .inl ht
  · exact .inr (.inl ⟨_, ht⟩)
  · exact .inr (.inr (.inl ⟨encode_injective hw, ht⟩))
  · exact .inr (.inr (.inr ⟨encode_injective hw, ht⟩))
  · exact .inr (.inl ⟨_, ht⟩)
  · exact .inr (.inl ⟨_, ht⟩)

/-- A fault adds no `REC` event and no `TXT` event to the trace (R45). -/
theorem raise_events (s : State) (c : ErrCode) :
    recordsOf (s.raise c).trace = recordsOf s.trace ∧ textOf (s.raise c).trace = textOf s.trace := by
  simp [recordsOf_append, recordsOf, textOf_append, textOf]

/-- Settles O43: nothing happens, a fault is raised, or the command starts. -/
theorem commandFrame : Obligations.CommandFrame := by
  intro i s t h
  rcases exec_cases h with rfl | ⟨c, rfl⟩ | ⟨rfl, rfl⟩ | ⟨rfl, rfl⟩
  · exact ⟨fun _ => rfl, rfl, rfl, rfl, rfl, rfl, rfl, rfl, rfl, rfl, rfl, rfl, rfl, rfl, rfl, rfl,
      rfl, rfl, fun _ => ⟨rfl, rfl, rfl, rfl, rfl⟩, fun _ => rfl, fun _ => ⟨rfl, rfl, rfl, rfl⟩⟩
  · obtain ⟨hrecords, htext⟩ := raise_events s c
    exact ⟨fun _ => rfl, rfl, rfl, rfl, rfl, rfl, rfl, rfl, rfl, rfl, rfl, rfl, rfl, rfl, rfl, rfl,
      hrecords, htext, fun _ => ⟨rfl, rfl, rfl, rfl, rfl⟩, fun _ => rfl, fun hne => absurd rfl hne⟩
  · exact ⟨fun _ => rfl, rfl, rfl, rfl, rfl, rfl, rfl, rfl, rfl, rfl, rfl, rfl, rfl, rfl, rfl, rfl,
      rfl, rfl, fun _ => ⟨rfl, rfl, rfl, rfl, rfl⟩, nofun, fun _ => ⟨rfl, rfl, rfl, rfl⟩⟩
  · exact ⟨fun _ => rfl, rfl, rfl, rfl, rfl, rfl, rfl, rfl, rfl, rfl, rfl, rfl, rfl, rfl, rfl, rfl,
      rfl, rfl, nofun, fun _ => rfl, fun _ => ⟨rfl, rfl, rfl, rfl⟩⟩

/-! ### Micro-steps -/

section
variable {s t : State} {a : Agent} (hm : Move s a t) (ha : a ≠ .host)
include hm ha

/-- Only SIG writes `s.sig_ok` and `s.sig_bad` (R102, R103). -/
theorem Move.keeps_signature (hp : s.phase ≠ .sig) : t.sigOk = s.sigOk ∧ t.sigBad = s.sigBad := by
  cases hm with
  | sigchk => exact absurd rfl ha
  | sigByte _ _ h | sigMismatch _ h | sigOk _ h => exact absurd h hp
  | _ => exact ⟨rfl, rfl⟩

/-- Only LEN writes `CUR_LEN` and the number of partial length bytes (R122, R123). -/
theorem Move.keeps_length (hp : s.phase ≠ .len) :
    t.curLen = s.curLen ∧ t.eofResid = s.eofResid := by
  cases hm with
  | next => exact absurd rfl ha
  | lenFault h | cleanEnd h | lenLast _ h => exact absurd h hp
  | _ => exact ⟨rfl, rfl⟩

/-- Only TYPE writes `CUR_TYPE` (R124). -/
theorem Move.keeps_type (hp : s.phase ≠ .type) : t.curType = s.curType := by
  cases hm with
  | next => exact absurd rfl ha
  | typeEmpty _ h | typeText _ h | typeSkip _ h => exact absurd h hp
  | _ => rfl

omit ha in
/-- Only the clean end in LEN and the terminal record in CRC terminate (R134). -/
theorem Move.keeps_term (hlen : s.phase ≠ .len) (hcrc : s.phase ≠ .crc) : t.term = s.term := by
  cases hm with
  | cleanEnd h => exact absurd h hlen
  | lastRecord _ _ h => exact absurd h hcrc
  | _ => rfl

omit ha in
/-- Nothing is taken off the trace (R45). -/
theorem Move.trace_grows : ∃ new, t.trace = s.trace ++ new := by
  cases hm with
  | commandFault | endFault | skipFault | lenFault | cleanEnd | sigMismatch | sigOk | record | emit
  | emitLast => exact ⟨_, rfl⟩
  | lastRecord => exact ⟨_, List.append_assoc ..⟩
  | _ => exact ⟨[], (List.append_nil _).symm⟩

end

/-- An input that serves the engine is a move of the source or the sink; an engine that is not busy
takes it off the inputs and stays as it is (R143). -/
theorem step_serves_cases {s t : State} {i : Input} (hi : s.inputs.head? = some i)
    (hserves : i.serves = true) (h : step s = .next t) :
    (∃ a, a ≠ .host ∧ Move s.popped a t) ∧ SameOutside s.popped t ∧
      (s.phase.busy = false → t = s.popped) := by
  obtain ⟨rest, hrest⟩ := List.head?_eq_some_iff.1 hi
  have hstep : step s = takeInput i s.popped := by rw [step, State.popped, hrest]; rfl
  rw [hstep] at h
  cases i with
  | source k =>
    obtain rfl := Host.Outcome.next.inj h
    exact ⟨⟨.source, nofun, sourceStep_move k _⟩, sourceStep_same k _,
      fun hb => sourceStep_not_busy (s := s.popped) hb k⟩
  | sink =>
    obtain rfl := Host.Outcome.next.inj h
    exact ⟨⟨.sink, nofun, sinkStep_move _⟩, sinkStep_same _,
      fun hb => sinkStep_not_busy (s := s.popped) hb⟩
  | access | hostRun | reset | streamIs => cases hserves

/-- Settles O44: what no micro-step touches, what one phase alone writes, and a trace that grows. -/
theorem microStepFrame : Obligations.MicroStepFrame := by
  intro s t i hi hserves h
  obtain ⟨⟨a, ha, hm⟩, same, hquiet⟩ := step_serves_cases hi hserves h
  refine ⟨fun x => by rw [same.stream], same.params, same.cfg, same.host, same.recStart,
    same.textReq, same.inputs, hm.keeps_signature ha, hm.keeps_length ha, hm.keeps_type ha,
    hm.keeps_term, fun hp => hquiet ?_, hm.trace_grows⟩
  rcases hp with hp | hp | hp | hp <;> rw [hp] <;> rfl

end Sys2Proof.Machine
end

section
/-! The cursor's accounting (R139): what each phase says of it, and one case for each move. -/

namespace Sys2Proof.Machine

/-! ### The accounting, phase by phase -/

section
variable {s : State}

theorem accounted_ready (h : s.phase = .ready) :
    s.accounted ↔ s.cursor = 8 + recordBytes s.trace := by
  simp only [State.accounted, h]

theorem accounted_len (h : s.phase = .len) :
    s.accounted ↔ s.recStart = 8 + recordBytes s.trace := by
  simp only [State.accounted, h]

theorem accounted_crc (h : s.phase = .crc) :
    s.accounted ↔ s.recStart = 8 + recordBytes s.trace := by
  simp only [State.accounted, h]

theorem accounted_sig (h : s.phase = .sig) : s.accounted ↔ recordBytes s.trace = 0 := by
  simp only [State.accounted, h]

theorem accounted_error (h : s.phase = .error) : s.accounted := by
  simp only [State.accounted, h]

end

/-- The partial length bytes are counted whole in `EOF_RESID` (R123). -/
theorem setWidth_resid {i : BitVec 3} (h : i.toNat ≤ 3) :
    (i.setWidth 2).setWidth 64 = i.setWidth 64 := by
  apply BitVec.eq_of_toNat_eq
  simp only [BitVec.toNat_setWidth]
  omega

/-! ### Every move keeps the accounting -/

/-- The 4th checksum byte ends the record where its `12 + L` bytes end (R145). -/
theorem recorded_accounted {s : State} (hi : s.Inv) (ha : s.accounted) (hp : s.phase = .crc)
    (hidx : s.idx = 3) (crc : Word) :
    ((s.advance 1).recorded crc).cursor =
      8 + recordBytes ((s.advance 1).recorded crc).trace := by
  obtain ⟨-, -, hcur⟩ := (placeOk_crc hp).1 hi.place
  have hstart := (accounted_crc hp).1 ha
  simp only [State.recorded, State.advance_cursor, State.advance_trace, State.advance_curLen,
    recordBytes_append, recordBytes]
  rw [hcur, hidx, hstart, show (3 : BitVec 3).setWidth 64 = (3 : Position) from rfl]
  grind

theorem Move.keeps_accounted {s t : State} {a : Agent} (hm : Move s a t) (hi : s.Inv)
    (ha : s.accounted) : t.accounted := by
  cases hm with
  | noCommand | unawaited | unoffered => exact ha
  | commandFault | endFault | skipFault | lenFault | sigMismatch => exact accounted_error rfl
  | cleanEnd hp =>
    obtain ⟨h3, -, -, -, hcur⟩ := (placeOk_len hp).1 hi.place
    have hstart := (accounted_len hp).1 ha
    refine ⟨nofun, fun _ => ?_⟩
    simp [recordBytes_append, recordBytes, setWidth_resid h3, hcur, hstart]
  | sigchk hp => simpa [State.accounted, hp] using ha
  | sigOk r hp hr hidx =>
    obtain ⟨hcur, -⟩ := (placeOk_sig hp).1 hi.place
    have hnone := (accounted_sig hp).1 ha
    refine (accounted_ready rfl).2 ?_
    simp only [State.log_cursor, State.log_trace, State.advance_cursor, State.advance_trace,
      recordBytes_append, recordBytes, hnone, hcur, hidx]
    rfl
  | next hp => exact (accounted_len rfl).2 ((accounted_ready hp).1 ha)
  | fieldByte r hp =>
    rcases hp with hp | hp | hp <;> simpa [State.accounted, hp] using ha
  | sigByte _ _ hp | lenLast _ hp | typeEmpty _ hp | typeText _ hp | typeSkip _ hp | skip _ hp
  | skipLast _ hp | textRead _ hp =>
    simpa [State.accounted, hp] using ha
  | emit _ hp | emitLast _ hp =>
    simpa [State.accounted, hp, recordBytes_append, recordBytes] using ha
  | record r crc hp hr hidx =>
    exact (accounted_ready rfl).2 (recorded_accounted hi ha hp hidx crc)
  | lastRecord r crc hp hr hidx =>
    refine ⟨fun _ => ?_, nofun⟩
    simpa [recordBytes_append, recordBytes] using recorded_accounted hi ha hp hidx crc

/-- Taking the front of the inputs away keeps the invariant. -/
theorem State.Inv.popped {s : State} (hi : s.Inv) : s.popped.Inv :=
  hi.with_outside hi.cfgReserved hi.hostWf _

/-- Settles O25: a move keeps the accounting, what else a step changes is outside it, and reset
gives it. -/
theorem cursorAccounting : Obligations.CursorAccounting := by
  refine ⟨rfl, fun s t hi ha h => ?_⟩
  cases hr : s.resetNext with
  | true =>
    obtain ⟨bytes, rfl⟩ := step_reset h hr
    exact rfl
  | false =>
    obtain ⟨a, u, c, k, hm, -, -, -, -, rfl⟩ := step_move h hr
    exact hm.keeps_accounted hi.popped ha

end Sys2Proof.Machine
end

section
/-! Proofs of the statements on NEXT's acceptance (R121), on the micro-steps that complete the type
(R125, R130) and the record (R133), on DONE (R134), and on an engine that nobody answers (R143). -/

namespace Sys2Proof.Machine

/-! ### The acceptance -/

theorem exec_next (s : State) : exec .next s = .next (s.gate (acceptNext s)) := rfl

/-- In READY `NEXT` starts (R121). -/
theorem exec_next_ready {s : State} (hp : s.phase = .ready) :
    exec .next s = .next
      { s with recStart := s.cursor, curLen := 0, curType := 0, textReq := s.textEn, acc := 0,
               idx := 0, phase := .len } := by
  rw [exec_next, gate_of_accepting (by simp [hp]) (by simp [hp, Phase.busy]), acceptNext, if_pos hp]

/-- Before the signature is validated and after the end `NEXT` is out of order (R121). -/
theorem exec_next_out_of_order {s : State} (hp : s.phase = .idle ∨ s.phase = .done) :
    exec .next s = .next (s.raise .cmdSeq) := by
  have hready : s.phase ≠ .ready := by rcases hp with hp | hp <;> simp [hp]
  have he : s.phase ≠ .error := by rcases hp with hp | hp <;> simp [hp]
  have hb : s.phase.busy = false := by rcases hp with hp | hp <;> simp [hp, Phase.busy]
  rw [exec_next, gate_of_accepting he hb, acceptNext, if_neg hready]

/-- `CFG.TEXT_EN` as the register's field (R27). -/
theorem textEn_eq_decide (s : State) : s.textEn = decide (s.cfg.extractLsb 0 0 = 1) := by
  rw [Bool.eq_iff_iff, decide_eq_true_eq, extractLsb_zero_eq_one_iff]
  rfl

/-- Settles O9: the acceptance in READY and out of order, and the place of READY. -/
theorem nextAcceptance : Obligations.NextAcceptance := by
  refine fun s => ⟨fun hp => ?ready, exec_next_out_of_order, fun hi hp => ?validated⟩
  case ready => rw [exec_next_ready hp, textEn_eq_decide]
  case validated => exact ((placeOk_ready hp).1 hi.place).2

/-! ### The end of the type -/

theorem sourceStep_type {s : State} (hp : s.phase = .type) (k : Nat) :
    sourceStep k s = typeStep s := by
  rw [sourceStep, hp]

/-- The 4th type byte selects how the payload is handled (R124, R125). -/
theorem typeStep_last_eq {s : State} {r : Byte} (hi : s.idx = 3) (hr : s.memRead = some r) :
    typeStep s = selectPayload
      { s.advance 1 with curType := shiftIn s.acc r, acc := 0, idx := 0 } := by
  simp only [typeStep, hr, hi, if_true]

/-- Settles O35: the three ways of the selection. -/
theorem payloadSelection : Obligations.PayloadSelection := by
  intro s t r h hs hp hi hr
  obtain ⟨k, rfl⟩ := step_source h hs
  rw [sourceStep_type (s := s.popped) hp, typeStep_last_eq (s := s.popped) hi hr]
  rcases selectPayload_cases _ with ⟨h0, e⟩ | ⟨h0, ht, hq, e⟩ | ⟨h0, ht, e⟩ <;> rw [e]
  · exact ⟨rfl, h0.symm, (if_pos h0).symm⟩
  · exact ⟨rfl, rfl, ((if_neg h0).trans (if_pos ⟨ht, hq⟩)).symm⟩
  · exact ⟨rfl, rfl, ((if_neg h0).trans (if_neg ht)).symm⟩

/-- Settles O40: of the three ways an empty payload takes the first, at 8 bytes from the start. -/
theorem emptyPayloadGoesToChecksum : Obligations.EmptyPayloadGoesToChecksum := by
  intro s t hi h hs hp hidx hread hempty
  obtain ⟨r, hr⟩ := Option.ne_none_iff_exists'.1 hread
  obtain ⟨k, rfl⟩ := step_source h hs
  rw [sourceStep_type (s := s.popped) hp, typeStep_last_eq (s := s.popped) hidx hr]
  rcases selectPayload_cases _ with ⟨-, e⟩ | ⟨h0, -⟩ | ⟨h0, -⟩
  · rw [e]
    exact ⟨rfl, rfl, rfl, cursor_at_payload hi.popped hp hidx, rfl,
      hi.pendTxt_eq_none (by simp [hp])⟩
  · exact absurd hempty h0
  · exact absurd hempty h0

/-! ### The end of the record -/

theorem sourceStep_crc {s : State} (hp : s.phase = .crc) (k : Nat) :
    sourceStep k s = crcStep s := by
  rw [sourceStep, hp]

/-- What the completion of a record writes, terminal or not (R133, R134). -/
theorem completeRecord_eq (crc : Word) (s : State) :
    completeRecord crc s = { s with
      recLen := s.curLen, recType := s.curType, recCrc := crc
      recFlags := recFlagsWord s.params.textMarker s.curType s.textReq
      count := s.count + 1, recStartLast := s.recStart, acc := 0, idx := 0
      term := if s.curType = iendType then .iend else s.term
      phase := if s.curType = iendType then .done else .ready
      trace := s.trace ++ [.record s.curLen (typeBytes s.curType) crc
          (recFlagsWord s.params.textMarker s.curType s.textReq)] ++
        (if s.curType = iendType then [.ended .iend] else []) } := by
  obtain ⟨t, rfl, ⟨hend, e⟩ | ⟨hend, e⟩⟩ := completeRecord_cases crc s <;> rw [e]
  · simp only [if_pos hend]
    rfl
  · simp only [if_neg hend, List.append_nil]

/-- Settles O33: the completion, in the micro-step's turn. -/
theorem recordCompletion : Obligations.RecordCompletion := by
  intro s t r h hs hp hi hr
  obtain ⟨k, rfl⟩ := step_source h hs
  rw [sourceStep_crc (s := s.popped) hp, crcStep_last (s := s.popped) hi hr, completeRecord_eq,
    ← recFlagsWord_eq, ← show iendType = 0x49454E44 by decide]
  rfl

/-! ### After the end -/

/-- Settles O18: in DONE there is nothing to serve, and a command word is out of order or
illegal. -/
theorem doneIsFinal : Obligations.DoneIsFinal := by
  refine fun s hp => ⟨exec_next_out_of_order (.inr hp), fun t h hr => ?_⟩
  have hb : s.popped.phase.busy = false := by simp [hp, Phase.busy]
  rcases step_cases h with rfl | ⟨k, -, rfl⟩ | ⟨-, rfl⟩ | ⟨bytes, hk, -⟩ |
    ⟨k, -, -, rfl | ⟨v, rfl⟩ | ⟨w, u, hu, rfl⟩⟩
  · exact .inl rfl
  · rw [sourceStep_not_busy hb]
    exact .inl rfl
  · rw [sinkStep_not_busy hb]
    exact .inl rfl
  · simp [State.resetNext, hk, Input.isReset] at hr
  · exact .inl rfl
  · exact .inl rfl
  · rcases submit_cases hu with ⟨he, -⟩ | ⟨hbusy, -⟩ | ⟨he, -⟩ | ⟨he, -⟩ | ⟨-, rfl | rfl⟩
    · exact nomatch hp.symm.trans he
    · exact nomatch hb.symm.trans hbusy
    · exact nomatch hp.symm.trans he
    · exact nomatch hp.symm.trans he
    · exact .inr (.inr rfl)
    · exact .inr (.inl rfl)

/-! ### Who is waited for -/

/-- A busy engine waits for the source or for the sink, never for both (R143). -/
theorem State.Inv.offers_iff_not_awaits {s : State} (hi : s.Inv) (hb : s.phase.busy = true) :
    s.textOffered.isSome = !s.awaitsSource := by
  unfold State.textOffered State.awaitsSource
  cases hp : s.phase with
  | sig | len | type | crc => rfl
  | skip =>
    obtain ⟨-, -, hrem, -⟩ := (placeOk_skip hp).1 hi.place
    exact congrArg (!·) (bne_iff_ne.2 hrem).symm
  | text =>
    obtain ⟨-, -, hrem, -⟩ := (placeOk_text hp).1 hi.place
    rw [bne_iff_ne.2 hrem]
    cases s.pendTxt <;> rfl
  | idle | ready | done | error => simp [hp, Phase.busy] at hb

/-- An engine that is not busy waits for nobody (R143). -/
theorem not_busy_awaits_nobody {s : State} (hb : s.phase.busy = false) :
    s.awaitsSource = false ∧ s.textOffered = none := by
  unfold State.awaitsSource State.textOffered
  cases hp : s.phase with
  | idle | ready | done | error => exact ⟨rfl, rfl⟩
  | sig | len | type | skip | text | crc => simp [hp, Phase.busy] at hb

/-- Answers of the source that nobody awaits change nothing, however many (R201). -/
theorem runSteps_unawaited {s : State} (hw : s.awaitsSource = false) :
    ∀ ks : List Nat,
      runSteps ks.length { s with inputs := ks.map .source } = .next { s with inputs := [] }
  | [] => rfl
  | k :: ks => by
    have hstep : step { s with inputs := (k :: ks).map .source } =
        .next { s with inputs := ks.map .source } :=
      congrArg Host.Outcome.next (sourceStep_quiet k hw)
    exact (runSteps_next ks.length hstep).trans (runSteps_unawaited hw ks)

/-- Acceptances of the sink where no byte is offered change nothing, however many (R202). -/
theorem runSteps_unoffered {s : State} (ho : s.textOffered = none) :
    ∀ n : Nat,
      runSteps n { s with inputs := List.replicate n .sink } = .next { s with inputs := [] }
  | 0 => rfl
  | n + 1 => by
    have hstep : step { s with inputs := List.replicate (n + 1) .sink } =
        .next { s with inputs := List.replicate n .sink } :=
      congrArg Host.Outcome.next (sinkStep_quiet ho)
    exact (runSteps_next n hstep).trans (runSteps_unoffered ho n)

/-- Where nothing happens the engine holds (R143). -/
theorem runSteps_no_input (s : State) :
    ∀ n : Nat, runSteps n { s with inputs := [] } = .next { s with inputs := [] }
  | 0 => rfl
  | n + 1 => (runSteps_next n rfl).trans (runSteps_no_input s n)

/-- Settles O41: who is waited for in each phase, and runs in which that agent does not act. -/
theorem engineHoldsUntilAnswered : Obligations.EngineHoldsUntilAnswered :=
  fun s => ⟨fun hi hb => hi.offers_iff_not_awaits hb, not_busy_awaits_nobody,
    fun ks hw => runSteps_unawaited hw ks, fun n ho => runSteps_unoffered ho n,
    runSteps_no_input s⟩

end Sys2Proof.Machine
end

section
/-! Fair service (R202): quiet inputs as a function on the engine, and a demand for answers that
every fair round lowers until the command is over. -/

namespace Sys2Proof.Machine

/-! ### Quiet inputs act on the engine alone -/

/-- What an input does to an engine to which the host submits no command (R74, R143). -/
def State.served (e : State) : Input → State
  | .source k => sourceStep k e
  | .sink => sinkStep e
  | .access _ | .hostRun | .reset _ _ | .streamIs _ => e

/-- What several inputs do, one after the other. -/
def State.servedAll (e : State) (xs : List Input) : State := xs.foldl State.served e

theorem State.servedAll_append (e : State) (xs ys : List Input) :
    e.servedAll (xs ++ ys) = (e.servedAll xs).servedAll ys := List.foldl_append

/-- A quiet input always leaves a next state, and the engine sees only what serves it (R69, R74). -/
theorem step_served {s : State} {i : Input} {rest : List Input} (hin : s.inputs = i :: rest)
    (hq : i.quiet = true) :
    ∃ t, step s = .next t ∧ t.engine = s.engine.served i ∧ t.inputs = rest := by
  rw [step, hin]
  cases i with
  | source k => exact ⟨_, rfl, sourceStep_engine k _, (sourceStep_same k _).inputs⟩
  | sink => exact ⟨_, rfl, sinkStep_engine _, (sinkStep_same _).inputs⟩
  | access a =>
    obtain ⟨c, x, -, e⟩ := access_quiet hq { s with inputs := rest }
    exact ⟨_, e, rfl, rfl⟩
  | hostRun | reset | streamIs => cases hq

/-- A run over quiet inputs takes them all and keeps the invariant. -/
theorem runSteps_served {rest : List Input} :
    ∀ (xs : List Input) (s : State), s.inputs = xs ++ rest → xs.all Input.quiet = true → s.Inv →
      ∃ t, runSteps xs.length s = .next t ∧ t.engine = s.engine.servedAll xs ∧
        t.inputs = rest ∧ t.Inv
  | [], s, hin, _, hi => ⟨s, rfl, rfl, hin, hi⟩
  | _ :: xs, s, hin, hq, hi => by
    obtain ⟨hq, hqs⟩ := (Bool.and_eq_true _ _).mp hq
    obtain ⟨u, hstep, hu, hin⟩ := step_served hin hq
    obtain ⟨t, hrun, ht, hrest⟩ := runSteps_served xs u hin hqs (stepKeepsInv s u hi hstep)
    exact ⟨t, (runSteps_next _ hstep).trans hrun, ht.trans (congrArg (State.servedAll · xs) hu),
      hrest⟩

/-- One input keeps what service keeps. -/
theorem KeptByService.served {P : State → Prop} (hP : KeptByService P) {e : State} (he : P e)
    (i : Input) : P (e.served i) := by
  cases i with
  | source k => exact hP.source k e he
  | sink => exact hP.sink e he
  | access | hostRun | reset | streamIs => exact he

theorem KeptByService.servedAll {P : State → Prop} (hP : KeptByService P) (xs : List Input) :
    ∀ {e : State}, P e → P (e.servedAll xs) := by
  induction xs with
  | nil => exact id
  | cons i xs ih => exact fun he => ih (hP.served he i)

/-- The engine's part of a sound state is sound. -/
theorem State.Sound.engine {s : State} (hs : s.Sound) : s.engine.Sound :=
  ⟨hs.inv.with_outside BitVec.zero_and rfl [], hs.short⟩

theorem sound_keptByService : KeptByService State.Sound where
  source k e he := ⟨(sourceStep_move k e).keeps_inv he.inv,
    (congrArg Memory.size (sourceStep_same k e).stream).trans_lt he.short⟩
  sink e he := ⟨(sinkStep_move e).keeps_inv he.inv,
    (congrArg Memory.size (sinkStep_same e).stream).trans_lt he.short⟩

/-! ### The demand -/

/-- A bound on the answers a busy engine still takes: two for each byte left on the stream, one for
the byte that is offered, and one for the end (R143, R202). -/
def State.demand (s : State) : Nat :=
  if s.phase.busy then 2 * s.available + (if s.pendTxt.isSome then 1 else 0) + 1 else 0

theorem demand_not_busy {s : State} (hb : s.phase.busy = false) : s.demand = 0 := by
  rw [State.demand, if_neg (by simp [hb])]

theorem demand_busy {s : State} (hb : s.phase.busy = true) :
    s.demand = 2 * s.available + (if s.pendTxt.isSome then 1 else 0) + 1 := if_pos hb

theorem demand_le (s : State) :
    s.demand ≤ 2 * s.available + (if s.pendTxt.isSome then 1 else 0) + 1 := by
  cases hb : s.phase.busy with
  | true => rw [demand_busy hb]
  | false =>
    rw [demand_not_busy hb]
    exact Nat.zero_le _

theorem demand_le_two_available (s : State) : s.demand ≤ 2 * s.available + 2 := by
  have hone : (if s.pendTxt.isSome then 1 else 0) ≤ 1 := by split <;> decide
  have := demand_le s
  omega

/-- The end of a command ends the demand. -/
theorem demand_lt_of_ended {s t : State} (hs : s.phase.busy = true) (ht : t.phase.busy = false) :
    t.demand < s.demand := by
  rw [demand_not_busy ht, demand_busy hs]
  exact Nat.succ_pos _

/-- Bytes that are passed lower the demand, even where one of them is then offered. -/
theorem demand_lt_of_passed {s t : State} (hs : s.Sound) (hb : s.phase.busy = true) {n : Nat}
    (h1 : 1 ≤ n) (hn : n ≤ s.available)
    (ht : (t.stream, t.cursor) = (s.stream, s.cursor + BitVec.ofNat 64 n)) :
    t.demand < s.demand := by
  obtain ⟨hstream, hcur⟩ := Prod.mk.inj ht
  have hleft : t.available + n = s.available := by
    have := hs.cursor_add_toNat hn
    simp only [State.available, hstream, hcur] at hn ⊢
    omega
  have := demand_le_two_available t
  rw [demand_busy hb]
  omega

theorem busy_of_awaitsSource {s : State} (hw : s.awaitsSource = true) : s.phase.busy = true := by
  by_contra hb
  have := (not_busy_awaits_nobody (Bool.eq_false_of_not_eq_true hb)).1
  rw [hw] at this
  cases this

/-- An awaited answer of the source lowers the demand: it ends the command or passes bytes. -/
theorem sourceStep_demand_lt {s : State} (hs : s.Sound) (hw : s.awaitsSource = true) (k : Nat) :
    (sourceStep k s).demand < s.demand := by
  have hb := busy_of_awaitsSource hw
  have hone : ∀ {r}, s.memRead = some r → 1 ≤ s.available := fun hr =>
    hs.inv.one_le_available (by simp [hr])
  have hm := sourceStep_move k s
  generalize sourceStep k s = t at hm
  cases hm with
  | unawaited hno => exact nomatch hw.symm.trans hno
  | endFault | skipFault | lenFault | cleanEnd | sigMismatch | sigOk | record | lastRecord =>
    exact demand_lt_of_ended hb rfl
  | sigByte _ _ _ hr | fieldByte _ _ hr | lenLast _ _ hr | typeEmpty _ _ hr | typeText _ _ hr
  | typeSkip _ _ hr | textRead _ _ _ hr =>
    exact demand_lt_of_passed hs hb le_rfl (hone hr) rfl
  | skip n _ h1 _ ha | skipLast n _ h1 _ ha => exact demand_lt_of_passed hs hb h1 ha rfl

/-- A byte is offered in TEXT only, and it is the pending one (R22). -/
theorem textOffered_eq_some {s : State} {b : Byte} (ho : s.textOffered = some b) :
    s.phase = .text ∧ s.pendTxt = some b := by
  unfold State.textOffered at ho
  split at ho
  · exact ⟨‹_›, ho⟩
  all_goals cases ho

/-- An accepted byte lowers the demand: it is no longer offered. -/
theorem sinkStep_demand_lt {s : State} {b : Byte} (ho : s.textOffered = some b) :
    (sinkStep s).demand < s.demand := by
  obtain ⟨hp, hb⟩ := textOffered_eq_some ho
  have hbusy : s.phase.busy = true := by rw [hp]; rfl
  have hleft : (sinkStep s).available = s.available ∧ (sinkStep s).pendTxt = none := by
    rw [sinkStep, hp]
    rcases textEmitStep_cases s with ⟨hn, -⟩ | ⟨c, -, e⟩
    · exact nomatch hb.symm.trans hn
    · simp only [e]
      rcases afterPayload_cases
        (({ s with pendTxt := none, rem := s.rem - 1 } : State).log (.txt c)) with
        ⟨-, e⟩ | ⟨-, e⟩ <;> rw [e] <;> exact ⟨rfl, rfl⟩
  have hle := demand_le (sinkStep s)
  rw [hleft.1, hleft.2] at hle
  rw [demand_busy hbusy, hb]
  exact Nat.lt_succ_of_le hle

/-! ### Every fair round lowers the demand -/

/-- The engine waits for this input: an answer of the source or an acceptance of the sink (R143). -/
def State.awaits (e : State) : Input → Bool
  | .source _ => e.awaitsSource
  | .sink => e.textOffered.isSome
  | .access _ | .hostRun | .reset _ _ | .streamIs _ => false

/-- What is not awaited leaves the engine as it is. -/
theorem served_of_not_awaits {e : State} {i : Input} (h : e.awaits i = false) : e.served i = e := by
  cases i with
  | source k => exact sourceStep_quiet k h
  | sink => exact sinkStep_quiet (by simpa [State.awaits] using h)
  | access | hostRun | reset | streamIs => rfl

/-- What is awaited lowers the demand. -/
theorem served_demand_lt {e : State} (he : e.Sound) {i : Input} (h : e.awaits i = true) :
    (e.served i).demand < e.demand := by
  cases i with
  | source k => exact sourceStep_demand_lt he h k
  | sink =>
    obtain ⟨b, hb⟩ := Option.isSome_iff_exists.1 h
    exact sinkStep_demand_lt hb
  | access | hostRun | reset | streamIs => cases h

theorem servedAll_demand_le (xs : List Input) :
    ∀ {e : State}, e.Sound → (e.servedAll xs).demand ≤ e.demand := by
  induction xs with
  | nil => exact fun _ => le_rfl
  | cons i xs ih =>
    intro e he
    refine (ih (sound_keptByService.served he i)).trans ?_
    cases h : e.awaits i with
    | true => exact (served_demand_lt he h).le
    | false => rw [served_of_not_awaits h]

/-- Until the awaited input comes nothing happens; when it comes the demand is lower. -/
theorem servedAll_demand_lt {e : State} (he : e.Sound) :
    ∀ {xs : List Input}, (∃ i ∈ xs, e.awaits i = true) → (e.servedAll xs).demand < e.demand
  | i :: xs, hex => by
    cases h : e.awaits i with
    | true =>
      exact (servedAll_demand_le xs (sound_keptByService.served he i)).trans_lt
        (served_demand_lt he h)
    | false =>
      have hrest : ∃ j ∈ xs, e.awaits j = true := by
        obtain ⟨j, hj, haw⟩ := hex
        rcases List.mem_cons.1 hj with rfl | hj
        · exact nomatch h.symm.trans haw
        · exact ⟨j, hj, haw⟩
      show ((e.served i).servedAll xs).demand < e.demand
      rw [served_of_not_awaits h]
      exact servedAll_demand_lt he hrest

theorem awaits_of_isSource {e : State} {i : Input} (hi : i.isSource = true) :
    e.awaits i = e.awaitsSource := by
  cases i with
  | source k => rfl
  | access | hostRun | sink | reset | streamIs => cases hi

theorem awaits_of_isSink {e : State} {i : Input} (hi : i.isSink = true) :
    e.awaits i = e.textOffered.isSome := by
  cases i with
  | sink => rfl
  | access | hostRun | source | reset | streamIs => cases hi

/-- Whatever a busy engine waits for, a fair round brings it (R202). -/
theorem fairRound_awaited {e : State} (he : e.Sound) (hb : e.phase.busy = true) {r : List Input}
    (hr : fairRound r = true) : ∃ i ∈ r, e.awaits i = true := by
  obtain ⟨hr, hsink⟩ := (Bool.and_eq_true _ _).mp hr
  obtain ⟨-, hsource⟩ := (Bool.and_eq_true _ _).mp hr
  have hwho := he.inv.offers_iff_not_awaits hb
  cases hw : e.awaitsSource with
  | true =>
    obtain ⟨i, hi, his⟩ := List.any_eq_true.1 hsource
    exact ⟨i, hi, (awaits_of_isSource his).trans hw⟩
  | false =>
    obtain ⟨i, hi, his⟩ := List.any_eq_true.1 hsink
    exact ⟨i, hi, (awaits_of_isSink his).trans (hwho.trans (congrArg (!·) hw))⟩

/-- As many fair rounds as the demand end a command (R202). -/
theorem servedAll_not_busy :
    ∀ (rounds : List (List Input)) {e : State}, e.Sound → rounds.all fairRound = true →
      e.demand ≤ rounds.length → (e.servedAll rounds.flatten).phase.busy = false
  | [], e, _, _, hle => by
    cases hb : e.phase.busy with
    | true =>
      rw [demand_busy hb] at hle
      exact absurd hle (Nat.not_succ_le_zero _)
    | false => exact hb
  | r :: rounds, e, he, hfair, hle => by
    obtain ⟨hr, hfair⟩ := (Bool.and_eq_true _ _).mp hfair
    have hlower : (e.servedAll r).demand ≤ rounds.length := by
      cases hb : e.phase.busy with
      | true =>
        exact Nat.le_of_lt_succ
          ((servedAll_demand_lt he (fairRound_awaited he hb hr)).trans_le hle)
      | false =>
        exact (servedAll_demand_le r he).trans ((demand_not_busy hb).trans_le (Nat.zero_le _))
    rw [List.flatten_cons, State.servedAll_append]
    exact servedAll_not_busy rounds (sound_keptByService.servedAll r he) hfair hlower

theorem all_quiet_of_fair {rounds : List (List Input)} (h : rounds.all fairRound = true) :
    rounds.flatten.all Input.quiet = true := by
  rw [List.all_flatten]
  exact List.all_eq_true.2 fun r hr => by
    obtain ⟨hquiet, -⟩ := (Bool.and_eq_true _ _).mp (List.all_eq_true.1 h r hr)
    exact ((Bool.and_eq_true _ _).mp hquiet).1

/-- Enough fair rounds end a command, and keep what service keeps (R143, R202). -/
theorem runSteps_fair {P : State → Prop} (hP : KeptByService P) {s : State}
    {rounds : List (List Input)} {rest : List Input} (hs : s.Sound)
    (hin : s.inputs = rounds.flatten ++ rest) (hfair : rounds.all fairRound = true)
    (hle : 2 * s.available + 2 ≤ rounds.length) (h : P s.engine) :
    ∃ t, runSteps rounds.flatten.length s = .next t ∧ P t.engine ∧ t.phase.busy = false ∧
      t.inputs = rest ∧ t.Sound := by
  obtain ⟨t, hrun, ht, hrest, hi⟩ :=
    runSteps_served rounds.flatten s hin (all_quiet_of_fair hfair) hs.inv
  have hdemand : s.engine.demand ≤ rounds.length := (demand_le_two_available s).trans hle
  have hended : t.engine.phase.busy = false :=
    ht ▸ servedAll_not_busy rounds hs.engine hfair hdemand
  have hsound : t.engine.Sound := ht ▸ sound_keptByService.servedAll _ hs.engine
  exact ⟨t, hrun, ht ▸ hP.servedAll _ h, hended, hrest, hi, hsound.short⟩

end Sys2Proof.Machine
end

section
/-! NEXT under fair service: it comes to its result (R135, R136), and on a stream that holds a whole
record to that record's completion (R120, R133). -/

namespace Sys2Proof.Machine

theorem available_le_size (s : State) : s.available ≤ s.stream.size := Nat.sub_le ..

/-- The accepted command keeps the invariant (R121). -/
theorem accepted_sound {s : State} (hs : s.Sound) (hp : s.phase = .ready) (xs : List Input) :
    ({ s with recStart := s.cursor, curLen := 0, curType := 0, textReq := s.textEn, acc := 0,
              idx := 0, phase := .len, inputs := xs } : State).Sound :=
  ⟨((Move.next hp).keeps_inv hs.inv).with_outside hs.inv.cfgReserved hs.inv.hostWf xs, hs.short⟩

/-- Enough fair rounds after its acceptance bring NEXT to its result (R136, R202). -/
theorem runSteps_accepted {s : State} {rounds : List (List Input)} (rest : List Input)
    (hs : s.Sound) (hp : s.phase = .ready) (hfair : rounds.all fairRound = true)
    (hle : 2 * s.available + 2 ≤ rounds.length) :
    ∃ t, runSteps rounds.flatten.length
        { s with recStart := s.cursor, curLen := 0, curType := 0, textReq := s.textEn, acc := 0,
                 idx := 0, phase := .len, inputs := rounds.flatten ++ rest } = .next t ∧
      t.settled.engine = (nextResult s).settled.engine ∧ t.inputs = rest ∧ t.Sound := by
  have hpend := hs.inv.pendTxt_eq_none (by simp [hp])
  obtain ⟨t, hrun, hduring, hb, hrest, ht⟩ := runSteps_fair (during_keptByService hs hpend)
    (accepted_sound hs hp _) rfl hfair hle (during_accepted hs hpend (rounds.flatten ++ rest))
  exact ⟨t, hrun, hduring.result hb, hrest, ht⟩

/-- The result on a stream that holds a whole record, written out (R133, R136). -/
theorem nextResult_record_eq {s : State}
    (hfits : s.cursor.toNat + 12 + s.nextLen.toNat ≤ s.stream.size) :
    (nextResult s).settled = ({ s with
      phase := if s.nextType = iendType then .done else .ready
      idx := 0
      term := if s.nextType = iendType then .iend else s.term
      cursor := s.cursor + 12 + s.nextLen.setWidth 64
      curLen := s.nextLen, curType := s.nextType
      recLen := s.nextLen, recType := s.nextType
      recCrc := s.stream.be32At (s.cursor.toNat + 8 + s.nextLen.toNat)
      recFlags := recFlagsWord s.params.textMarker s.nextType s.textEn
      count := s.count + 1
      recStart := s.cursor, recStartLast := s.cursor
      textReq := s.textEn
      trace := s.trace ++ s.nextText.map Event.txt ++
        [.record s.nextLen (typeBytes s.nextType)
          (s.stream.be32At (s.cursor.toNat + 8 + s.nextLen.toNat))
          (recFlagsWord s.params.textMarker s.nextType s.textEn)] ++
        (if s.nextType = iendType then [.ended .iend] else []) } : State).settled := by
  have hcursor : BitVec.ofNat 64 (s.cursor.toNat + 12 + s.nextLen.toNat) =
      s.cursor + 12 + s.nextLen.setWidth 64 := by
    simp only [BitVec.ofNat_add, BitVec.ofNat_toNat, BitVec.setWidth_eq]
    rfl
  rw [nextResult_record hfits, completeRecord_eq, State.started, hcursor]
  rfl

/-- A state is its engine's part, `CFG`, the host and what happens next. -/
theorem eq_of_engine_eq {s t : State} (hengine : s.engine = t.engine)
    (houtside : (s.cfg, s.host, s.inputs) = (t.cfg, t.host, t.inputs)) : s = t := by
  simp only [Prod.mk.injEq] at houtside
  obtain ⟨hcfg, hhost, hinputs⟩ := houtside
  calc s = { s.engine with cfg := s.cfg, host := s.host, inputs := s.inputs } := rfl
    _ = { t.engine with cfg := t.cfg, host := t.host, inputs := t.inputs } := by
      rw [hengine, hcfg, hhost, hinputs]
    _ = t := rfl

/-- `n` rounds of one answer of the source and one acceptance of the sink each. -/
def plainRounds (n : Nat) : List (List Input) := List.replicate n [.source 1, .sink]

theorem plainRounds_fair (n : Nat) : (plainRounds n).all fairRound = true :=
  List.all_eq_true.2 fun r hr => by
    rw [List.eq_of_mem_replicate hr]
    decide

theorem plainRounds_serves (n : Nat) : (plainRounds n).flatten.all Input.serves = true := by
  rw [List.all_flatten]
  exact List.all_eq_true.2 fun r hr => by
    rw [List.eq_of_mem_replicate hr]
    decide

/-- What goes to the text port, by the register's field (R121, R135). -/
theorem nextText_eq (s : State) :
    s.nextText =
      if s.nextType = s.params.textMarker.pack ∧ s.cfg.extractLsb 0 0 = 1 then
        s.stream.slice (s.cursor.toNat + 8) s.nextLen.toNat
      else [] := by
  refine if_congr ?_ rfl rfl
  rw [nextTextual_iff, extractLsb_zero_eq_one_iff]
  exact Iff.rfl

/-- Settles O12: plain rounds are fair, so they bring NEXT to its result, which is the record's
completion. -/
theorem nextCompletesRecord : Obligations.NextCompletesRecord := by
  intro s hs hp c len type hwhole
  have hfits : s.cursor.toNat + 12 + s.nextLen.toNat ≤ s.stream.size := by
    have : 12 + s.nextLen.toNat ≤ s.stream.size - s.cursor.toNat := hwhole
    omega
  obtain ⟨hidx, -⟩ := (placeOk_ready hp).1 hs.inv.place
  refine ⟨_, exec_next_ready hp, (plainRounds (2 * s.available + 2)).flatten,
    plainRounds_serves _, ?_⟩
  obtain ⟨u, hrun, hresult, hinputs, -⟩ := runSteps_accepted [] hs hp
    (plainRounds_fair (2 * s.available + 2)) (List.length_replicate ..).ge
  rw [List.append_nil] at hrun
  obtain ⟨hcfg, hhost⟩ := runSteps_serves (plainRounds _).flatten _ rfl (plainRounds_serves _) hrun
  refine ⟨u, hrun, eq_of_engine_eq (hresult.trans ?_) ?_⟩
  · rw [nextResult_record_eq hfits, nextText_eq, ← hidx]
    rfl
  · simp only [Prod.mk.injEq]
    exact ⟨hcfg, hhost, hinputs⟩

end Sys2Proof.Machine
end

section
/-! A stream built from records decodes to the same records (R140, R141): the state between two
commands, what SIGCHK and each NEXT make of it under fair service, and an induction on the
commands. -/

namespace Sys2Proof.Machine

/-! ### Runs -/

/-- Running on after a run that came to a next state. -/
theorem runSteps_add_next {j k : Nat} {s t : State} (h : runSteps j s = .next t) :
    runSteps (j + k) s = runSteps k t := by
  rw [runSteps_add, h]

/-! ### Streams of records -/

theorem wireStream_append (rs ts : List WireRecord) :
    wireStream (rs ++ ts) = wireStream rs ++ ts.flatMap WireRecord.encode := by
  rw [wireStream, wireStream, List.flatMap_append, List.append_assoc]

/-- The stream begins with the signature (R71). -/
theorem wireStream_take_eight (rs : List WireRecord) :
    (wireStream rs).take 8 = signature ∧ 8 ≤ (wireStream rs).length := by
  refine ⟨List.take_left (l₁ := signature), ?_⟩
  rw [wireStream, List.length_append]
  exact Nat.le_add_right 8 _

/-- How many times NEXT is needed: once for each record, and once for the end of the stream when the
last record does not end it (R134, R140). -/
def nextCount (rs : List WireRecord) : Nat :=
  if (rs.getLast?.map WireRecord.terminal).getD false then rs.length else rs.length + 1

/-- A terminal record is the last one, so it needs the last NEXT. -/
theorem nextCount_cons_terminal {r : WireRecord} {rs : List WireRecord}
    (hlast : ∀ x ∈ (r :: rs).dropLast, x.terminal = false) (hr : r.terminal = true) :
    nextCount (r :: rs) = 1 := by
  cases rs with
  | nil => exact if_pos hr
  | cons x xs => exact nomatch hr.symm.trans (hlast r (List.mem_cons_self ..))

/-- After any other record the rest of the stream is still to be decoded. -/
theorem nextCount_cons {r : WireRecord} (rs : List WireRecord) (hr : r.terminal = false) :
    nextCount (r :: rs) = nextCount rs + 1 := by
  cases rs with
  | nil => exact if_neg (by simp [hr])
  | cons x xs =>
    rw [nextCount, nextCount, List.getLast?_cons_cons]
    split <;> rfl

theorem nextCount_pos : ∀ rs : List WireRecord, 0 < nextCount rs
  | [] => Nat.one_pos
  | r :: rs => by
    rw [nextCount]
    split <;> exact Nat.succ_pos _

/-! ### Between two commands -/

/-- The type, length and checksum of each `REC` event on a trace. -/
def recordFields (trace : List Event) : List (TypeBytes × Word × Word) :=
  (recordsOf trace).map fun e => (e.2.1, e.1, e.2.2.1)

/-- The type, length and checksum of a record of the stream. -/
def WireRecord.fields (r : WireRecord) : TypeBytes × Word × Word := (r.type, r.length, r.crc)

/-- `before` has been decoded and no fault raised. -/
structure State.HasDecoded (s : State) (before : List WireRecord) : Prop where
  records : recordFields s.trace = before.map WireRecord.fields
  noFault : ∀ e ∈ s.trace, e.isFault = false

/-- READY on a stream of records, of which those before the cursor are decoded and `todo` follow. -/
structure State.Between (s : State) (before todo : List WireRecord) : Prop
    extends s.HasDecoded before where
  sound : s.Sound
  ready : s.phase = .ready
  stream : s.stream = Memory.ofBytes (wireStream (before ++ todo))
  cursor : s.cursor.toNat = (wireStream before).length

theorem recordFields_append (l m : List Event) :
    recordFields (l ++ m) = recordFields l ++ recordFields m := by
  rw [recordFields, recordsOf_append, List.map_append]
  rfl

/-- The decoded records are read off the trace alone. -/
theorem State.HasDecoded.congr {s t : State} {before : List WireRecord} (h : s.HasDecoded before)
    (ht : t.trace = s.trace) : t.HasDecoded before :=
  ⟨ht ▸ h.records, ht ▸ h.noFault⟩

/-- An event that is neither a record nor a fault changes nothing of what is decoded. -/
theorem State.HasDecoded.logged {s t : State} {before : List WireRecord} (h : s.HasDecoded before)
    {new : List Event} (ht : t.trace = s.trace ++ new) (hrecords : recordFields new = [])
    (hfaults : ∀ e ∈ new, e.isFault = false) : t.HasDecoded before where
  records := by rw [ht, recordFields_append, hrecords, List.append_nil, h.records]
  noFault e he := by
    rw [ht] at he
    exact (List.mem_append.1 he).elim (h.noFault e) (hfaults e)

/-- A `REC` event adds its record. -/
theorem State.HasDecoded.logged_record {s t : State} {before : List WireRecord}
    (h : s.HasDecoded before) {r : WireRecord} {flags : Word}
    (ht : t.trace = s.trace ++ [.record r.length (typeBytes r.type.pack) r.crc flags]) :
    t.HasDecoded (before ++ [r]) where
  records := by
    rw [ht, recordFields_append, h.records, List.map_append, typeBytes_pack]
    rfl
  noFault e he := by
    rw [ht] at he
    rcases List.mem_append.1 he with he | he
    · exact h.noFault e he
    · rw [List.mem_singleton.1 he]
      rfl

/-- Text bytes are neither records nor faults. -/
theorem text_events (text : List Byte) :
    recordFields (text.map Event.txt) = [] ∧ ∀ e ∈ text.map Event.txt, e.isFault = false := by
  constructor
  · induction text with
    | nil => rfl
    | cons b text ih => exact ih
  · intro e he
    obtain ⟨b, -, rfl⟩ := List.mem_map.1 he
    rfl

/-- Nor is the event of a termination one (R134). -/
theorem ended_event (r : Term) :
    recordFields [.ended r] = [] ∧ ∀ e ∈ [Event.ended r], e.isFault = false :=
  ⟨rfl, fun e he => by rw [List.mem_singleton.1 he]; rfl⟩

/-! ### What one NEXT comes to -/

/-- What is compared of two engines outside a busy phase is each of these. -/
theorem fields_of_settled_engine {s t : State} (h : s.settled.engine = t.settled.engine) :
    s.phase = t.phase ∧ s.stream = t.stream ∧ s.cursor = t.cursor ∧ s.trace = t.trace :=
  ⟨(congrArg State.phase h :), (congrArg State.stream h :), (congrArg State.cursor h :),
    (congrArg State.trace h :)⟩

section
variable {s : State} {before todo : List WireRecord} {r : WireRecord}

/-- At a record of the stream `decodeNext` gives that record (R87, R135). -/
theorem State.Between.nextResult_eq (h : s.Between before (r :: todo)) (hwf : r.wf = true) :
    ∃ flags text, nextResult s =
      (NextResult.record (wireStream (before ++ [r])).length r.length r.type.pack r.crc flags text
        r.terminal).apply s := by
  have hcut : wireStream (before ++ r :: todo) =
      wireStream before ++ r.encode ++ todo.flatMap WireRecord.encode := by
    rw [wireStream_append, List.flatMap_cons, List.append_assoc]
  have hend : (wireStream (before ++ [r])).length =
      (wireStream before).length + 12 + r.payload.length := by
    rw [wireStream_append, List.flatMap_singleton, List.length_append, r.length_encode,
      Nat.add_assoc]
  have hdecode := wireRecordRoundTrip s.params r (wireStream before)
    (todo.flatMap WireRecord.encode) s.textEn hwf
  rw [← hcut, ← hend, ← h.cursor, ← h.stream] at hdecode
  exact ⟨_, _, congrArg (NextResult.apply s) hdecode⟩

/-- The record is decoded, and the engine is READY behind it, or DONE (R133, R134). -/
theorem State.Between.next_record (h : s.Between before (r :: todo)) (hwf : r.wf = true) :
    (nextResult s).HasDecoded (before ++ [r]) ∧
    (nextResult s).phase = (if r.terminal then .done else .ready) ∧
    (nextResult s).stream = s.stream ∧
    (nextResult s).cursor = BitVec.ofNat 64 (wireStream (before ++ [r])).length := by
  obtain ⟨flags, text, e⟩ := h.nextResult_eq hwf
  obtain ⟨htext, hnofault⟩ := text_events text
  rw [e]
  generalize (wireStream (before ++ [r])).length = cursor
  have hstarted : (s.started r.length r.type.pack text cursor).HasDecoded before :=
    h.toHasDecoded.logged rfl htext hnofault
  cases hr : r.terminal with
  | false => exact ⟨hstarted.logged_record rfl, rfl, rfl, rfl⟩
  | true =>
    obtain ⟨hended, hnofault⟩ := ended_event .iend
    have hrecord : ((s.started r.length r.type.pack text cursor).log
        (.record r.length (typeBytes r.type.pack) r.crc flags)).HasDecoded (before ++ [r]) :=
      hstarted.logged_record rfl
    exact ⟨hrecord.logged rfl hended hnofault, rfl, rfl, rfl⟩

/-- A record that is not the terminal one leaves the engine before the next record (R133). -/
theorem State.Between.after_record (h : s.Between before (r :: todo)) (hwf : r.wf = true)
    (hr : r.terminal = false) {t : State} (ht : t.Sound)
    (hresult : t.settled.engine = (nextResult s).settled.engine) :
    t.Between (before ++ [r]) todo := by
  obtain ⟨hphase, hstream, hcursor, htrace⟩ := fields_of_settled_engine hresult
  obtain ⟨hdecoded, hready, hsame, hbehind⟩ := h.next_record hwf
  have hwhole : s.stream = Memory.ofBytes (wireStream (before ++ [r] ++ todo)) := by
    rw [h.stream, List.append_assoc, List.singleton_append]
  have hshort : (wireStream (before ++ [r])).length < 2 ^ 64 := by
    have hlt := h.sound.short
    rw [hwhole, Memory.size_ofBytes, wireStream_append, List.length_append] at hlt
    exact (Nat.le_add_right ..).trans_lt hlt
  constructor
  case toHasDecoded => exact hdecoded.congr htrace
  case sound => exact ht
  case ready => rw [hphase, hready, hr]; rfl
  case stream => rw [hstream, hsame, hwhole]
  case cursor => rw [hcursor, hbehind, BitVec.toNat_ofNat, Nat.mod_eq_of_lt hshort]

/-- Behind the last record is the clean end, strict or not (R123, R141). -/
theorem State.Between.next_end (h : s.Between before []) :
    (nextResult s).HasDecoded before ∧ (nextResult s).phase = .done := by
  have hend : s.cursor.toNat + 0 = s.stream.size := by
    rw [h.stream, Memory.size_ofBytes, List.append_nil, h.cursor, Nat.add_zero]
  obtain ⟨hended, hnofault⟩ := ended_event .cleanEof
  have hstrict : ¬ (s.params.strictLenEof && decide (0 < 0)) = true := by simp
  rw [nextResult_len_end (by decide) hend, if_neg hstrict]
  have hstarted : (s.started 0 0 [] s.stream.size).HasDecoded before :=
    h.toHasDecoded.congr (List.append_nil _)
  exact ⟨hstarted.logged rfl hended hnofault, rfl⟩

end

/-! ### Commands under fair service -/

section
variable {s : State} {rounds : List (List Input)} {rest : List Input} (hs : s.Sound)
  (hfair : rounds.all fairRound = true) (hle : 2 * s.stream.size + 2 ≤ rounds.length)
include hs hfair hle

/-- SIGCHK with enough fair service, on a stream that begins with the signature (R100, R105). -/
theorem runSteps_sigchk (hp : s.phase = .idle)
    (hin : s.inputs = commandInput 0x00000001 :: (rounds.flatten ++ rest))
    (hsize : 8 ≤ s.stream.size) (hsig : s.stream.bytes.take 8 = signature) :
    ∃ t, runSteps (rounds.flatten.length + 1) s = .next t ∧
      t.engine = ({ s with phase := .ready, idx := 0, sigBad := false, sigOk := true, cursor := 8,
                           trace := s.trace ++ [.sigOk] } : State).engine ∧
      t.inputs = rest ∧ t.Sound := by
  obtain ⟨-, hcursor, -⟩ := (placeOk_idle hp).1 hs.inv.place
  have hstep : step s = .next (State.sigRead { s with inputs := rounds.flatten ++ rest } 0) :=
    (step_of_commandInput hin).trans ((submit_of_decode_ok (i := .sigchk) rfl _).trans
      (exec_sigchk_sigRead (s := { s with inputs := rounds.flatten ++ rest }) hp hcursor))
  have hsound : (State.sigRead { s with inputs := rounds.flatten ++ rest } 0).Sound :=
    ⟨stepKeepsInv s _ hs.inv hstep, hs.short⟩
  have hfirst : DuringSigchk s
      (State.sigRead { s with inputs := rounds.flatten ++ rest } 0).engine :=
    .reading 0 (by decide) (Nat.zero_le _)
  obtain ⟨t, hrun, hduring, hb, hrest, ht⟩ :=
    runSteps_fair (duringSigchk_keptByService hs.inv.streamWf) hsound rfl hfair
      (le_trans (Nat.add_le_add_right (Nat.mul_le_mul_left 2 (available_le_size _)) 2) hle) hfirst
  refine ⟨t, (runSteps_next _ hstep).trans hrun, ?_, hrest, ht⟩
  rcases hduring.result hb with ⟨hlt, -⟩ | ⟨-, e⟩
  · exact absurd hsize hlt.not_ge
  · rw [e, completeSigchk_validates hsig]

/-- NEXT with enough fair service comes to its result (R136). -/
theorem runSteps_nextCommand (hp : s.phase = .ready)
    (hin : s.inputs = commandInput 0x00000002 :: (rounds.flatten ++ rest)) :
    ∃ t, runSteps (rounds.flatten.length + 1) s = .next t ∧
      t.settled.engine = (nextResult s).settled.engine ∧ t.inputs = rest ∧ t.Sound := by
  have hstep := (step_of_commandInput hin).trans
    (submit_next (s := { s with inputs := rounds.flatten ++ rest }) hp)
  obtain ⟨t, hrun, hresult, hrest, ht⟩ := runSteps_accepted rest hs hp hfair
    (le_trans (Nat.add_le_add_right (Nat.mul_le_mul_left 2 (available_le_size s)) 2) hle)
  exact ⟨t, (runSteps_next _ hstep).trans hrun, hresult, hrest, ht⟩

end

/-- A NEXT and its fair service. -/
def nextBatch (rounds : List (List Input)) : List Input :=
  commandInput 0x00000002 :: rounds.flatten

/-- NEXT by NEXT the records that follow are decoded; the engine is READY until the last NEXT that
is needed, and DONE after it (R140, R141). -/
theorem State.Between.decodes :
    ∀ (batches : List (List (List Input))) {s : State} {before todo : List WireRecord},
      s.Between before todo → (∀ r ∈ todo, r.wf = true) →
      (∀ r ∈ todo.dropLast, r.terminal = false) →
      (∀ b ∈ batches, b.all fairRound = true ∧ 2 * s.stream.size + 2 ≤ b.length) →
      batches.length ≤ nextCount todo → s.inputs = batches.flatMap nextBatch →
      ∃ t, runSteps (batches.flatMap nextBatch).length s = .next t ∧
        t.HasDecoded (before ++ todo.take batches.length) ∧
        t.phase = (if batches.length = nextCount todo then .done else .ready)
  | [], s, before, todo, h, _, _, _, _, _ => by
    refine ⟨s, rfl, ?_, ?_⟩
    · rw [List.length_nil, List.take_zero, List.append_nil]
      exact h.toHasDecoded
    · rw [List.length_nil, if_neg (nextCount_pos todo).ne, h.ready]
  | b :: batches, s, before, todo, h, hwf, hlast, hfair, hcount, hin => by
    obtain ⟨⟨hb, hlen⟩, hfair⟩ := List.forall_mem_cons.1 hfair
    obtain ⟨t, hrun, hresult, hrest, ht⟩ := runSteps_nextCommand h.sound hb hlen h.ready hin
    obtain ⟨hphase, hstream, -, htrace⟩ := fields_of_settled_engine hresult
    have hrun : runSteps ((b :: batches).flatMap nextBatch).length s =
        runSteps (batches.flatMap nextBatch).length t := by
      rw [List.flatMap_cons, List.length_append]
      exact runSteps_add_next hrun
    rw [hrun]
    cases todo with
    | nil =>
      obtain rfl : batches = [] :=
        List.eq_nil_of_length_eq_zero (Nat.le_zero.1 (Nat.le_of_succ_le_succ hcount))
      obtain ⟨hdecoded, hdone⟩ := h.next_end
      refine ⟨t, rfl, ?_, hphase.trans hdone⟩
      rw [List.take_nil, List.append_nil]
      exact hdecoded.congr htrace
    | cons r todo =>
      obtain ⟨hwfr, hwf⟩ := List.forall_mem_cons.1 hwf
      obtain ⟨hdecoded, hend, hsame, -⟩ := h.next_record hwfr
      cases hr : r.terminal with
      | true =>
        rw [nextCount_cons_terminal hlast hr] at hcount ⊢
        obtain rfl : batches = [] :=
          List.eq_nil_of_length_eq_zero (Nat.le_zero.1 (Nat.le_of_succ_le_succ hcount))
        rw [hr] at hend
        exact ⟨t, rfl, hdecoded.congr htrace, hphase.trans hend⟩
      | false =>
        have hlast : ∀ x ∈ todo.dropLast, x.terminal = false := fun x hx => by
          cases todo with
          | nil => cases hx
          | cons y ys => exact hlast x (List.mem_cons_of_mem r hx)
        rw [nextCount_cons todo hr] at hcount ⊢
        rw [← hsame, ← hstream] at hfair
        obtain ⟨u, hrun, hdecoded, hphase⟩ := (h.after_record hwfr hr ht hresult).decodes batches
          hwf hlast hfair (Nat.le_of_succ_le_succ hcount) hrest
        refine ⟨u, hrun, ?_, ?_⟩
        · rwa [List.append_assoc] at hdecoded
        · rw [hphase, List.length_cons]
          exact if_congr Nat.add_right_cancel_iff.symm rfl rfl

/-! ### From reset -/

/-- After reset with a stream attached, parameters and a written `CFG`, the state is sound (R44). -/
theorem launched_sound (p : Config.Params) (cfg : Word) (bytes : List Byte) (xs : List Input)
    (h : bytes.length < 2 ^ 64) :
    ({ State.reset with params := p, stream := Memory.ofBytes bytes, cfg := cfgWritten cfg,
                        inputs := xs } : State).Sound :=
  ⟨(State.afterReset_inv { State.reset with params := p } bytes rfl).with_outside
    (cfgWritten_reserved cfg) rfl xs, (Memory.size_ofBytes bytes).trans_lt h⟩

/-- Settles O15: SIGCHK comes to READY before the first record, and from there the records are
decoded NEXT by NEXT. -/
theorem recordListRoundTrip : Obligations.RecordListRoundTrip := by
  intro rs p cfg first others hwf hlast hshort hfair n hcount xs
  obtain ⟨⟨hfirst, hlen⟩, hothers⟩ := List.forall_mem_cons.1 hfair
  obtain ⟨hsig, hsize⟩ := wireStream_take_eight rs
  rw [← Memory.size_ofBytes] at hlen hsize
  obtain ⟨t, hrun, hready, hrest, ht⟩ := runSteps_sigchk
    (launched_sound p cfg (wireStream rs) xs hshort) hfirst hlen rfl rfl hsize
    ((congrArg _ (Memory.bytes_ofBytes _)).trans hsig)
  have hstream : t.stream = Memory.ofBytes (wireStream rs) := congrArg State.stream hready
  have htrace : t.trace = [.sigOk] := congrArg State.trace hready
  have hcursor : t.cursor = 8 := congrArg State.cursor hready
  have hbetween : t.Between [] rs :=
    { records := by rw [htrace]; rfl
      noFault := fun e he => by
        rw [htrace] at he
        rw [List.mem_singleton.1 he]
        rfl
      sound := ht
      ready := congrArg State.phase hready
      stream := hstream
      cursor := by rw [hcursor]; rfl }
  obtain ⟨u, hruns, hdecoded, hphase⟩ := hbetween.decodes others hwf hlast
    (fun b hb => by rw [hstream, Memory.size_ofBytes]; exact hothers b hb) hcount hrest
  have hrunAll : runSteps xs.length _ = .next u :=
    (congrArg (runSteps · _) List.length_append).trans ((runSteps_add_next hrun).trans hruns)
  exact ⟨u, hrunAll, hdecoded.records, hphase, hdecoded.noFault⟩

end Sys2Proof.Machine
end

section
/-! Faults (R160 to R171): what the end of the stream raises in each phase, the four ways a fault is
raised, and what each leaves unchanged. -/

namespace Sys2Proof.Machine

/-! ### The end of the stream -/

/-- The fault an end of stream in this phase raises (R102, R163); in LEN in strict mode only. -/
def Phase.endCode : Phase → ErrCode
  | .sig => .sigShort
  | .len => .truncLen
  | .type => .truncType
  | .skip | .text => .truncPayload
  | .crc => .truncCrc
  | .idle | .ready | .done | .error => .none

/-- Outside LEN an awaited answer `EOF` raises the phase's fault (R163). -/
theorem sourceStep_end {s : State} (hwf : s.stream.wf = true) (hend : s.memRead = none)
    (hw : s.awaitsSource = true) (hlen : s.phase ≠ .len) (k : Nat) :
    sourceStep k s = s.raise s.phase.endCode := by
  unfold sourceStep
  unfold State.awaitsSource at hw
  cases hp : s.phase with
  | sig => simp only [sigStep, hend, Phase.endCode]
  | type => simp only [typeStep, hend, Phase.endCode]
  | crc => simp only [crcStep, hend, Phase.endCode]
  | len => exact absurd hp hlen
  | skip =>
    have hrem : s.rem ≠ 0 := by simpa [hp] using hw
    have hsize : s.stream.size ≤ s.cursor.toNat := (Memory.read_eq_none_iff hwf _).1 hend
    simp only [skipStep, if_neg hrem, if_pos hsize, Phase.endCode]
  | text =>
    obtain ⟨hrem, hpend⟩ : s.rem ≠ 0 ∧ s.pendTxt = none := by simpa [hp] using hw
    have hready : ¬ (s.rem = 0 ∨ s.pendTxt.isSome = true) := not_or.2 ⟨hrem, by simp [hpend]⟩
    simp only [textReadStep, if_neg hready, hend, Phase.endCode]
  | idle | ready | done | error => simp [hp] at hw

theorem sourceStep_len {s : State} (hp : s.phase = .len) (k : Nat) :
    sourceStep k s = lenStep s := by
  rw [sourceStep, hp]

section
variable {s : State} (hp : s.phase = .len) (hend : s.memRead = none) (k : Nat)
include hp hend

/-- In strict mode an end of stream inside the length field is a fault (R123). -/
theorem sourceStep_len_fault (hstrict : s.params.strictLenEof = true) (hidx : s.idx ≠ 0) :
    sourceStep k s = ({ s with eofResid := s.idx.setWidth 2 } : State).raise .truncLen := by
  rw [sourceStep_len hp]
  rcases lenStep_cases s with ⟨-, -, -, e⟩ | ⟨-, hclean, -⟩ | ⟨r, hr, -⟩
  · exact e
  · exact absurd (hclean hstrict) hidx
  · cases hend.symm.trans hr

/-- Otherwise an end of stream in the length field is the clean end (R123). -/
theorem sourceStep_len_clean (hclean : s.params.strictLenEof = false ∨ s.idx = 0) :
    sourceStep k s = ({ s with eofResid := s.idx.setWidth 2 } : State).finish .cleanEof := by
  rw [sourceStep_len hp]
  rcases lenStep_cases s with ⟨-, hstrict, hidx, -⟩ | ⟨-, -, e⟩ | ⟨r, hr, -⟩
  · rcases hclean with hlax | hzero
    · cases hlax.symm.trans hstrict
    · exact absurd hzero hidx
  · exact e
  · cases hend.symm.trans hr

end

/-- With no text byte pending a busy engine awaits the source (R143). -/
theorem State.Inv.awaitsSource_of_not_pending {s : State} (hi : s.Inv) (hb : s.phase.busy = true)
    (hpend : s.pendTxt = none) : s.awaitsSource = true := by
  have hoffer : s.textOffered = none := by
    unfold State.textOffered
    cases s.phase <;> simp [hpend]
  simpa [hoffer] using hi.offers_iff_not_awaits hb

/-- Settles O19: LEN has the two outcomes of R123, every other busy phase its one fault. -/
theorem endOfStreamByPhase : Obligations.EndOfStreamByPhase := by
  intro s t hi h hs hend
  obtain ⟨k, rfl⟩ := step_source h hs
  have faults {p : Phase} (hp : s.phase = p) (hb : p.busy = true) (hlen : p ≠ .len)
      (hpend : s.pendTxt = none) : (sourceStep k s.popped).phase = .error ∧
        (sourceStep k s.popped).errcode = p.endCode := by
    subst hp
    rw [sourceStep_end (s := s.popped) hi.streamWf hend
      (hi.awaitsSource_of_not_pending hb hpend) hlen]
    exact ⟨rfl, rfl⟩
  have hnone {p : Phase} (hp : s.phase = p) (htext : p ≠ .text) : s.pendTxt = none :=
    hi.pendTxt_eq_none (hp ▸ htext)
  have hresid (hp : s.phase = .len) : (s.idx.setWidth 2).toNat = s.idx.toNat := by
    obtain ⟨hidx, -⟩ := (placeOk_len hp).1 hi.place
    rw [BitVec.toNat_setWidth]
    omega
  refine ⟨fun hp hclean => ?clean, fun hp hstrict hidx => ?strict,
    fun hp => faults hp rfl nofun (hnone hp nofun), fun hp => faults hp rfl nofun (hnone hp nofun),
    fun hp => faults hp rfl nofun (hnone hp nofun), fun hp hpend => faults hp rfl nofun hpend,
    fun hp => faults hp rfl nofun (hnone hp nofun)⟩
  case clean =>
    obtain ⟨-, -, hcode, -⟩ := hi.clear (by simp [hp]) (by simp [hp])
    rw [sourceStep_len_clean (s := s.popped) hp hend k hclean]
    exact ⟨rfl, rfl, hcode, hresid hp⟩
  case strict =>
    rw [sourceStep_len_fault (s := s.popped) hp hend k hstrict hidx]
    exact ⟨rfl, rfl, hresid hp⟩

/-! ### Raising a fault -/

/-- The four ways a fault is raised (R166): the whole state each leaves. -/
inductive Raises (s : State) : State → Prop
  /-- A command word is turned away (R165). -/
  | command (code : ErrCode) (hc : code = .cmdBusy ∨ code = .cmdIllegal ∨ code = .cmdSeq) :
      Raises s (s.raise code)
  /-- The stream ends in a busy phase other than LEN (R102, R163). -/
  | streamEnd (hb : s.phase.busy = true) (hlen : s.phase ≠ .len) (hend : s.memRead = none) :
      Raises s (s.raise s.phase.endCode)
  /-- The stream ends inside the length field in strict mode (R123). -/
  | lengthEnd (hend : s.memRead = none) :
      Raises s (({ s with eofResid := s.idx.setWidth 2 } : State).raise .truncLen)
  /-- The 8th signature byte is read and one of the 8 has differed (R103). -/
  | mismatch (hp : s.phase = .sig) (hidx : s.idx = 7) :
      Raises s (({ s.advance 1 with sigBad := true } : State).raise .sigMismatch)

theorem submit_raises {w : Word} {s t : State} (h : submit w s = .next t) (hp : s.phase ≠ .error)
    (ht : t.phase = .error) : Raises s t := by
  rcases submit_cases h with ⟨he, -⟩ | ⟨-, rfl⟩ | ⟨-, -, rfl⟩ | ⟨-, -, rfl⟩ | ⟨-, rfl | rfl⟩
  · exact absurd he hp
  · exact .command _ (.inl rfl)
  · cases ht
  · cases ht
  · exact .command _ (.inr (.inl rfl))
  · exact .command _ (.inr (.inr rfl))

/-- The sink never brings the engine into ERROR (R128), and the source only at an end of stream or with
a signature that differs (R103, R163). -/
theorem Move.raise_cases {s t : State} {a : Agent} (hm : Move s a t) (hi : s.Inv)
    (hp : s.phase ≠ .error) (ht : t.phase = .error) :
    a = .host ∨ a = .source ∧ (s.memRead = none ∨ Raises s t) := by
  cases hm with
  | noCommand | commandFault | sigchk | next => exact .inl rfl
  | endFault _ _ hr | lenFault _ hr => exact .inr ⟨rfl, .inl hr⟩
  | skipFault _ hsize => exact .inr ⟨rfl, .inl ((Memory.read_eq_none_iff hi.streamWf _).2 hsize)⟩
  | sigMismatch _ hsig _ hidx => exact .inr ⟨rfl, .inr (.mismatch hsig hidx)⟩
  | unawaited | unoffered | sigByte | fieldByte | skip | textRead | emit => exact absurd ht hp
  | cleanEnd | sigOk | lenLast | typeEmpty | typeText | typeSkip | skipLast | record | lastRecord
  | emitLast => cases ht

/-- A fault raised in the source's turn: with no byte the end of the stream, in LEN or elsewhere, and
with a byte the signature. -/
theorem sourceStep_raises {s : State} (hi : s.Inv) (k : Nat) (hp : s.phase ≠ .error)
    (ht : (sourceStep k s).phase = .error) : Raises s (sourceStep k s) := by
  rcases (sourceStep_move k s).raise_cases hi hp ht with h | ⟨-, hend | h⟩
  · cases h
  · cases hw : s.awaitsSource with
    | false =>
      rw [sourceStep_quiet k hw] at ht
      exact absurd ht hp
    | true =>
      by_cases hlen : s.phase = .len
      · by_cases hclean : s.params.strictLenEof = false ∨ s.idx = 0
        · rw [sourceStep_len_clean hlen hend k hclean] at ht
          cases ht
        · obtain ⟨hstrict, hidx⟩ := not_or.1 hclean
          rw [sourceStep_len_fault hlen hend k (by simpa using hstrict) hidx]
          exact .lengthEnd hend
      · rw [sourceStep_end hi.streamWf hend hw hlen]
        exact .streamEnd (busy_of_awaitsSource hw) hlen hend
  · exact h

/-- A step that enters ERROR raises a fault; besides it only the host's side can change. -/
theorem step_raises {s t : State} (hi : s.Inv) (h : step s = .next t) (hp : s.phase ≠ .error)
    (ht : t.phase = .error) :
    ∃ (u : State) (k : HostState), Raises s.popped u ∧ t = { u with host := k } := by
  rcases step_cases h with rfl | ⟨k, -, rfl⟩ | ⟨-, rfl⟩ | ⟨bytes, -, rfl⟩ |
    ⟨k, -, -, rfl | ⟨v, rfl⟩ | ⟨w, u, hu, rfl⟩⟩
  · exact absurd ht hp
  · exact ⟨_, _, sourceStep_raises hi.popped k hp ht, rfl⟩
  · rcases (sinkStep_move s.popped).raise_cases hi.popped hp ht with h | ⟨h, -⟩ <;> cases h
  · cases ht
  · exact absurd ht hp
  · exact absurd ht hp
  · exact ⟨u, k, submit_raises hu hp ht, rfl⟩

/-! ### What raising a fault changes -/

theorem Phase.endCode_cases {p : Phase} (hb : p.busy = true) (hlen : p ≠ .len) :
    p.endCode ≠ .none ∧ p.endCode ≠ .sigMismatch ∧ p.endCode ≠ .truncLen := by
  cases p with
  | len => exact absurd rfl hlen
  | sig | type | skip | text | crc => exact ⟨nofun, nofun, nofun⟩
  | idle | ready | done | error => cases hb

section
variable {s t : State} (h : Raises s t)
include h

/-- The fault state (R166). -/
theorem Raises.fault_state : t.errcode ≠ .none ∧ t.errPos = t.cursor ∧ t.idx = 0 ∧
    t.pendTxt = none ∧ t.trace = s.trace ++ [.fault t.errcode t.cursor] := by
  cases h with
  | command code hc => exact ⟨by rcases hc with rfl | rfl | rfl <;> nofun, rfl, rfl, rfl, rfl⟩
  | streamEnd hb hlen => exact ⟨(Phase.endCode_cases hb hlen).1, rfl, rfl, rfl, rfl⟩
  | lengthEnd | mismatch => exact ⟨nofun, rfl, rfl, rfl, rfl⟩

/-- Only the 8th signature byte is consumed, and a stream fault is raised at `N` (R166). -/
theorem Raises.cursor (hi : s.Inv) :
    (t.errcode ≠ .sigMismatch → t.cursor = s.cursor) ∧
    (t.errcode = .sigMismatch → s.cursor = 7 ∧ t.cursor = 8) ∧
    (t.errcode ≠ .sigMismatch → t.errcode ≠ .cmdIllegal → t.errcode ≠ .cmdSeq →
      t.errcode ≠ .cmdBusy → t.cursor.toNat = s.stream.size) := by
  cases h with
  | command code hc =>
    refine ⟨fun _ => rfl, ?_, fun _ hillegal hseq hbusy => ?_⟩
    · rcases hc with rfl | rfl | rfl <;> nofun
    · rcases hc with rfl | rfl | rfl
      · exact absurd rfl hbusy
      · exact absurd rfl hillegal
      · exact absurd rfl hseq
  | streamEnd hb hlen hend =>
    obtain ⟨-, hsig, -⟩ := Phase.endCode_cases hb hlen
    exact ⟨fun _ => rfl, fun hcode => absurd hcode hsig, fun _ _ _ _ => hi.cursor_eq_size hend⟩
  | lengthEnd hend => exact ⟨fun _ => rfl, nofun, fun _ _ _ _ => hi.cursor_eq_size hend⟩
  | mismatch hp hidx =>
    obtain ⟨hcur, -⟩ := (placeOk_sig hp).1 hi.place
    have h7 : s.cursor = 7 := by rw [hcur, hidx]; rfl
    refine ⟨fun hne => absurd rfl hne, fun _ => ⟨h7, ?_⟩, fun hne => absurd rfl hne⟩
    rw [State.raise_cursor, State.advance_cursor, h7]
    rfl

/-- `EOF_RESID` is written by TRUNC_LEN alone (R123, R166). -/
theorem Raises.eofResid : (t.errcode ≠ .truncLen → t.eofResid = s.eofResid) ∧
    (t.errcode = .truncLen → t.eofResid = s.idx.setWidth 2) := by
  cases h with
  | command code hc => exact ⟨fun _ => rfl, by rcases hc with rfl | rfl | rfl <;> nofun⟩
  | streamEnd hb hlen =>
    obtain ⟨-, -, htrunc⟩ := Phase.endCode_cases hb hlen
    exact ⟨fun _ => rfl, fun hcode => absurd hcode htrunc⟩
  | lengthEnd => exact ⟨fun hne => absurd rfl hne, fun _ => rfl⟩
  | mismatch => exact ⟨fun _ => rfl, nofun⟩

/-- No other register changes (R166). -/
theorem Raises.frame : t.count = s.count ∧ t.sigOk = s.sigOk ∧ t.term = s.term ∧
    t.curLen = s.curLen ∧ t.curType = s.curType ∧ t.cfg = s.cfg ∧
    t.recLen = s.recLen ∧ t.recType = s.recType ∧ t.recCrc = s.recCrc ∧
    t.recFlags = s.recFlags ∧ t.recStartLast = s.recStartLast ∧ t.recStart = s.recStart ∧
    t.textReq = s.textReq ∧ t.acc = s.acc ∧ t.rem = s.rem ∧
    t.params = s.params ∧ ∀ a, t.stream.read a = s.stream.read a := by
  cases h <;>
    exact ⟨rfl, rfl, rfl, rfl, rfl, rfl, rfl, rfl, rfl, rfl, rfl, rfl, rfl, rfl, rfl, rfl,
      fun _ => rfl⟩

end

/-- Settles O16: a step that enters ERROR raises a fault, in one of four ways. -/
theorem faultEntry : Obligations.FaultEntry := by
  intro s t hi h hp ht
  obtain ⟨u, k, hraises, rfl⟩ := step_raises hi h hp ht
  obtain ⟨hcode, hpos, hidx, hpend, htrace⟩ := hraises.fault_state
  obtain ⟨hkept, hmismatch, hend⟩ := hraises.cursor hi.popped
  obtain ⟨hresid, hpartial⟩ := hraises.eofResid
  exact ⟨hcode, hpos, hidx, hpend, htrace, hkept, hmismatch, hend, hresid, hpartial, hraises.frame⟩

/-! ### Command faults -/

/-- While BUSY every command word is a fault (R88, R165). -/
theorem submit_of_busy {s : State} (hb : s.phase.busy = true) (w : Word) :
    submit w s = .next (s.raise .cmdBusy) := by
  rw [submit_eq_gate, gate_of_busy hb]

/-- In ERROR every command word is ignored (R88, R169). -/
theorem submit_of_error {s : State} (he : s.phase = .error) (w : Word) : submit w s = .next s := by
  rw [submit_eq_gate, gate_of_error he]

/-- Where a command is accepted the index and the pending text byte are at rest. -/
theorem State.Inv.at_rest {s : State} (hi : s.Inv)
    (hp : s.phase = .idle ∨ s.phase = .ready ∨ s.phase = .done) :
    s.idx = 0 ∧ s.pendTxt = none := by
  rcases hp with hp | hp | hp
  · exact ⟨((placeOk_idle hp).1 hi.place).1, hi.pendTxt_eq_none (by simp [hp])⟩
  · exact ⟨((placeOk_ready hp).1 hi.place).1, hi.pendTxt_eq_none (by simp [hp])⟩
  · exact ⟨((placeOk_done hp).1 hi.place).1, hi.pendTxt_eq_none (by simp [hp])⟩

/-- Raised at rest, a fault changes the fault state alone (R165). -/
theorem raise_of_at_rest {s : State} (hidx : s.idx = 0) (hpend : s.pendTxt = none) (c : ErrCode) :
    s.raise c = { s with errcode := c, errPos := s.cursor, phase := .error,
                         trace := s.trace ++ [.fault c s.cursor] } := by
  rw [State.raise, ← hidx, ← hpend]

/-- Settles O20: while BUSY the gate turns the word away; at rest a word that ends in ERROR was not
accepted. -/
theorem commandFaultsKeepTheRest : Obligations.CommandFaultsKeepTheRest := by
  refine fun s w => ⟨fun hb => submit_of_busy hb w, fun t hi hp h ht => ?_⟩
  obtain ⟨hidx, hpend⟩ := hi.at_rest hp
  rcases submit_cases h with ⟨he, -⟩ | ⟨hb, -⟩ | ⟨-, -, rfl⟩ | ⟨-, -, rfl⟩ | ⟨-, rfl | rfl⟩
  · simp [he] at hp
  · rcases hp with hp | hp | hp <;> simp [hp, Phase.busy] at hb
  · cases ht
  · cases ht
  · exact ⟨.inr rfl, raise_of_at_rest hidx hpend _⟩
  · exact ⟨.inl rfl, raise_of_at_rest hidx hpend _⟩

/-! ### After a fault, and after the end -/

/-- In ERROR the only move is to do nothing (R168). -/
theorem Move.eq_of_error {s t : State} {a : Agent} (hm : Move s a t) (hp : s.phase = .error) :
    t = s := by
  cases hm with
  | noCommand | unawaited | unoffered => rfl
  | commandFault _ h => exact absurd hp h
  | endFault _ h => rcases h with h | h | h | h <;> cases hp.symm.trans h
  | fieldByte _ h => rcases h with h | h | h <;> cases hp.symm.trans h
  | skipFault h | lenFault h | cleanEnd h | sigMismatch _ h | sigchk h | next h | sigByte _ _ h
  | sigOk _ h | lenLast _ h | typeEmpty _ h | typeText _ h | typeSkip _ h | skip _ h
  | skipLast _ h | textRead _ h | record _ _ h | lastRecord _ _ h | emit _ h | emitLast _ h =>
    cases hp.symm.trans h

/-- Settles O17: in ERROR the engine waits for nobody, the gate ignores every command word, and no
move changes the engine. -/
theorem errorIsSticky : Obligations.ErrorIsSticky := by
  intro s t hp h
  obtain ⟨hsource, htext⟩ := not_busy_awaits_nobody (s := s) (by simp [hp, Phase.busy])
  refine ⟨hsource, htext, submit_of_error hp, access_wr_cfg s, fun hr => ?_, fun hr => ?_⟩
  · obtain ⟨a, u, c, k, hm, -, -, hc, -, rfl⟩ := step_move h hr
    obtain rfl := hm.eq_of_error hp
    exact ⟨rfl, hc⟩
  · obtain ⟨bytes, rfl⟩ := step_reset h hr
    rfl

/-- Settles O22: DONE is not ERROR, and only in ERROR is a fault on the trace. -/
theorem doneMeansNoFaultRecorded : Obligations.DoneMeansNoFaultRecorded := by
  intro s ha
  constructor
  · intro h
    obtain ⟨hp, -⟩ := (Bool.and_eq_true _ _).mp h
    exact beq_iff_eq.1 hp
  · intro hp
    have hclean := ha.noFault (by simp [hp])
    simpa [State.decoded, hp] using hclean

end Sys2Proof.Machine
end

section
/-! Proof of the statement on fair service (R202): from any busy state, whatever command is in progress,
the demand runs out. -/

namespace Sys2Proof.Machine

/-- Soundness does not read what happens next. -/
theorem State.Sound.with_inputs {s : State} (hs : s.Sound) (xs : List Input) :
    ({ s with inputs := xs } : State).Sound :=
  ⟨hs.inv.with_outside hs.inv.cfgReserved hs.inv.hostWf xs, hs.short⟩

/-- Settles O14: every fair round lowers the demand of a busy engine, which is at most the number of
rounds. -/
theorem fairServiceEndsCommand : Obligations.FairServiceEndsCommand := by
  intro s rounds hs _ hfair hle
  have hin : ({ s with inputs := rounds.flatten } : State).inputs = rounds.flatten ++ [] :=
    (List.append_nil _).symm
  have hsound := hs.with_inputs rounds.flatten
  obtain ⟨t, hrun, -, hended, -⟩ :=
    runSteps_fair sound_keptByService hsound hin hfair hle hsound.engine
  exact ⟨t, hrun, hended⟩

end Sys2Proof.Machine
end
